-- ==== Sys2Proof/Word.lean ====
section
/-! DEFINITION. The one word type of the core: the byte (00_scope.md R10). Every wider value of the
machine is an unsigned integer (`Nat`) or a list of bytes read big-endian (R11). -/

namespace Sys2Proof

/-- A byte: 8 bits, bit 0 the least significant (00_scope.md R10). -/
abbrev Byte := BitVec 8

end Sys2Proof
end

