-- ==== Sys2Proof/Config.lean ====
section
/-! DEFINITION. What an implementation fixes and no tick changes: the parameters of 00_scope.md R8, and
the types they are made of (register descriptors, micro-operations, instruction-table entries). The
spec leaves no result of an instruction open (44_sequencer.md R122), so there is no free value here. -/

namespace Sys2Proof

/-- A register descriptor: a named window of `size` bytes at `offset` in the register file's backing
buffer (10_state.md R15). -/
structure RegDescriptor where
  name : String
  size : Nat
  offset : Nat
deriving DecidableEq, Repr

/-- The closed catalog of micro-operations (30_encoding.md R64), in the table's order. -/
inductive MicroOp where
  /-- `NoOperation` (R80). -/
  | noOperation
  /-- `Halt` (R104). -/
  | halt
  /-- `LoadImmediate` (R81). -/
  | loadImmediate (offset : Byte)
  /-- `LoadImmediateInternal` (R82). -/
  | loadImmediateInternal (value : Byte)
  /-- `LoadFromMemory` (R83). -/
  | loadFromMemory
  /-- `LoadFromRegister` (R84). -/
  | loadFromRegister (offset : Byte)
  /-- `LoadFromRegisterInternal` (R85). -/
  | loadFromRegisterInternal (id : Byte)
  /-- `SetMemoryAddress` (R86). -/
  | setMemoryAddress
  /-- `StoreToMemory` (R87). -/
  | storeToMemory
  /-- `StoreToRegister` (R88). -/
  | storeToRegister (offset : Byte)
  /-- `StoreToRegisterInternal` (R89). -/
  | storeToRegisterInternal (id : Byte)
  /-- `StepProgramMemory` (R90). -/
  | stepProgramMemory (n : Byte)
  /-- `Add` (R96). -/
  | add
  /-- `Sub` (R97). -/
  | sub
  /-- `PushToStack` (R101). -/
  | pushToStack
  /-- `PopFromStack` (R102). -/
  | popFromStack
  /-- `Jump` (R105). -/
  | jump
  /-- `Compare` (R98). -/
  | compare
  /-- `JumpIfFlag` (R107). -/
  | jumpIfFlag (trueMask falseMask : Byte)
  /-- `JumpIfNotFlag` (R108). -/
  | jumpIfNotFlag (trueMask falseMask : Byte)
deriving DecidableEq, Repr

/-- An instruction-table entry: the ordered micro-operations of one opcode and its count of operand
bytes, which the engine never reads (30_encoding.md R60, R62). -/
structure Entry where
  microOps : List MicroOp
  argCount : Byte
deriving DecidableEq, Repr

/-- The instruction table: a partial map from opcode byte to entry (00_scope.md R8), held as pairs; the
first pair with an opcode is its entry. -/
abbrev ITable := List (Byte × Entry)

/-- What Compare does on registers wider than one byte (00_scope.md R8, 41_microops_alu.md R99). -/
inductive CompareWide where
  /-- Raise `Fatal(COMPARE_WIDTH)`: the default. -/
  | refuse
  /-- Compare the low bytes. -/
  | lowByte
deriving DecidableEq, Repr

/-- The parameters of the core (00_scope.md R8). A role id that names no descriptor is a role that is
not configured (10_state.md R20). -/
structure Config where
  /-- `W`, `cpu_data_size`: bytes per machine value (R6). -/
  dataSize : Nat
  memSize : Nat
  storageSize : Nat
  /-- The register descriptors; position is the numeric id. -/
  regs : List RegDescriptor
  pcId : Nat
  spId : Nat
  marId : Nat
  flagsId : Nat
  regAId : Nat
  regBId : Nat
  spReset : Nat
  pcReset : Nat
  itable : ITable
  compareWide : CompareWide
deriving DecidableEq, Repr

end Sys2Proof
end

