-- ==== Sys2Proof/Machine/RefTable.lean ====
section
/-! DEFINITION. The reference instruction table RCS-REF-1 (30_encoding.md R66) and the reference
configuration (00_scope.md R8). It stands here, and not in Config.lean, because it is what every
instruction's meaning is made of. -/

namespace Sys2Proof.Machine

/-- The context save `CTX` of the call-style jumps (46_refisa_control.md R155). -/
def microOpsCtx : List MicroOp :=
  [.loadFromRegisterInternal 2, .pushToStack, .loadFromRegisterInternal 4, .pushToStack,
   .loadFromRegisterInternal 0, .storeToRegisterInternal 5, .loadImmediateInternal 2, .storeToRegisterInternal 6,
   .add, .setMemoryAddress, .popFromStack, .storeToRegisterInternal 4, .loadFromRegisterInternal 3, .pushToStack]

/-- The micro-operations of `NOP` (30_encoding.md R66, R126). -/
def microOpsNop : List MicroOp :=
  [.noOperation]

/-- The micro-operations of `HLT` (30_encoding.md R66, R127). -/
def microOpsHlt : List MicroOp :=
  [.halt]

/-- The micro-operations of `LDI` (30_encoding.md R66, R128). -/
def microOpsLdi : List MicroOp :=
  [.loadImmediate 1, .stepProgramMemory 1]

/-- The micro-operations of `LDR` (30_encoding.md R66, R129). -/
def microOpsLdr : List MicroOp :=
  [.loadFromRegister 1, .stepProgramMemory 1]

/-- The micro-operations of `STR` (30_encoding.md R66, R130). -/
def microOpsStr : List MicroOp :=
  [.storeToRegister 1, .stepProgramMemory 1]

/-- The micro-operations of `MVI` (30_encoding.md R66, R131). -/
def microOpsMvi : List MicroOp :=
  [.loadImmediate 2, .storeToRegister 1, .stepProgramMemory 2]

/-- The micro-operations of `MOV` (30_encoding.md R66, R132). -/
def microOpsMov : List MicroOp :=
  [.loadFromRegister 2, .storeToRegister 1, .stepProgramMemory 2]

/-- The micro-operations of `LDM` (30_encoding.md R66, R133). -/
def microOpsLdm : List MicroOp :=
  [.loadImmediate 2, .setMemoryAddress, .loadFromMemory, .storeToRegister 1, .stepProgramMemory 2]

/-- The micro-operations of `STM` (30_encoding.md R66, R134). -/
def microOpsStm : List MicroOp :=
  [.loadImmediate 1, .setMemoryAddress, .loadFromRegister 2, .storeToMemory, .stepProgramMemory 2]

/-- The micro-operations of `LDX` (30_encoding.md R66, R135). -/
def microOpsLdx : List MicroOp :=
  [.loadFromRegister 2, .setMemoryAddress, .loadFromMemory, .storeToRegister 1, .stepProgramMemory 2]

/-- The micro-operations of `STX` (30_encoding.md R66, R136). -/
def microOpsStx : List MicroOp :=
  [.loadFromRegister 1, .setMemoryAddress, .loadFromRegister 2, .storeToMemory, .stepProgramMemory 2]

/-- The micro-operations of `ADD` (30_encoding.md R66, R137). -/
def microOpsAdd : List MicroOp :=
  [.add]

/-- The micro-operations of `SUB` (30_encoding.md R66, R138). -/
def microOpsSub : List MicroOp :=
  [.sub]

/-- The micro-operations of `CMP` (30_encoding.md R66, R139). -/
def microOpsCmp : List MicroOp :=
  [.compare]

/-- The micro-operations of `PUSH` (30_encoding.md R66, R140). -/
def microOpsPush : List MicroOp :=
  [.pushToStack]

/-- The micro-operations of `PSHI` (30_encoding.md R66, R141). -/
def microOpsPshi : List MicroOp :=
  [.loadImmediate 1, .pushToStack, .stepProgramMemory 1]

/-- The micro-operations of `PSHR` (30_encoding.md R66, R142). -/
def microOpsPshr : List MicroOp :=
  [.loadFromRegister 1, .pushToStack, .stepProgramMemory 1]

/-- The micro-operations of `POP` (30_encoding.md R66, R143). -/
def microOpsPop : List MicroOp :=
  [.popFromStack]

/-- The micro-operations of `POPR` (30_encoding.md R66, R144). -/
def microOpsPopr : List MicroOp :=
  [.popFromStack, .storeToRegister 1, .stepProgramMemory 1]

/-- The micro-operations of `JMP` (30_encoding.md R66, R146). -/
def microOpsJmp : List MicroOp :=
  [.loadImmediate 1, .jump]

/-- The micro-operations of `JPA` (30_encoding.md R66, R147). -/
def microOpsJpa : List MicroOp :=
  [.jump]

/-- The micro-operations of `JEQ` (30_encoding.md R66, R149). -/
def microOpsJeq : List MicroOp :=
  [.compare, .loadImmediate 1, .jumpIfFlag 0x01 0x02, .stepProgramMemory 1]

/-- The micro-operations of `JNE` (30_encoding.md R66, R150). -/
def microOpsJne : List MicroOp :=
  [.compare, .loadImmediate 1, .jumpIfFlag 0x00 0x01, .stepProgramMemory 1]

/-- The micro-operations of `JGT` (30_encoding.md R66, R151). -/
def microOpsJgt : List MicroOp :=
  [.compare, .loadImmediate 1, .jumpIfFlag 0x02 0x01, .stepProgramMemory 1]

/-- The micro-operations of `JLT` (30_encoding.md R66, R152). -/
def microOpsJlt : List MicroOp :=
  [.compare, .loadImmediate 1, .jumpIfFlag 0x00 0x03, .stepProgramMemory 1]

/-- The micro-operations of `JLE` (30_encoding.md R66, R153). -/
def microOpsJle : List MicroOp :=
  [.compare, .loadImmediate 1, .jumpIfFlag 0x00 0x02, .stepProgramMemory 1]

/-- The micro-operations of `JGE` (30_encoding.md R66, R157). -/
def microOpsJge : List MicroOp :=
  [.compare] ++ microOpsCtx ++ [.loadImmediate 1, .jumpIfFlag 0x00 0x02, .stepProgramMemory 1]

/-- The micro-operations of `JNL` (30_encoding.md R66, R154). -/
def microOpsJnl : List MicroOp :=
  [.compare, .loadImmediate 1, .jumpIfNotFlag 0x00 0x03, .stepProgramMemory 1]

/-- The micro-operations of `CALL` (30_encoding.md R66, R156). -/
def microOpsCall : List MicroOp :=
  microOpsCtx ++ [.loadImmediate 1, .jump]

/-- The micro-operations of `RET` (30_encoding.md R66, R158). -/
def microOpsRet : List MicroOp :=
  [.popFromStack, .setMemoryAddress, .popFromStack, .storeToRegisterInternal 2, .loadFromRegisterInternal 3, .jump]

/-- RCS-REF-1: thirty opcodes (30_encoding.md R66). -/
def rcsRef1 : ITable :=
  [ (0x00, ⟨microOpsNop, 0⟩),
    (0x01, ⟨microOpsHlt, 0⟩),
    (0x10, ⟨microOpsLdi, 1⟩),
    (0x11, ⟨microOpsLdr, 1⟩),
    (0x12, ⟨microOpsStr, 1⟩),
    (0x13, ⟨microOpsMvi, 2⟩),
    (0x14, ⟨microOpsMov, 2⟩),
    (0x20, ⟨microOpsLdm, 2⟩),
    (0x21, ⟨microOpsStm, 2⟩),
    (0x22, ⟨microOpsLdx, 2⟩),
    (0x23, ⟨microOpsStx, 2⟩),
    (0x30, ⟨microOpsAdd, 0⟩),
    (0x31, ⟨microOpsSub, 0⟩),
    (0x32, ⟨microOpsCmp, 0⟩),
    (0x40, ⟨microOpsPush, 0⟩),
    (0x41, ⟨microOpsPshi, 1⟩),
    (0x42, ⟨microOpsPshr, 1⟩),
    (0x43, ⟨microOpsPop, 0⟩),
    (0x44, ⟨microOpsPopr, 1⟩),
    (0x50, ⟨microOpsJmp, 1⟩),
    (0x51, ⟨microOpsJpa, 0⟩),
    (0x52, ⟨microOpsJeq, 1⟩),
    (0x53, ⟨microOpsJne, 1⟩),
    (0x54, ⟨microOpsJgt, 1⟩),
    (0x55, ⟨microOpsJlt, 1⟩),
    (0x56, ⟨microOpsJle, 1⟩),
    (0x57, ⟨microOpsJge, 1⟩),
    (0x58, ⟨microOpsJnl, 1⟩),
    (0x60, ⟨microOpsCall, 1⟩),
    (0x61, ⟨microOpsRet, 0⟩) ]

/-- The entry of an opcode, if the table has one (00_scope.md R8, R9). -/
def lookupEntry : ITable → Byte → Option Entry
  | [], _ => none
  | (o, e) :: t, op => if o = op then some e else lookupEntry t op

/-- The reference register map at data width `w` (10_state.md R19). -/
def referenceRegs (w : Nat) : List RegDescriptor :=
  [ ⟨"pc", w, 0⟩, ⟨"sp", w, w⟩, ⟨"bp", w, 2 * w⟩, ⟨"mar", w, 3 * w⟩, ⟨"flags", 1, 4 * w⟩,
    ⟨"reg_a", w, 4 * w + 1⟩, ⟨"reg_b", w, 5 * w + 1⟩, ⟨"reg_c", w, 6 * w + 1⟩ ]

/-- The reference configuration: the reference column of 00_scope.md R8, with RCS-REF-1. -/
def referenceConfig : Config where
  dataSize := 1
  memSize := 256
  storageSize := 256
  regs := referenceRegs 1
  pcId := 0
  spId := 1
  marId := 3
  flagsId := 4
  regAId := 5
  regBId := 6
  spReset := 255
  pcReset := 0
  itable := rcsRef1
  compareWide := .refuse

end Sys2Proof.Machine
end

