-- ==== Sys2Proof/Machine/State.lean ====
section
/-! DEFINITION. The state of one core (10_state.md R14), its fatal causes (60_exceptions.md R161), the
stops of a step, and the state after reset (10_state.md R37). -/

namespace Sys2Proof.Machine

/-- A byte store, sparse: address and byte, addresses strictly rising, no byte equal to what an
unlisted address reads as (20_memory.md R40; the canonical form is `Memory.wf` of Machine/Ops.lean). -/
abbrev Memory := List Host.Cell

/-- The fatal causes (60_exceptions.md R161). -/
inductive FatalCause where
  /-- A memory access with `addr + n > MEM_SIZE`. -/
  | memRange
  /-- The byte read by a fetch tick has no table entry. -/
  | unknownOpcode
  /-- A register id, or a role id, that names no register. -/
  | unknownRegister
  /-- A value that does not fit its destination. -/
  | valueTooWide
  /-- Sub with `reg_b > reg_a`, or a push with `sp < W`. -/
  | subUnderflow
  /-- Compare on a register wider than one byte, under `COMPARE_WIDE = refuse`. -/
  | compareWidth
deriving DecidableEq, Repr

/-- The state of one core (10_state.md R14). -/
structure State where
  /-- The parameters of 00_scope.md R8, which no tick changes (10_state.md R38; log 1). -/
  cfg : Config
  /-- `MEM` (R33). -/
  mem : Memory
  /-- `STORAGE`: no tick reads or writes it (R34, 20_memory.md R56). -/
  storage : Memory
  /-- `RF`, the register file's backing buffer, byte 0 first (R15). -/
  rf : List Byte
  /-- The accumulator, an unsigned integer with no width limit (R27). -/
  acc : Nat
  /-- `current_opcode`: `none` is Idle (R29). -/
  currentOpcode : Option Byte
  /-- `current_step`: the index of the next micro-operation (R30). -/
  currentStep : Nat
  /-- Set by Halt, cleared by the host's `unhalt()` (R31). -/
  halted : Bool
  /-- The sticky fatal latch (R32). -/
  fatal : Option FatalCause
deriving DecidableEq, Repr

/-- Why a step stops. -/
inductive Fault where
  /-- `Fatal(cause)`: raised by a fetch tick, a micro-operation or a retire tick under the conditions of
  60_exceptions.md R162. `latched` is the state the raise leaves: the latch set, nothing else changed
  (R163, R164). The spec stops here too, so the stop is safe; that a claim can read `latched` is
  discussed in log 2. -/
  | fatal (cause : FatalCause) (latched : State)
deriving DecidableEq, Repr

/-- Why an instruction has no meaning. -/
inductive Refusal where
  /-- Raised by an arm of `exec` whose instruction has no meaning yet (none here). Safe: no state
  follows. -/
  | notModelled (mnemonic : String)
deriving DecidableEq, Repr

/-- The state after reset in the reference configuration (10_state.md R37, 70_reset_and_hazards.md
R180): `sp = 255`, every other register byte 0, Idle, not halted, no fatal error, both stores zero. -/
def State.reset : State where
  cfg := referenceConfig
  mem := []
  storage := []
  rf := [0, 255, 0, 0, 0, 0, 0, 0]
  acc := 0
  currentOpcode := none
  currentStep := 0
  halted := false
  fatal := none

end Sys2Proof.Machine
end

