-- ==== Sys2Proof/Syntax.lean ====
section
/-! DEFINITION. The syntax: one constructor per row of spec/opcode_table.json, on the two instruction
levels of 00_scope.md R2. The thirty instructions of RCS-REF-1 (30_encoding.md R66) carry their operand
bytes in memory order; the twenty micro-operations (30_encoding.md R64), whose constructors begin
with `u`, carry their fields. Every operand and every field is a byte (R61, R64, R69). -/

namespace Sys2Proof

/-- An instruction of either level. -/
inductive Instr where
  /-- `NOP`, opcode 0x00 (R126). -/
  | nop
  /-- `HLT`, opcode 0x01 (R127). -/
  | hlt
  /-- `LDI`, opcode 0x10 (R128). -/
  | ldi (imm : Byte)
  /-- `LDR`, opcode 0x11 (R129). -/
  | ldr (rs : Byte)
  /-- `STR`, opcode 0x12 (R130). -/
  | str (rd : Byte)
  /-- `MVI`, opcode 0x13 (R131). -/
  | mvi (rd imm : Byte)
  /-- `MOV`, opcode 0x14 (R132). -/
  | mov (rd rs : Byte)
  /-- `LDM`, opcode 0x20 (R133). -/
  | ldm (rd addr : Byte)
  /-- `STM`, opcode 0x21 (R134). -/
  | stm (addr rs : Byte)
  /-- `LDX`, opcode 0x22 (R135). -/
  | ldx (rd ra : Byte)
  /-- `STX`, opcode 0x23 (R136). -/
  | stx (ra rs : Byte)
  /-- `ADD`, opcode 0x30 (R137). -/
  | add
  /-- `SUB`, opcode 0x31 (R138). -/
  | sub
  /-- `CMP`, opcode 0x32 (R139). -/
  | cmp
  /-- `PUSH`, opcode 0x40 (R140). -/
  | push
  /-- `PSHI`, opcode 0x41 (R141). -/
  | pshi (imm : Byte)
  /-- `PSHR`, opcode 0x42 (R142). -/
  | pshr (rs : Byte)
  /-- `POP`, opcode 0x43 (R143). -/
  | pop
  /-- `POPR`, opcode 0x44 (R144). -/
  | popr (rd : Byte)
  /-- `JMP`, opcode 0x50 (R146). -/
  | jmp (addr : Byte)
  /-- `JPA`, opcode 0x51 (R147). -/
  | jpa
  /-- `JEQ`, opcode 0x52 (R149). -/
  | jeq (addr : Byte)
  /-- `JNE`, opcode 0x53 (R150). -/
  | jne (addr : Byte)
  /-- `JGT`, opcode 0x54 (R151). -/
  | jgt (addr : Byte)
  /-- `JLT`, opcode 0x55 (R152). -/
  | jlt (addr : Byte)
  /-- `JLE`, opcode 0x56 (R153). -/
  | jle (addr : Byte)
  /-- `JGE`, opcode 0x57 (R157). -/
  | jge (addr : Byte)
  /-- `JNL`, opcode 0x58 (R154). -/
  | jnl (addr : Byte)
  /-- `CALL`, opcode 0x60 (R156). -/
  | call (addr : Byte)
  /-- `RET`, opcode 0x61 (R158). -/
  | ret
  /-- Micro-operation `NoOperation`, kind 0x00 (R80). -/
  | uNoOperation
  /-- Micro-operation `Halt`, kind 0x01 (R104). -/
  | uHalt
  /-- Micro-operation `LoadImmediate`, kind 0x02 (R81). -/
  | uLoadImmediate (offset : Byte)
  /-- Micro-operation `LoadImmediateInternal`, kind 0x03 (R82). -/
  | uLoadImmediateInternal (value : Byte)
  /-- Micro-operation `LoadFromMemory`, kind 0x04 (R83). -/
  | uLoadFromMemory
  /-- Micro-operation `LoadFromRegister`, kind 0x05 (R84). -/
  | uLoadFromRegister (offset : Byte)
  /-- Micro-operation `LoadFromRegisterInternal`, kind 0x06 (R85). -/
  | uLoadFromRegisterInternal (id : Byte)
  /-- Micro-operation `SetMemoryAddress`, kind 0x07 (R86). -/
  | uSetMemoryAddress
  /-- Micro-operation `StoreToMemory`, kind 0x08 (R87). -/
  | uStoreToMemory
  /-- Micro-operation `StoreToRegister`, kind 0x09 (R88). -/
  | uStoreToRegister (offset : Byte)
  /-- Micro-operation `StoreToRegisterInternal`, kind 0x0A (R89). -/
  | uStoreToRegisterInternal (id : Byte)
  /-- Micro-operation `StepProgramMemory`, kind 0x0B (R90). -/
  | uStepProgramMemory (n : Byte)
  /-- Micro-operation `Add`, kind 0x0C (R96). -/
  | uAdd
  /-- Micro-operation `Sub`, kind 0x0D (R97). -/
  | uSub
  /-- Micro-operation `PushToStack`, kind 0x0E (R101). -/
  | uPushToStack
  /-- Micro-operation `PopFromStack`, kind 0x0F (R102). -/
  | uPopFromStack
  /-- Micro-operation `Jump`, kind 0x10 (R105). -/
  | uJump
  /-- Micro-operation `Compare`, kind 0x11 (R98). -/
  | uCompare
  /-- Micro-operation `JumpIfFlag`, kind 0x12 (R107). -/
  | uJumpIfFlag (trueMask falseMask : Byte)
  /-- Micro-operation `JumpIfNotFlag`, kind 0x13 (R108). -/
  | uJumpIfNotFlag (trueMask falseMask : Byte)
deriving DecidableEq, Repr

end Sys2Proof
end

