-- ==== Sys2Proof/Decode.lean ====
section
/-! DEFINITION. Decoding and encoding, both levels. Instructions are byte strings in memory, the opcode
first (30_encoding.md R60); micro-operations are 24-bit micro-words of the instruction table's ROM
(R65). The decoders are total and reject by name. -/

namespace Sys2Proof

/-- Why a byte string or a micro-word decodes to nothing. -/
inductive DecodeError where
  /-- There is no byte to read. -/
  | noBytes
  /-- The opcode is none of RCS-REF-1's (30_encoding.md R68). -/
  | unknownOpcode (op : Byte)
  /-- The bytes end before the instruction's operand bytes do. -/
  | truncated (op : Byte)
  /-- A micro-word's kind is above 0x13 (30_encoding.md R65). -/
  | unknownKind (kind : Byte)
  /-- A micro-word's unused field is not zero (30_encoding.md R65). -/
  | unusedFieldNotZero (kind : Byte)
deriving DecidableEq, Repr

/-- What follows an opcode byte: the formats F0, F1 and F2 of 30_encoding.md R60. -/
inductive Format where
  | f0 (i : Instr)
  | f1 (mk : Byte → Instr)
  | f2 (mk : Byte → Byte → Instr)

/-- The opcode map of RCS-REF-1 (30_encoding.md R66). -/
def decodeOpcode (op : Byte) : Option Format :=
  match op.toNat with
  | 0x00 => some (.f0 .nop)
  | 0x01 => some (.f0 .hlt)
  | 0x10 => some (.f1 .ldi)
  | 0x11 => some (.f1 .ldr)
  | 0x12 => some (.f1 .str)
  | 0x13 => some (.f2 .mvi)
  | 0x14 => some (.f2 .mov)
  | 0x20 => some (.f2 .ldm)
  | 0x21 => some (.f2 .stm)
  | 0x22 => some (.f2 .ldx)
  | 0x23 => some (.f2 .stx)
  | 0x30 => some (.f0 .add)
  | 0x31 => some (.f0 .sub)
  | 0x32 => some (.f0 .cmp)
  | 0x40 => some (.f0 .push)
  | 0x41 => some (.f1 .pshi)
  | 0x42 => some (.f1 .pshr)
  | 0x43 => some (.f0 .pop)
  | 0x44 => some (.f1 .popr)
  | 0x50 => some (.f1 .jmp)
  | 0x51 => some (.f0 .jpa)
  | 0x52 => some (.f1 .jeq)
  | 0x53 => some (.f1 .jne)
  | 0x54 => some (.f1 .jgt)
  | 0x55 => some (.f1 .jlt)
  | 0x56 => some (.f1 .jle)
  | 0x57 => some (.f1 .jge)
  | 0x58 => some (.f1 .jnl)
  | 0x60 => some (.f1 .call)
  | 0x61 => some (.f0 .ret)
  | _ => none

/-- The instruction at the head of a byte string, and the bytes after it. -/
def decode : List Byte → Except DecodeError (Instr × List Byte)
  | [] => .error .noBytes
  | op :: rest =>
    match decodeOpcode op with
    | none => .error (.unknownOpcode op)
    | some (.f0 i) => .ok (i, rest)
    | some (.f1 mk) =>
      match rest with
      | b1 :: rest => .ok (mk b1, rest)
      | [] => .error (.truncated op)
    | some (.f2 mk) =>
      match rest with
      | b1 :: b2 :: rest => .ok (mk b1 b2, rest)
      | _ => .error (.truncated op)

/-- Instructions one after another until the bytes end; `fuel`, the number of bytes, bounds how many. -/
def decodeProgram : Nat → List Byte → Except DecodeError (List Instr)
  | _, [] => .ok []
  | 0, b :: _ => .error (.truncated b)
  | fuel + 1, b :: bs =>
    match decode (b :: bs) with
    | .error e => .error e
    | .ok (i, rest) =>
      match decodeProgram fuel rest with
      | .error e => .error e
      | .ok is => .ok (i :: is)

/-- The kind field of a micro-word, bits 23:16 (30_encoding.md R65). -/
def microKind (w : BitVec 24) : Byte := w.extractLsb' 16 8

/-- The first field of a micro-word, bits 15:8 (30_encoding.md R65). -/
def microFieldA (w : BitVec 24) : Byte := w.extractLsb' 8 8

/-- The second field of a micro-word, bits 7:0 (30_encoding.md R65). -/
def microFieldB (w : BitVec 24) : Byte := w.extractLsb' 0 8

/-- The micro-operation of a micro-word: an unknown kind, or a field that is unused and not zero,
encodes none (30_encoding.md R65). -/
def decodeMicroWord (w : BitVec 24) : Except DecodeError MicroOp :=
  let kind := microKind w
  let a := microFieldA w
  let b := microFieldB w
  let plain (u : MicroOp) : Except DecodeError MicroOp :=
    if a = 0 ∧ b = 0 then .ok u else .error (.unusedFieldNotZero kind)
  let one (mk : Byte → MicroOp) : Except DecodeError MicroOp :=
    if b = 0 then .ok (mk a) else .error (.unusedFieldNotZero kind)
  match kind.toNat with
  | 0x00 => plain .noOperation
  | 0x01 => plain .halt
  | 0x02 => one .loadImmediate
  | 0x03 => one .loadImmediateInternal
  | 0x04 => plain .loadFromMemory
  | 0x05 => one .loadFromRegister
  | 0x06 => one .loadFromRegisterInternal
  | 0x07 => plain .setMemoryAddress
  | 0x08 => plain .storeToMemory
  | 0x09 => one .storeToRegister
  | 0x0A => one .storeToRegisterInternal
  | 0x0B => one .stepProgramMemory
  | 0x0C => plain .add
  | 0x0D => plain .sub
  | 0x0E => plain .pushToStack
  | 0x0F => plain .popFromStack
  | 0x10 => plain .jump
  | 0x11 => plain .compare
  | 0x12 => .ok (.jumpIfFlag a b)
  | 0x13 => .ok (.jumpIfNotFlag a b)
  | _ => .error (.unknownKind kind)

/-- The row of the opcode table that a micro-operation is. -/
def MicroOp.toInstr : MicroOp → Instr
  | .noOperation => .uNoOperation
  | .halt => .uHalt
  | .loadImmediate offset => .uLoadImmediate offset
  | .loadImmediateInternal value => .uLoadImmediateInternal value
  | .loadFromMemory => .uLoadFromMemory
  | .loadFromRegister offset => .uLoadFromRegister offset
  | .loadFromRegisterInternal id => .uLoadFromRegisterInternal id
  | .setMemoryAddress => .uSetMemoryAddress
  | .storeToMemory => .uStoreToMemory
  | .storeToRegister offset => .uStoreToRegister offset
  | .storeToRegisterInternal id => .uStoreToRegisterInternal id
  | .stepProgramMemory n => .uStepProgramMemory n
  | .add => .uAdd
  | .sub => .uSub
  | .pushToStack => .uPushToStack
  | .popFromStack => .uPopFromStack
  | .jump => .uJump
  | .compare => .uCompare
  | .jumpIfFlag trueMask falseMask => .uJumpIfFlag trueMask falseMask
  | .jumpIfNotFlag trueMask falseMask => .uJumpIfNotFlag trueMask falseMask

/-- The micro-operation a row of the opcode table is, if it is one. -/
def Instr.toMicroOp : Instr → Option MicroOp
  | .uNoOperation => some .noOperation
  | .uHalt => some .halt
  | .uLoadImmediate offset => some (.loadImmediate offset)
  | .uLoadImmediateInternal value => some (.loadImmediateInternal value)
  | .uLoadFromMemory => some .loadFromMemory
  | .uLoadFromRegister offset => some (.loadFromRegister offset)
  | .uLoadFromRegisterInternal id => some (.loadFromRegisterInternal id)
  | .uSetMemoryAddress => some .setMemoryAddress
  | .uStoreToMemory => some .storeToMemory
  | .uStoreToRegister offset => some (.storeToRegister offset)
  | .uStoreToRegisterInternal id => some (.storeToRegisterInternal id)
  | .uStepProgramMemory n => some (.stepProgramMemory n)
  | .uAdd => some .add
  | .uSub => some .sub
  | .uPushToStack => some .pushToStack
  | .uPopFromStack => some .popFromStack
  | .uJump => some .jump
  | .uCompare => some .compare
  | .uJumpIfFlag trueMask falseMask => some (.jumpIfFlag trueMask falseMask)
  | .uJumpIfNotFlag trueMask falseMask => some (.jumpIfNotFlag trueMask falseMask)
  | .nop => none
  | .hlt => none
  | .ldi _ => none
  | .ldr _ => none
  | .str _ => none
  | .mvi _ _ => none
  | .mov _ _ => none
  | .ldm _ _ => none
  | .stm _ _ => none
  | .ldx _ _ => none
  | .stx _ _ => none
  | .add => none
  | .sub => none
  | .cmp => none
  | .push => none
  | .pshi _ => none
  | .pshr _ => none
  | .pop => none
  | .popr _ => none
  | .jmp _ => none
  | .jpa => none
  | .jeq _ => none
  | .jne _ => none
  | .jgt _ => none
  | .jlt _ => none
  | .jle _ => none
  | .jge _ => none
  | .jnl _ => none
  | .call _ => none
  | .ret => none

/-- Is the row an instruction of RCS-REF-1 (and not a micro-operation)? -/
def Instr.isReference (i : Instr) : Bool := i.toMicroOp.isNone

/-! ### The encoder -/

/-- The kind number and the two fields of a micro-operation (30_encoding.md R64, R65). -/
def MicroOp.fields : MicroOp → Byte × Byte × Byte
  | .noOperation => (0x00, 0, 0)
  | .halt => (0x01, 0, 0)
  | .loadImmediate offset => (0x02, offset, 0)
  | .loadImmediateInternal value => (0x03, value, 0)
  | .loadFromMemory => (0x04, 0, 0)
  | .loadFromRegister offset => (0x05, offset, 0)
  | .loadFromRegisterInternal id => (0x06, id, 0)
  | .setMemoryAddress => (0x07, 0, 0)
  | .storeToMemory => (0x08, 0, 0)
  | .storeToRegister offset => (0x09, offset, 0)
  | .storeToRegisterInternal id => (0x0A, id, 0)
  | .stepProgramMemory n => (0x0B, n, 0)
  | .add => (0x0C, 0, 0)
  | .sub => (0x0D, 0, 0)
  | .pushToStack => (0x0E, 0, 0)
  | .popFromStack => (0x0F, 0, 0)
  | .jump => (0x10, 0, 0)
  | .compare => (0x11, 0, 0)
  | .jumpIfFlag trueMask falseMask => (0x12, trueMask, falseMask)
  | .jumpIfNotFlag trueMask falseMask => (0x13, trueMask, falseMask)

/-- The micro-word of a micro-operation: `kind[23:16] a[15:8] b[7:0]` (30_encoding.md R65). -/
def encodeMicroWord (u : MicroOp) : BitVec 24 :=
  u.fields.1 ++ (u.fields.2.1 ++ u.fields.2.2)

/-- The three bytes of a micro-operation's micro-word, kind first. -/
def MicroOp.romBytes (u : MicroOp) : List Byte := [u.fields.1, u.fields.2.1, u.fields.2.2]

/-- The bytes of an instruction: the opcode and its operand bytes in memory order (30_encoding.md R60,
R66), or the three bytes of a micro-word (R65). -/
def encode : Instr → List Byte
  | .nop => [0x00]
  | .hlt => [0x01]
  | .ldi imm => [0x10, imm]
  | .ldr rs => [0x11, rs]
  | .str rd => [0x12, rd]
  | .mvi rd imm => [0x13, rd, imm]
  | .mov rd rs => [0x14, rd, rs]
  | .ldm rd addr => [0x20, rd, addr]
  | .stm addr rs => [0x21, addr, rs]
  | .ldx rd ra => [0x22, rd, ra]
  | .stx ra rs => [0x23, ra, rs]
  | .add => [0x30]
  | .sub => [0x31]
  | .cmp => [0x32]
  | .push => [0x40]
  | .pshi imm => [0x41, imm]
  | .pshr rs => [0x42, rs]
  | .pop => [0x43]
  | .popr rd => [0x44, rd]
  | .jmp addr => [0x50, addr]
  | .jpa => [0x51]
  | .jeq addr => [0x52, addr]
  | .jne addr => [0x53, addr]
  | .jgt addr => [0x54, addr]
  | .jlt addr => [0x55, addr]
  | .jle addr => [0x56, addr]
  | .jge addr => [0x57, addr]
  | .jnl addr => [0x58, addr]
  | .call addr => [0x60, addr]
  | .ret => [0x61]
  | .uNoOperation => (MicroOp.noOperation).romBytes
  | .uHalt => (MicroOp.halt).romBytes
  | .uLoadImmediate offset => (MicroOp.loadImmediate offset).romBytes
  | .uLoadImmediateInternal value => (MicroOp.loadImmediateInternal value).romBytes
  | .uLoadFromMemory => (MicroOp.loadFromMemory).romBytes
  | .uLoadFromRegister offset => (MicroOp.loadFromRegister offset).romBytes
  | .uLoadFromRegisterInternal id => (MicroOp.loadFromRegisterInternal id).romBytes
  | .uSetMemoryAddress => (MicroOp.setMemoryAddress).romBytes
  | .uStoreToMemory => (MicroOp.storeToMemory).romBytes
  | .uStoreToRegister offset => (MicroOp.storeToRegister offset).romBytes
  | .uStoreToRegisterInternal id => (MicroOp.storeToRegisterInternal id).romBytes
  | .uStepProgramMemory n => (MicroOp.stepProgramMemory n).romBytes
  | .uAdd => (MicroOp.add).romBytes
  | .uSub => (MicroOp.sub).romBytes
  | .uPushToStack => (MicroOp.pushToStack).romBytes
  | .uPopFromStack => (MicroOp.popFromStack).romBytes
  | .uJump => (MicroOp.jump).romBytes
  | .uCompare => (MicroOp.compare).romBytes
  | .uJumpIfFlag trueMask falseMask => (MicroOp.jumpIfFlag trueMask falseMask).romBytes
  | .uJumpIfNotFlag trueMask falseMask => (MicroOp.jumpIfNotFlag trueMask falseMask).romBytes

/-- A program's bytes: its instructions one after another (30_encoding.md R60). -/
def encodeProgram : List Instr → List Byte
  | [] => []
  | i :: is => encode i ++ encodeProgram is

/-! ### The ROM image of an instruction table -/

/-- A table entry in ROM: its `arg_count` byte, its micro-operation count, its micro-words
(30_encoding.md R65). DESIGN CHOICE (log 13): R65 gives the count no width; here it is one byte, so an
entry with more than 255 micro-operations has no image. -/
def encodeEntry (e : Entry) : Option (List Byte) :=
  if e.microOps.length < 256 then
    some (e.argCount :: BitVec.ofNat 8 e.microOps.length :: e.microOps.flatMap MicroOp.romBytes)
  else none

/-- Read `n` micro-words; a word that encodes no micro-operation makes the table ill-formed
(30_encoding.md R65). -/
def decodeMicroWords : Nat → List Byte → Except DecodeError (List MicroOp × List Byte)
  | 0, rest => .ok ([], rest)
  | n + 1, k :: a :: b :: rest =>
    match decodeMicroWord (k ++ (a ++ b)) with
    | .error e => .error e
    | .ok u =>
      match decodeMicroWords n rest with
      | .error e => .error e
      | .ok (us, rest) => .ok (u :: us, rest)
  | _ + 1, _ => .error .noBytes

/-- Read one table entry from ROM, refusing an ill-formed one (30_encoding.md R65). The one-byte count is
the model's (log 13). -/
def decodeEntry : List Byte → Except DecodeError (Entry × List Byte)
  | argCount :: count :: rest =>
    match decodeMicroWords count.toNat rest with
    | .error e => .error e
    | .ok (us, rest) => .ok (⟨us, argCount⟩, rest)
  | _ => .error .noBytes

/-! ### The opcode table's numbering of a row's bits -/

/-- The low `n` bytes of a number, the most significant first: how spec/opcode_table.json numbers a
row's bits (its `fixed` lists the opcode in the HIGH bits; 30_encoding.md R60). -/
def tableBytes : Nat → Nat → List Byte
  | 0, _ => []
  | n + 1, w => tableBytes n (w / 256) ++ [BitVec.ofNat 8 w]

/-- The instruction read from a table row's word of `nbits` bits. A word of 24 bits is a memory image of
three bytes when these are one F2 instruction, and else a micro-word; 0x13 is both, and reads as
`MVI` (log 8). Operand bytes the table gives no bits are 0. -/
def decodeTableWord (nbits w : Nat) : Option Instr :=
  let bytes := tableBytes (nbits / 8) w
  match decode (bytes ++ [0, 0]) with
  | .ok (i, rest) =>
    if nbits = 24 ∧ rest.length ≠ 2 then
      match decodeMicroWord (BitVec.ofNat 24 w) with
      | .ok u => some u.toInstr
      | .error _ => none
    else some i
  | .error _ =>
    if nbits = 24 then
      match decodeMicroWord (BitVec.ofNat 24 w) with
      | .ok u => some u.toInstr
      | .error _ => none
    else none

end Sys2Proof
end

