-- ==== Sys2Proof/WellFormed.lean ====
section
/-! DEFINITION. What a model checks before it runs: the constraints on the parameters (00_scope.md R8),
on the register descriptors (10_state.md R15), on the instruction table (30_encoding.md R63, R64, R71),
and on an instruction's register literals (R71). The engine itself checks none of this ahead of time:
an ill-formed instruction or table still runs, and its defect surfaces as a fatal error. -/

namespace Sys2Proof

/-- Every `id` of an `Internal` micro-operation is a valid id of `nregs` descriptors (30_encoding.md
R71). The other fields are bytes, so in their domain by type (R64). -/
def MicroOp.wellFormed (nregs : Nat) : MicroOp → Bool
  | .loadFromRegisterInternal id => id.toNat < nregs
  | .storeToRegisterInternal id => id.toNat < nregs
  | _ => true

/-- An instruction is well formed when its register LITERALS are valid ids of the configuration. The
operand bytes of the thirty instructions have no illegal values of their own (30_encoding.md R69). -/
def Instr.wellFormed (cfg : Config) (i : Instr) : Bool :=
  match i.toMicroOp with
  | some u => u.wellFormed cfg.regs.length
  | none => true

/-- All micro-operations of an entry are well formed (30_encoding.md R71). -/
def Entry.wellFormed (nregs : Nat) (e : Entry) : Bool := e.microOps.all (·.wellFormed nregs)

/-- The amount a micro-operation steps the program counter by. -/
def MicroOp.stepAmount : MicroOp → Nat
  | .stepProgramMemory n => n.toNat
  | _ => 0

/-- The sum of a list's StepProgramMemory amounts (44_sequencer.md R115). -/
def stepSum (us : List MicroOp) : Nat := (us.map MicroOp.stepAmount).sum

/-- Does the list hold an unconditional Jump (whose instruction has no fall-through path)? -/
def hasJump (us : List MicroOp) : Bool := us.contains .jump

/-- A length-consistent entry: the steps on the fall-through path sum to `arg_count` (30_encoding.md
R63). An entry with an unconditional Jump has no such path. -/
def Entry.lengthConsistent (e : Entry) : Bool :=
  hasJump e.microOps || stepSum e.microOps == e.argCount.toNat

/-- No opcode has two entries. -/
def ITable.distinctOpcodes (t : ITable) : Bool := decide (t.map Prod.fst).Nodup

/-- A well-formed instruction table (30_encoding.md R71). -/
def ITable.wellFormed (nregs : Nat) (t : ITable) : Bool :=
  ITable.distinctOpcodes t && t.all (fun p => p.2.wellFormed nregs)

/-- `1 <= W` (00_scope.md R8). -/
def Config.dataSizeOk (c : Config) : Bool := decide (1 ≤ c.dataSize)

/-- `1 <= MEM_SIZE <= 256^W` (00_scope.md R8). -/
def Config.memSizeOk (c : Config) : Bool := decide (1 ≤ c.memSize ∧ c.memSize ≤ 256 ^ c.dataSize)

/-- Names unique, sizes positive, at most 256 descriptors (00_scope.md R8, 10_state.md R15). -/
def Config.regsOk (c : Config) : Bool :=
  decide (c.regs.map RegDescriptor.name).Nodup && c.regs.all (fun d => decide (0 < d.size)) &&
    decide (c.regs.length ≤ 256)

/-- The role ids, in the order of 00_scope.md R8. -/
def Config.roleIds (c : Config) : List Nat :=
  [c.pcId, c.spId, c.marId, c.flagsId, c.regAId, c.regBId]

/-- Each role id a valid id of `REGS`, all distinct (00_scope.md R8). -/
def Config.rolesOk (c : Config) : Bool :=
  c.roleIds.all (fun i => decide (i < c.regs.length)) && decide c.roleIds.Nodup

/-- The size of register `i`, 0 where there is none (10_state.md R15). -/
def Config.regSize (c : Config) (i : Nat) : Nat :=
  match c.regs[i]? with
  | some d => d.size
  | none => 0

/-- `SP_RESET <= MEM_SIZE`, `SP_RESET < 256^size(SP_ID)` and `PC_RESET < 256^size(PC_ID)` (R8). -/
def Config.resetsOk (c : Config) : Bool :=
  decide (c.spReset ≤ c.memSize ∧ c.spReset < 256 ^ c.regSize c.spId ∧
    c.pcReset < 256 ^ c.regSize c.pcId)

/-- Two windows share no byte. -/
def RegDescriptor.disjoint (d e : RegDescriptor) : Bool :=
  decide (d.offset + d.size ≤ e.offset ∨ e.offset + e.size ≤ d.offset)

/-- No two register windows overlap: the usual case (10_state.md R21, 70_reset_and_hazards.md R203), and
no part of `wellFormed`, because a configuration may overlap them deliberately. -/
def Config.noOverlap (c : Config) : Bool :=
  decide (c.regs.Pairwise (fun d e => d.disjoint e = true))

/-- A well-formed configuration: the constraints of 00_scope.md R8 and 30_encoding.md R71. -/
def Config.wellFormed (c : Config) : Bool :=
  c.dataSizeOk && c.memSizeOk && c.regsOk && c.rolesOk && c.resetsOk &&
    ITable.wellFormed c.regs.length c.itable

/-- `RF_LEN`: the largest `offset + size` over all descriptors (10_state.md R15). -/
def Config.rfLen (c : Config) : Nat := c.regs.foldl (fun n d => max n (d.offset + d.size)) 0

end Sys2Proof
end

