-- ==== Sys2Proof/Machine/Ops.lean ====
section
/-! DEFINITION. The named operations over memory and registers, the integer reading of byte strings
(00_scope.md R11, R12), and raising a fatal error (60_exceptions.md R163). -/

namespace Sys2Proof.Machine

/-! ### One setter per field -/

/-- The state with `cfg` replaced. -/
def State.setCfg (s : State) (v : Config) : State := { s with cfg := v }

/-- The state with `mem` replaced. -/
def State.setMem (s : State) (v : Memory) : State := { s with mem := v }

/-- The state with `storage` replaced. -/
def State.setStorage (s : State) (v : Memory) : State := { s with storage := v }

/-- The state with `rf` replaced. -/
def State.setRf (s : State) (v : List Byte) : State := { s with rf := v }

/-- The state with `acc` replaced. -/
def State.setAcc (s : State) (v : Nat) : State := { s with acc := v }

/-- The state with `currentOpcode` replaced. -/
def State.setCurrentOpcode (s : State) (v : Option Byte) : State := { s with currentOpcode := v }

/-- The state with `currentStep` replaced. -/
def State.setCurrentStep (s : State) (v : Nat) : State := { s with currentStep := v }

/-- The state with `halted` replaced. -/
def State.setHalted (s : State) (v : Bool) : State := { s with halted := v }

/-- The state with `fatal` replaced. -/
def State.setFatal (s : State) (v : Option FatalCause) : State := { s with fatal := v }

/-! ### Byte strings and integers (the Value Cell) -/

/-- `val(bs)`: the big-endian unsigned value of a byte string, 0 for the empty one (00_scope.md R11). -/
def val (bs : List Byte) : Nat := bs.foldl (fun n b => n * 256 + b.toNat) 0

/-- `bytes_n(v)`: the `n` low bytes of `v`, most significant first, left-padded with zeros. It is the
string of 00_scope.md R11 when `v < 256^n`; every use stands behind that check. -/
def bytesOf : Nat → Nat → List Byte
  | 0, _ => []
  | n + 1, v => bytesOf n (v / 256) ++ [BitVec.ofNat 8 v]

/-! ### The Addressable Store (20_memory.md R40) -/

/-- What an address that nothing has written reads as: the reset contents (10_state.md R37). -/
def Memory.unlisted : Byte := 0

/-- The byte at an address. -/
def Memory.read : Memory → Nat → Byte
  | [], _ => Memory.unlisted
  | (c, x) :: m, a => if c = a then x else Memory.read m a

/-- Write one byte, keeping the canonical form: writing what an unlisted address reads as removes the
entry. -/
def Memory.write : Memory → Nat → Byte → Memory
  | [], a, b => if b = Memory.unlisted then [] else [(a, b)]
  | (c, x) :: m, a, b =>
    if a < c then (if b = Memory.unlisted then (c, x) :: m else (a, b) :: (c, x) :: m)
    else if a = c then (if b = Memory.unlisted then m else (a, b) :: m)
    else (c, x) :: Memory.write m a b

/-- The canonical form from an address on: addresses strictly rising from `lo`, no unlisted byte. -/
def Memory.wfFrom : Nat → Memory → Bool
  | _, [] => true
  | lo, (c, x) :: m => decide (lo ≤ c) && decide (x ≠ Memory.unlisted) && Memory.wfFrom (c + 1) m

/-- The canonical form of a store: equal stores are equal lists. -/
def Memory.wf (m : Memory) : Bool := Memory.wfFrom 0 m

/-- No byte is listed at or above the store's size. -/
def Memory.within (size : Nat) (m : Memory) : Bool := m.all (fun c => decide (c.1 < size))

/-- The `n` bytes from an address up. -/
def Memory.readBytes (m : Memory) : Nat → Nat → List Byte
  | _, 0 => []
  | a, n + 1 => Memory.read m a :: Memory.readBytes m (a + 1) n

/-- Write bytes from an address up, the first at the lowest address (20_memory.md R45). -/
def Memory.writeBytes : Memory → Nat → List Byte → Memory
  | m, _, [] => m
  | m, a, b :: bs => Memory.writeBytes (Memory.write m a b) (a + 1) bs

/-- Zero-fill `n` bytes: the store's `clear_range` (20_memory.md R43). -/
def Memory.zeroBytes (m : Memory) (a n : Nat) : Memory :=
  Memory.writeBytes m a (List.replicate n 0)

/-- Put one byte where it does not stand already. -/
def Memory.putByte (m : Memory) (a : Nat) (b : Byte) : Memory :=
  if Memory.read m a = b then m else Memory.write m a b

/-- Put bytes from an address up, as far as the store reaches; bytes already there change nothing. -/
def Memory.putBytes (size : Nat) : Memory → Nat → List Byte → Memory
  | m, _, [] => m
  | m, a, b :: bs =>
    Memory.putBytes size (if a < size then Memory.putByte m a b else m) (a + 1) bs

/-! ### Raising -/

/-- What a rule's pseudocode gives: its result, or the cause it raises (00_scope.md R12). -/
abbrev Raise (α : Type) := Except FatalCause α

/-- The numeric code of a fatal cause (60_exceptions.md R161). -/
def FatalCause.code : FatalCause → Nat
  | .memRange => 1
  | .unknownOpcode => 2
  | .unknownRegister => 3
  | .valueTooWide => 4
  | .subUnderflow => 5
  | .compareWidth => 6

/-- What a fatal error does, the core's whole "trap entry" (60_exceptions.md R163, R164): the tick ends,
the latch becomes `Some(c)`, nothing else changes, and the step answers the fault. There is no return
from it (R165). -/
def raiseFatal (s : State) (c : FatalCause) : Host.Outcome State Fault Refusal :=
  .fault (.fatal c (s.setFatal (some c)))

/-! ### Memory accesses of a tick -/

/-- The byte of `MEM` at an address. -/
def State.memByte (s : State) (a : Nat) : Byte := Memory.read s.mem a

/-- The integer in the `n` bytes of `MEM` from `addr` up. -/
def State.memVal (s : State) (addr n : Nat) : Nat := val (Memory.readBytes s.mem addr n)

/-- The state with `bytes_n(v)` stored from `addr` up. -/
def State.memPut (s : State) (addr n v : Nat) : State :=
  s.setMem (Memory.writeBytes s.mem addr (bytesOf n v))

/-- The state with `n` bytes zero-filled from `addr` up. -/
def State.memClear (s : State) (addr n : Nat) : State := s.setMem (Memory.zeroBytes s.mem addr n)

/-- `MemRead(addr, n)` (20_memory.md R41). -/
def State.memRead (s : State) (addr n : Nat) : Raise Nat :=
  if s.cfg.memSize < addr + n then .error .memRange else .ok (s.memVal addr n)

/-- `MemWrite(addr, n, v)`: range before width (20_memory.md R42). -/
def State.memWrite (s : State) (addr n v : Nat) : Raise State :=
  if s.cfg.memSize < addr + n then .error .memRange
  else if 256 ^ n ≤ v then .error .valueTooWide
  else .ok (s.memPut addr n v)

/-- `MemZero(addr, n)` (20_memory.md R43). -/
def State.memZero (s : State) (addr n : Nat) : Raise State :=
  if s.cfg.memSize < addr + n then .error .memRange else .ok (s.memClear addr n)

/-! ### The register file -/

/-- The `n` bytes of a backing buffer from `off` up. -/
def readWindow (rf : List Byte) : Nat → Nat → List Byte
  | _, 0 => []
  | off, n + 1 => rf.getD off 0 :: readWindow rf (off + 1) n

/-- Replace the bytes of a backing buffer from `off` up. -/
def writeWindow : List Byte → Nat → List Byte → List Byte
  | rf, _, [] => rf
  | rf, off, b :: bs => writeWindow (rf.set off b) (off + 1) bs

/-- The value of register `i`, 0 where there is none. -/
def State.regVal (s : State) (i : Nat) : Nat :=
  match s.cfg.regs[i]? with
  | some d => val (readWindow s.rf d.offset d.size)
  | none => 0

/-- The state with `bytes_size(i)(v)` in the window of register `i`, if there is one. -/
def State.regPut (s : State) (i v : Nat) : State :=
  match s.cfg.regs[i]? with
  | some d => s.setRf (writeWindow s.rf d.offset (bytesOf d.size v))
  | none => s

/-- `x[i]`: register read (10_state.md R16). -/
def State.regRead (s : State) (i : Nat) : Raise Nat :=
  if i < s.cfg.regs.length then .ok (s.regVal i) else .error .unknownRegister

/-- `x[i] <- v`: register write, never wrapped and never truncated; unknown register before width
(10_state.md R17, 60_exceptions.md R166). -/
def State.regWrite (s : State) (i v : Nat) : Raise State :=
  if i < s.cfg.regs.length then
    if v < 256 ^ s.cfg.regSize i then .ok (s.regPut i v) else .error .valueTooWide
  else .error .unknownRegister

/-! ### The role registers (10_state.md R20) -/

/-- The value of the program counter. -/
def State.pc (s : State) : Nat := s.regVal s.cfg.pcId

/-- The value of the stack pointer. -/
def State.sp (s : State) : Nat := s.regVal s.cfg.spId

/-- The value of the "memory address" register. -/
def State.mar (s : State) : Nat := s.regVal s.cfg.marId

/-- The value of the flags register, all its bits. -/
def State.flags (s : State) : Nat := s.regVal s.cfg.flagsId

/-- The value of `reg_a`. -/
def State.regA (s : State) : Nat := s.regVal s.cfg.regAId

/-- The value of `reg_b`. -/
def State.regB (s : State) : Nat := s.regVal s.cfg.regBId

/-! ### The condition of the engine -/

/-- The four conditions of the engine (44_sequencer.md R110). -/
inductive Condition where
  | fatal
  | halted
  | idle
  | executing (op : Byte)
deriving DecidableEq, Repr

/-- The condition a state's cursor decides; Halted takes precedence over the opcode latch
(44_sequencer.md R110). -/
def State.condition (s : State) : Condition :=
  match s.fatal with
  | some _ => .fatal
  | none =>
    if s.halted then .halted
    else
      match s.currentOpcode with
      | none => .idle
      | some op => .executing op

end Sys2Proof.Machine
end

