-- ==== Sys2Proof/Machine/Flags.lean ====
section
/-! DEFINITION. The flags: their masks, the value Compare computes, and the mask condition of the
conditional jumps (10_state.md R25, 41_microops_alu.md R98, 43_microops_control.md R106). -/

namespace Sys2Proof.Machine

/-- ZERO, bit 0 (00_scope.md R10, 10_state.md R25). -/
def maskZero : Byte := 0x01

/-- GREATER, bit 1 (00_scope.md R10, 10_state.md R25). -/
def maskGreater : Byte := 0x02

/-- The flags value Compare writes: equal, greater or less, bits 7 to 2 zero (41_microops_alu.md R98). -/
def compareFlags (a b : Nat) : Byte :=
  if a = b then maskZero else if b < a then maskGreater else 0x00

/-- The jump condition: every bit of `trueMask` is 1 in `f` and every bit of `falseMask` is 0
(43_microops_control.md R106). `f` is the whole flags register, whatever its width. -/
def flagCond (f : Nat) (trueMask falseMask : Byte) : Bool :=
  decide (f &&& trueMask.toNat = trueMask.toNat) && decide (f &&& falseMask.toNat = 0)

/-- Is an operand register of Compare wider than one byte (41_microops_alu.md R99)? -/
def State.compareIsWide (s : State) : Bool :=
  decide (1 < s.cfg.regSize s.cfg.regAId) || decide (1 < s.cfg.regSize s.cfg.regBId)

end Sys2Proof.Machine
end

