-- ==== Sys2Proof/Machine/MicroAlu.lean ====
section
/-! DEFINITION. The three ALU micro-operations (41_microops_alu.md R96 to R99). -/

namespace Sys2Proof.Machine

/-- Add: the exact sum, which never wraps and never faults when computed (41_microops_alu.md R92, R96). -/
def microAdd (s : State) : Raise State := do
  let a ← s.regRead s.cfg.regAId
  let b ← s.regRead s.cfg.regBId
  .ok (s.setAcc (a + b))

/-- Sub: the exact difference, fatal on underflow (41_microops_alu.md R93, R97). -/
def microSub (s : State) : Raise State := do
  let a ← s.regRead s.cfg.regAId
  let b ← s.regRead s.cfg.regBId
  if a < b then .error .subUnderflow else .ok (s.setAcc (a - b))

/-- Compare: the whole flags register becomes 0x01, 0x02 or 0x00 (41_microops_alu.md R98); on wide
operands it refuses or compares the low bytes, as `COMPARE_WIDE` says (R99). The three registers are
resolved before the width is looked at (log 6). -/
def microCompare (s : State) : Raise State := do
  let a ← s.regRead s.cfg.regAId
  let b ← s.regRead s.cfg.regBId
  let _ ← s.regRead s.cfg.flagsId
  if s.compareIsWide then
    match s.cfg.compareWide with
    | .refuse => .error .compareWidth
    | .lowByte => s.regWrite s.cfg.flagsId (compareFlags (a % 256) (b % 256)).toNat
  else s.regWrite s.cfg.flagsId (compareFlags a b).toNat

end Sys2Proof.Machine
end

