-- ==== Sys2Proof/Machine/MicroControl.lean ====
section
/-! DEFINITION. The four control micro-operations: the only ones that write the engine cursor
(43_microops_control.md R104 to R108). -/

namespace Sys2Proof.Machine

/-- Halt: suspends the instruction; `current_opcode` stays set (43_microops_control.md R104). -/
def microHalt (s : State) : Raise State := .ok (s.setHalted true)

/-- Jump: the program counter becomes exactly the accumulator and the engine Idle, so that no retire tick
follows (43_microops_control.md R105, 44_sequencer.md R116). -/
def microJump (s : State) : Raise State := do
  let t ← s.regWrite s.cfg.pcId s.acc
  .ok (t.setCurrentOpcode none)

/-- JumpIfFlag: Jump when the mask condition holds; else no state changes and the accumulator is not
examined (43_microops_control.md R107). -/
def microJumpIfFlag (trueMask falseMask : Byte) (s : State) : Raise State := do
  let f ← s.regRead s.cfg.flagsId
  if flagCond f trueMask falseMask then microJump s else .ok s

/-- JumpIfNotFlag: Jump when the mask condition does not hold (43_microops_control.md R108). -/
def microJumpIfNotFlag (trueMask falseMask : Byte) (s : State) : Raise State := do
  let f ← s.regRead s.cfg.flagsId
  if flagCond f trueMask falseMask then .ok s else microJump s

end Sys2Proof.Machine
end

