-- ==== Sys2Proof/Machine/Operands.lean ====
section
/-! DEFINITION. The operand forms: a byte of program memory at an offset from the live program counter,
read as an immediate or as a register id (30_encoding.md R61, 40_microops_move.md R76, R77). -/

namespace Sys2Proof.Machine

/-- The operand byte at `pc + offset`, an unbounded sum, with `pc` the value of the program counter when
the micro-operation runs (40_microops_move.md R76). -/
def State.operandByte (s : State) (offset : Byte) : Raise Nat := do
  let pc ← s.regRead s.cfg.pcId
  s.memRead (pc + offset.toNat) 1

/-- The register named by the operand byte at `pc + offset`, read (40_microops_move.md R84). -/
def State.operandRegRead (s : State) (offset : Byte) : Raise Nat := do
  let id ← s.operandByte offset
  s.regRead id

/-- The register named by the operand byte at `pc + offset`, written (40_microops_move.md R88). -/
def State.operandRegWrite (s : State) (offset : Byte) (v : Nat) : Raise State := do
  let id ← s.operandByte offset
  s.regWrite id v

end Sys2Proof.Machine
end

