-- ==== Sys2Proof/Machine/MicroMove.lean ====
section
/-! DEFINITION. The eleven micro-operations that move data (40_microops_move.md R80 to R90): the
pseudocode of each, as a function from the state to the next state or the cause raised. The
execute tick around them stands in Machine/Microcode.lean. -/

namespace Sys2Proof.Machine

/-- NoOperation: no state change (40_microops_move.md R80). -/
def microNoOperation (s : State) : Raise State := .ok s

/-- LoadImmediate(offset): one byte, zero-extended, whatever `W` is (40_microops_move.md R81). -/
def microLoadImmediate (offset : Byte) (s : State) : Raise State := do
  let v ← s.operandByte offset
  .ok (s.setAcc v)

/-- LoadImmediateInternal(value): a literal, no memory access (40_microops_move.md R82). -/
def microLoadImmediateInternal (value : Byte) (s : State) : Raise State :=
  .ok (s.setAcc value.toNat)

/-- LoadFromMemory: `W` bytes at the address in `mar` (40_microops_move.md R83). -/
def microLoadFromMemory (s : State) : Raise State := do
  let a ← s.regRead s.cfg.marId
  let v ← s.memRead a s.cfg.dataSize
  .ok (s.setAcc v)

/-- LoadFromRegister(offset): the register an operand byte names (40_microops_move.md R84). -/
def microLoadFromRegister (offset : Byte) (s : State) : Raise State := do
  let v ← s.operandRegRead offset
  .ok (s.setAcc v)

/-- LoadFromRegisterInternal(id): a literal register id (40_microops_move.md R85). -/
def microLoadFromRegisterInternal (id : Byte) (s : State) : Raise State := do
  let v ← s.regRead id.toNat
  .ok (s.setAcc v)

/-- SetMemoryAddress: the accumulator into `mar`, no range check (40_microops_move.md R86). -/
def microSetMemoryAddress (s : State) : Raise State := s.regWrite s.cfg.marId s.acc

/-- StoreToMemory: `W` bytes at the address in `mar` (40_microops_move.md R87). -/
def microStoreToMemory (s : State) : Raise State := do
  let a ← s.regRead s.cfg.marId
  s.memWrite a s.cfg.dataSize s.acc

/-- StoreToRegister(offset): into the register an operand byte names (40_microops_move.md R88). -/
def microStoreToRegister (offset : Byte) (s : State) : Raise State :=
  s.operandRegWrite offset s.acc

/-- StoreToRegisterInternal(id): into a literal register (40_microops_move.md R89). -/
def microStoreToRegisterInternal (id : Byte) (s : State) : Raise State :=
  s.regWrite id.toNat s.acc

/-- StepProgramMemory(n): `pc + n`, which does not wrap (40_microops_move.md R90). -/
def microStepProgramMemory (n : Byte) (s : State) : Raise State := do
  let pc ← s.regRead s.cfg.pcId
  s.regWrite s.cfg.pcId (pc + n.toNat)

end Sys2Proof.Machine
end

