-- ==== Sys2Proof/Machine/MicroStack.lean ====
section
/-! DEFINITION. The two stack micro-operations: a full-descending stack of `W`-byte slots in `MEM`
(42_microops_stack.md R100 to R102). -/

namespace Sys2Proof.Machine

/-- PushToStack: the slot below `sp` gets the accumulator; `sp` below `W` is an underflow, a slot outside
memory a range error, an accumulator wider than the slot a width error, in that order
(42_microops_stack.md R101). -/
def microPushToStack (s : State) : Raise State := do
  let sp ← s.regRead s.cfg.spId
  if sp < s.cfg.dataSize then .error .subUnderflow
  else do
    let t ← s.memWrite (sp - s.cfg.dataSize) s.cfg.dataSize s.acc
    t.regWrite s.cfg.spId (sp - s.cfg.dataSize)

/-- PopFromStack: the slot at `sp` into the accumulator, the slot zero-filled, `sp` past it. A `sp` that
does not fit raises, and a raise keeps none of the three writes (42_microops_stack.md R102). -/
def microPopFromStack (s : State) : Raise State := do
  let sp ← s.regRead s.cfg.spId
  let v ← s.memRead sp s.cfg.dataSize
  let t ← (s.setAcc v).memZero sp s.cfg.dataSize
  t.regWrite s.cfg.spId (sp + s.cfg.dataSize)

end Sys2Proof.Machine
end

