-- ==== Sys2Proof/Machine/Microcode.lean ====
section
/-! DEFINITION. The execute tick around each micro-operation (44_sequencer.md R113), the retire tick
(R114), and an instruction as the run of its micro-operation list (R115, R121). -/

namespace Sys2Proof.Machine

/-- The execute tick: run the micro-operation, then add 1 to `current_step`, taken jumps and Halt
included; a micro-operation that raises changes nothing but the latch (44_sequencer.md R113,
60_exceptions.md R164). -/
def executeTick (u : State → Raise State) (s : State) : Host.Outcome State Fault Refusal :=
  match u s with
  | .ok t => .next (t.setCurrentStep (t.currentStep + 1))
  | .error c => raiseFatal s c

/-- The execute tick of NoOperation (R80). -/
def execUNoOperation (s : State) : Host.Outcome State Fault Refusal :=
  executeTick microNoOperation s

/-- The execute tick of Halt (R104). -/
def execUHalt (s : State) : Host.Outcome State Fault Refusal :=
  executeTick microHalt s

/-- The execute tick of LoadImmediate (R81). -/
def execULoadImmediate (offset : Byte) (s : State) : Host.Outcome State Fault Refusal :=
  executeTick (microLoadImmediate offset) s

/-- The execute tick of LoadImmediateInternal (R82). -/
def execULoadImmediateInternal (value : Byte) (s : State) : Host.Outcome State Fault Refusal :=
  executeTick (microLoadImmediateInternal value) s

/-- The execute tick of LoadFromMemory (R83). -/
def execULoadFromMemory (s : State) : Host.Outcome State Fault Refusal :=
  executeTick microLoadFromMemory s

/-- The execute tick of LoadFromRegister (R84). -/
def execULoadFromRegister (offset : Byte) (s : State) : Host.Outcome State Fault Refusal :=
  executeTick (microLoadFromRegister offset) s

/-- The execute tick of LoadFromRegisterInternal (R85). -/
def execULoadFromRegisterInternal (id : Byte) (s : State) : Host.Outcome State Fault Refusal :=
  executeTick (microLoadFromRegisterInternal id) s

/-- The execute tick of SetMemoryAddress (R86). -/
def execUSetMemoryAddress (s : State) : Host.Outcome State Fault Refusal :=
  executeTick microSetMemoryAddress s

/-- The execute tick of StoreToMemory (R87). -/
def execUStoreToMemory (s : State) : Host.Outcome State Fault Refusal :=
  executeTick microStoreToMemory s

/-- The execute tick of StoreToRegister (R88). -/
def execUStoreToRegister (offset : Byte) (s : State) : Host.Outcome State Fault Refusal :=
  executeTick (microStoreToRegister offset) s

/-- The execute tick of StoreToRegisterInternal (R89). -/
def execUStoreToRegisterInternal (id : Byte) (s : State) : Host.Outcome State Fault Refusal :=
  executeTick (microStoreToRegisterInternal id) s

/-- The execute tick of StepProgramMemory (R90). -/
def execUStepProgramMemory (n : Byte) (s : State) : Host.Outcome State Fault Refusal :=
  executeTick (microStepProgramMemory n) s

/-- The execute tick of Add (R96). -/
def execUAdd (s : State) : Host.Outcome State Fault Refusal :=
  executeTick microAdd s

/-- The execute tick of Sub (R97). -/
def execUSub (s : State) : Host.Outcome State Fault Refusal :=
  executeTick microSub s

/-- The execute tick of PushToStack (R101). -/
def execUPushToStack (s : State) : Host.Outcome State Fault Refusal :=
  executeTick microPushToStack s

/-- The execute tick of PopFromStack (R102). -/
def execUPopFromStack (s : State) : Host.Outcome State Fault Refusal :=
  executeTick microPopFromStack s

/-- The execute tick of Jump (R105). -/
def execUJump (s : State) : Host.Outcome State Fault Refusal :=
  executeTick microJump s

/-- The execute tick of Compare (R98). -/
def execUCompare (s : State) : Host.Outcome State Fault Refusal :=
  executeTick microCompare s

/-- The execute tick of JumpIfFlag (R107). -/
def execUJumpIfFlag (trueMask falseMask : Byte) (s : State) : Host.Outcome State Fault Refusal :=
  executeTick (microJumpIfFlag trueMask falseMask) s

/-- The execute tick of JumpIfNotFlag (R108). -/
def execUJumpIfNotFlag (trueMask falseMask : Byte) (s : State) : Host.Outcome State Fault Refusal :=
  executeTick (microJumpIfNotFlag trueMask falseMask) s

/-- The execute tick of a micro-operation of the catalog (30_encoding.md R64, 44_sequencer.md R113). -/
def runMicroOp : MicroOp → State → Host.Outcome State Fault Refusal
  | .noOperation, s => execUNoOperation s
  | .halt, s => execUHalt s
  | .loadImmediate offset, s => execULoadImmediate offset s
  | .loadImmediateInternal value, s => execULoadImmediateInternal value s
  | .loadFromMemory, s => execULoadFromMemory s
  | .loadFromRegister offset, s => execULoadFromRegister offset s
  | .loadFromRegisterInternal id, s => execULoadFromRegisterInternal id s
  | .setMemoryAddress, s => execUSetMemoryAddress s
  | .storeToMemory, s => execUStoreToMemory s
  | .storeToRegister offset, s => execUStoreToRegister offset s
  | .storeToRegisterInternal id, s => execUStoreToRegisterInternal id s
  | .stepProgramMemory n, s => execUStepProgramMemory n s
  | .add, s => execUAdd s
  | .sub, s => execUSub s
  | .pushToStack, s => execUPushToStack s
  | .popFromStack, s => execUPopFromStack s
  | .jump, s => execUJump s
  | .compare, s => execUCompare s
  | .jumpIfFlag trueMask falseMask, s => execUJumpIfFlag trueMask falseMask s
  | .jumpIfNotFlag trueMask falseMask, s => execUJumpIfNotFlag trueMask falseMask s

/-- What the retire tick does: `pc + 1`, which does not wrap, and Idle (44_sequencer.md R114). -/
def retire (s : State) : Raise State := do
  let pc ← s.regRead s.cfg.pcId
  let t ← s.regWrite s.cfg.pcId (pc + 1)
  .ok (t.setCurrentOpcode none)

/-- The retire tick (44_sequencer.md R114). -/
def retireTick (s : State) : Host.Outcome State Fault Refusal :=
  match retire s with
  | .ok t => .next t
  | .error c => raiseFatal s c

/-- Does the run of an instruction end here: Halted, or Idle after a taken jump (44_sequencer.md R116,
R118, R121)? -/
def State.runEnds (s : State) : Bool := s.halted || s.currentOpcode.isNone

/-- Run the rest of an instruction: its micro-operations in order, then the retire tick, until the engine
is Idle, Halted or Fatal (44_sequencer.md R121). -/
def runMicroOps : List MicroOp → State → Host.Outcome State Fault Refusal
  | [], s => retireTick s
  | u :: us, s =>
    match runMicroOp u s with
    | .next t => if t.runEnds then .next t else runMicroOps us t
    | .fault f => .fault f
    | .refused r => .refused r

/-- The state after the fetch tick of an instruction whose bytes stand at the program counter: they are
put there if they do not stand there already (log 3), the opcode is latched and the step reset
(44_sequencer.md R112). -/
def latchInstruction (bytes : List Byte) (op : Byte) (s : State) : Raise State := do
  let pc ← s.regRead s.cfg.pcId
  if s.cfg.memSize < pc + 1 then .error .memRange
  else
    let t := s.setMem (Memory.putBytes s.cfg.memSize s.mem pc bytes)
    .ok ((t.setCurrentOpcode (some op)).setCurrentStep 0)

/-- An instruction of RCS-REF-1 from the Idle state before its fetch tick to the next Idle, Halted or
Fatal condition (45_refisa_data.md R125): its bytes at the program counter, its micro-operations. -/
def runInstruction (us : List MicroOp) (op : Byte) (operands : List Byte) (s : State) :
    Host.Outcome State Fault Refusal :=
  match latchInstruction (op :: operands) op s with
  | .ok t => runMicroOps us t
  | .error c => raiseFatal s c

end Sys2Proof.Machine
end

