-- ==== Sys2Proof/Machine/InstrAlu.lean ====
section
/-! DEFINITION. The meanings of the instructions of RCS-REF-1, ALU (45_refisa_data.md section 4): each the run of its
micro-operation list from its fetch to the next Idle, Halted or Fatal condition. -/

namespace Sys2Proof.Machine

/-- `ADD`: `acc <- reg_a + reg_b`, exact (R137). -/
def execAdd (s : State) : Host.Outcome State Fault Refusal :=
  runInstruction microOpsAdd 0x30 [] s

/-- `SUB`: `acc <- reg_a - reg_b`, fatal on underflow (R138). -/
def execSub (s : State) : Host.Outcome State Fault Refusal :=
  runInstruction microOpsSub 0x31 [] s

/-- `CMP`: `flags` from `reg_a` and `reg_b` (R139). -/
def execCmp (s : State) : Host.Outcome State Fault Refusal :=
  runInstruction microOpsCmp 0x32 [] s

end Sys2Proof.Machine
end

