-- ==== Sys2Proof/Machine/InstrCall.lean ====
section
/-! DEFINITION. The meanings of the instructions of RCS-REF-1, call-style jumps and return (46_refisa_control.md section 3): each the run of its
micro-operation list from its fetch to the next Idle, Halted or Fatal condition. -/

namespace Sys2Proof.Machine

/-- `JGE`: Compare, context save, then jump iff `reg_a <= reg_b` (the source's mask pair, kept) (R157). -/
def execJge (addr : Byte) (s : State) : Host.Outcome State Fault Refusal :=
  runInstruction microOpsJge 0x57 [addr] s

/-- `CALL`: context save, then `pc <- addr` (R156). -/
def execCall (addr : Byte) (s : State) : Host.Outcome State Fault Refusal :=
  runInstruction microOpsCall 0x60 [addr] s

/-- `RET`: pop the return address and the saved base pointer, then jump exactly (R158). -/
def execRet (s : State) : Host.Outcome State Fault Refusal :=
  runInstruction microOpsRet 0x61 [] s

end Sys2Proof.Machine
end

