-- ==== Sys2Proof/Machine/InstrControl.lean ====
section
/-! DEFINITION. The meanings of the instructions of RCS-REF-1, machine control (45_refisa_data.md section 1): each the run of its
micro-operation list from its fetch to the next Idle, Halted or Fatal condition. -/

namespace Sys2Proof.Machine

/-- `NOP`: nothing but the program counter past it (R126). -/
def execNop (s : State) : Host.Outcome State Fault Refusal :=
  runInstruction microOpsNop 0x00 [] s

/-- `HLT`: sets `halted` and stays at its own address until the host's `unhalt()` (R127). -/
def execHlt (s : State) : Host.Outcome State Fault Refusal :=
  runInstruction microOpsHlt 0x01 [] s

end Sys2Proof.Machine
end

