-- ==== Sys2Proof/Machine/InstrJump.lean ====
section
/-! DEFINITION. The meanings of the instructions of RCS-REF-1, unconditional and plain conditional jumps (46_refisa_control.md sections 1 and 2): each the run of its
micro-operation list from its fetch to the next Idle, Halted or Fatal condition. -/

namespace Sys2Proof.Machine

/-- `JMP`: `acc <- addr`, `pc <- addr` (R146). -/
def execJmp (addr : Byte) (s : State) : Host.Outcome State Fault Refusal :=
  runInstruction microOpsJmp 0x50 [addr] s

/-- `JPA`: `pc <- acc` (R147). -/
def execJpa (s : State) : Host.Outcome State Fault Refusal :=
  runInstruction microOpsJpa 0x51 [] s

/-- `JEQ`: Compare, then jump iff equal (R149). -/
def execJeq (addr : Byte) (s : State) : Host.Outcome State Fault Refusal :=
  runInstruction microOpsJeq 0x52 [addr] s

/-- `JNE`: Compare, then jump iff not equal (R150). -/
def execJne (addr : Byte) (s : State) : Host.Outcome State Fault Refusal :=
  runInstruction microOpsJne 0x53 [addr] s

/-- `JGT`: Compare, then jump iff greater (R151). -/
def execJgt (addr : Byte) (s : State) : Host.Outcome State Fault Refusal :=
  runInstruction microOpsJgt 0x54 [addr] s

/-- `JLT`: Compare, then jump iff less (R152). -/
def execJlt (addr : Byte) (s : State) : Host.Outcome State Fault Refusal :=
  runInstruction microOpsJlt 0x55 [addr] s

/-- `JLE`: Compare, then jump iff less or equal (R153). -/
def execJle (addr : Byte) (s : State) : Host.Outcome State Fault Refusal :=
  runInstruction microOpsJle 0x56 [addr] s

/-- `JNL`: Compare, then jump iff not less (R154). -/
def execJnl (addr : Byte) (s : State) : Host.Outcome State Fault Refusal :=
  runInstruction microOpsJnl 0x58 [addr] s

end Sys2Proof.Machine
end

