-- ==== Sys2Proof/Machine/InstrMemory.lean ====
section
/-! DEFINITION. The meanings of the instructions of RCS-REF-1, memory loads and stores (45_refisa_data.md section 3): each the run of its
micro-operation list from its fetch to the next Idle, Halted or Fatal condition. -/

namespace Sys2Proof.Machine

/-- `LDM`: `mar <- addr`, `acc` and `x[rd]` from memory there (R133). -/
def execLdm (rd addr : Byte) (s : State) : Host.Outcome State Fault Refusal :=
  runInstruction microOpsLdm 0x20 [rd, addr] s

/-- `STM`: `mar <- addr`, `acc <- x[rs]`, stored there (R134). -/
def execStm (addr rs : Byte) (s : State) : Host.Outcome State Fault Refusal :=
  runInstruction microOpsStm 0x21 [addr, rs] s

/-- `LDX`: `mar <- x[ra]`, `acc` and `x[rd]` from memory there (R135). -/
def execLdx (rd ra : Byte) (s : State) : Host.Outcome State Fault Refusal :=
  runInstruction microOpsLdx 0x22 [rd, ra] s

/-- `STX`: `mar <- x[ra]`, `acc <- x[rs]`, stored there (R136). -/
def execStx (ra rs : Byte) (s : State) : Host.Outcome State Fault Refusal :=
  runInstruction microOpsStx 0x23 [ra, rs] s

end Sys2Proof.Machine
end

