-- ==== Sys2Proof/Machine/InstrMove.lean ====
section
/-! DEFINITION. The meanings of the instructions of RCS-REF-1, accumulator and register moves (45_refisa_data.md section 2): each the run of its
micro-operation list from its fetch to the next Idle, Halted or Fatal condition. -/

namespace Sys2Proof.Machine

/-- `LDI`: `acc <- imm` (R128). -/
def execLdi (imm : Byte) (s : State) : Host.Outcome State Fault Refusal :=
  runInstruction microOpsLdi 0x10 [imm] s

/-- `LDR`: `acc <- x[rs]` (R129). -/
def execLdr (rs : Byte) (s : State) : Host.Outcome State Fault Refusal :=
  runInstruction microOpsLdr 0x11 [rs] s

/-- `STR`: `x[rd] <- acc` (R130). -/
def execStr (rd : Byte) (s : State) : Host.Outcome State Fault Refusal :=
  runInstruction microOpsStr 0x12 [rd] s

/-- `MVI`: `acc <- imm`, `x[rd] <- imm` (R131). -/
def execMvi (rd imm : Byte) (s : State) : Host.Outcome State Fault Refusal :=
  runInstruction microOpsMvi 0x13 [rd, imm] s

/-- `MOV`: `acc <- x[rs]`, `x[rd] <- x[rs]` (R132). -/
def execMov (rd rs : Byte) (s : State) : Host.Outcome State Fault Refusal :=
  runInstruction microOpsMov 0x14 [rd, rs] s

end Sys2Proof.Machine
end

