-- ==== Sys2Proof/Machine/InstrStack.lean ====
section
/-! DEFINITION. The meanings of the instructions of RCS-REF-1, stack (45_refisa_data.md section 5): each the run of its
micro-operation list from its fetch to the next Idle, Halted or Fatal condition. -/

namespace Sys2Proof.Machine

/-- `PUSH`: the accumulator onto the stack (R140). -/
def execPush (s : State) : Host.Outcome State Fault Refusal :=
  runInstruction microOpsPush 0x40 [] s

/-- `PSHI`: `acc <- imm`, pushed (R141). -/
def execPshi (imm : Byte) (s : State) : Host.Outcome State Fault Refusal :=
  runInstruction microOpsPshi 0x41 [imm] s

/-- `PSHR`: `acc <- x[rs]`, pushed (R142). -/
def execPshr (rs : Byte) (s : State) : Host.Outcome State Fault Refusal :=
  runInstruction microOpsPshr 0x42 [rs] s

/-- `POP`: the stack's top slot into `acc`, the slot zeroed (R143). -/
def execPop (s : State) : Host.Outcome State Fault Refusal :=
  runInstruction microOpsPop 0x43 [] s

/-- `POPR`: pop, then `x[rd] <- acc` (R144). -/
def execPopr (rd : Byte) (s : State) : Host.Outcome State Fault Refusal :=
  runInstruction microOpsPopr 0x44 [rd] s

end Sys2Proof.Machine
end

