-- ==== Sys2Proof/Machine/Dispatch.lean ====
section
/-! DEFINITION. The dispatch: one arm per constructor of Instr. -/

namespace Sys2Proof.Machine

def exec (i : Instr) (s : State) : Host.Outcome State Fault Refusal :=
  match i with
  | .nop => Sys2Proof.Machine.execNop s
  | .hlt => Sys2Proof.Machine.execHlt s
  | .ldi imm => Sys2Proof.Machine.execLdi imm s
  | .ldr rs => Sys2Proof.Machine.execLdr rs s
  | .str rd => Sys2Proof.Machine.execStr rd s
  | .mvi rd imm => Sys2Proof.Machine.execMvi rd imm s
  | .mov rd rs => Sys2Proof.Machine.execMov rd rs s
  | .ldm rd addr => Sys2Proof.Machine.execLdm rd addr s
  | .stm addr rs => Sys2Proof.Machine.execStm addr rs s
  | .ldx rd ra => Sys2Proof.Machine.execLdx rd ra s
  | .stx ra rs => Sys2Proof.Machine.execStx ra rs s
  | .add => Sys2Proof.Machine.execAdd s
  | .sub => Sys2Proof.Machine.execSub s
  | .cmp => Sys2Proof.Machine.execCmp s
  | .push => Sys2Proof.Machine.execPush s
  | .pshi imm => Sys2Proof.Machine.execPshi imm s
  | .pshr rs => Sys2Proof.Machine.execPshr rs s
  | .pop => Sys2Proof.Machine.execPop s
  | .popr rd => Sys2Proof.Machine.execPopr rd s
  | .jmp addr => Sys2Proof.Machine.execJmp addr s
  | .jpa => Sys2Proof.Machine.execJpa s
  | .jeq addr => Sys2Proof.Machine.execJeq addr s
  | .jne addr => Sys2Proof.Machine.execJne addr s
  | .jgt addr => Sys2Proof.Machine.execJgt addr s
  | .jlt addr => Sys2Proof.Machine.execJlt addr s
  | .jle addr => Sys2Proof.Machine.execJle addr s
  | .jge addr => Sys2Proof.Machine.execJge addr s
  | .jnl addr => Sys2Proof.Machine.execJnl addr s
  | .call addr => Sys2Proof.Machine.execCall addr s
  | .ret => Sys2Proof.Machine.execRet s
  | .uNoOperation => Sys2Proof.Machine.execUNoOperation s
  | .uHalt => Sys2Proof.Machine.execUHalt s
  | .uLoadImmediate offset => Sys2Proof.Machine.execULoadImmediate offset s
  | .uLoadImmediateInternal value => Sys2Proof.Machine.execULoadImmediateInternal value s
  | .uLoadFromMemory => Sys2Proof.Machine.execULoadFromMemory s
  | .uLoadFromRegister offset => Sys2Proof.Machine.execULoadFromRegister offset s
  | .uLoadFromRegisterInternal id => Sys2Proof.Machine.execULoadFromRegisterInternal id s
  | .uSetMemoryAddress => Sys2Proof.Machine.execUSetMemoryAddress s
  | .uStoreToMemory => Sys2Proof.Machine.execUStoreToMemory s
  | .uStoreToRegister offset => Sys2Proof.Machine.execUStoreToRegister offset s
  | .uStoreToRegisterInternal id => Sys2Proof.Machine.execUStoreToRegisterInternal id s
  | .uStepProgramMemory n => Sys2Proof.Machine.execUStepProgramMemory n s
  | .uAdd => Sys2Proof.Machine.execUAdd s
  | .uSub => Sys2Proof.Machine.execUSub s
  | .uPushToStack => Sys2Proof.Machine.execUPushToStack s
  | .uPopFromStack => Sys2Proof.Machine.execUPopFromStack s
  | .uJump => Sys2Proof.Machine.execUJump s
  | .uCompare => Sys2Proof.Machine.execUCompare s
  | .uJumpIfFlag trueMask falseMask => Sys2Proof.Machine.execUJumpIfFlag trueMask falseMask s
  | .uJumpIfNotFlag trueMask falseMask => Sys2Proof.Machine.execUJumpIfNotFlag trueMask falseMask s

end Sys2Proof.Machine
end

