-- ==== Sys2Proof/Machine/Sequencer.lean ====
section
/-! DEFINITION. The clock tick (44_sequencer.md R110 to R114), its iteration, the instruction-level run
from the fetch tick (R121), and reading the instruction at the program counter. -/

namespace Sys2Proof.Machine

/-- What the fetch tick does: latch the byte at the program counter, which does not move, if it has a
table entry (44_sequencer.md R112). -/
def fetch (s : State) : Raise State := do
  let pc ← s.regRead s.cfg.pcId
  let op ← s.memRead pc 1
  match lookupEntry s.cfg.itable (BitVec.ofNat 8 op) with
  | none => .error .unknownOpcode
  | some _ => .ok ((s.setCurrentOpcode (some (BitVec.ofNat 8 op))).setCurrentStep 0)

/-- The fetch tick (44_sequencer.md R112). -/
def fetchTick (s : State) : Host.Outcome State Fault Refusal :=
  match fetch s with
  | .ok t => .next t
  | .error c => raiseFatal s c

/-- The tick of an engine that executes opcode `op`: the micro-operation at `current_step`, or the retire
tick when there is none left (44_sequencer.md R111, R113, R114). The decoder looks the opcode up
afresh (R119); an opcode without an entry, which R119 says is never latched, raises what the fetch
tick raises for it (log 7). -/
def executingTick (op : Byte) (s : State) : Host.Outcome State Fault Refusal :=
  match lookupEntry s.cfg.itable op with
  | none => raiseFatal s .unknownOpcode
  | some e =>
    match e.microOps[s.currentStep]? with
    | some u => runMicroOp u s
    | none => retireTick s

/-- `clock()`: one tick (44_sequencer.md R111). -/
def clock (s : State) : Host.Outcome State Fault Refusal :=
  match s.condition with
  | .fatal => .next s
  | .halted => .next s
  | .idle => fetchTick s
  | .executing op => executingTick op s

/-- `n` ticks, ending at the first fatal error (44_sequencer.md R121). -/
def ticks : Nat → State → Host.Outcome State Fault Refusal
  | 0, s => .next s
  | n + 1, s =>
    match clock s with
    | .next t => ticks n t
    | .fault f => .fault f
    | .refused r => .refused r

/-- The micro-operations of the latched opcode, none where nothing is latched. -/
def State.currentMicroOps (s : State) : List MicroOp :=
  match s.currentOpcode with
  | none => []
  | some op =>
    match lookupEntry s.cfg.itable op with
    | none => []
    | some e => e.microOps

/-- An instruction of any table, from its fetch tick to the next Idle, Halted or Fatal condition
(44_sequencer.md R121). -/
def runFetched (s : State) : Host.Outcome State Fault Refusal :=
  match fetch s with
  | .ok t => runMicroOps t.currentMicroOps t
  | .error c => raiseFatal s c

/-- The bytes of `MEM` from the program counter up, as many as the longest instruction of RCS-REF-1 has
and memory holds (30_encoding.md R70). -/
def State.bytesAtPc (s : State) : List Byte :=
  Memory.readBytes s.mem s.pc (min 3 (s.cfg.memSize - s.pc))

/-- Does the installed table give the opcode the micro-operations RCS-REF-1 gives it? -/
def State.usesReference (s : State) (op : Byte) : Bool :=
  decide ((lookupEntry s.cfg.itable op).map Entry.microOps =
    (lookupEntry rcsRef1 op).map Entry.microOps)

/-- The instruction of RCS-REF-1 that stands whole at the program counter, if the installed table reads
it as RCS-REF-1 does. -/
def decodeAt (s : State) : Option Instr :=
  match s.bytesAtPc with
  | [] => none
  | op :: rest =>
    if s.cfg.pcId < s.cfg.regs.length ∧ s.usesReference op then
      match decode (op :: rest) with
      | .ok (i, _) => some i
      | .error _ => none
    else none

/-! ### Placing a table row where the next step runs it -/

/-- An opcode RCS-REF-1 leaves free, for a one-micro-operation entry. -/
def microOpcode : Byte := 0xFF

/-- The state in which the next tick executes `u`: the host has installed a table whose entry for
`microOpcode` is `[u]` (70_reset_and_hazards.md R188) and the fetch tick has latched that opcode. -/
def State.stageMicroOp (s : State) (u : MicroOp) : State :=
  { s with
    cfg := { s.cfg with itable := (microOpcode, ⟨[u], 0⟩) :: s.cfg.itable }
    currentOpcode := some microOpcode
    currentStep := 0
    halted := false
    fatal := none }

/-- The state in which the next tick fetches the first of `bytes`: the host has written them at the
program counter (70_reset_and_hazards.md R187), the engine is Idle, and the table reads their opcode
as RCS-REF-1 does. -/
def State.stageBytes (s : State) (bytes : List Byte) : State :=
  { s with
    cfg := { s.cfg with
      itable := if s.usesReference (bytes.headD 0) then s.cfg.itable else rcsRef1 }
    mem := Memory.putBytes s.cfg.memSize s.mem s.pc bytes
    currentOpcode := none
    halted := false
    fatal := none }

/-- Place a table row's word: a micro-operation at the cursor, anything else at the program counter,
with zero operand bytes up to the longest instruction. -/
def State.stageWord (s : State) (nbits w : Nat) : State :=
  match (decodeTableWord nbits w).bind Instr.toMicroOp with
  | some u => s.stageMicroOp u
  | none => s.stageBytes ((tableBytes (nbits / 8) w ++ [0, 0, 0]).take 3)

end Sys2Proof.Machine
end

