-- ==== Sys2Proof/Machine/Step.lean ====
section
/-! DEFINITION. One step of the core. From Idle, where a whole instruction begins, a step is the
instruction-level step of 44_sequencer.md R121; with an instruction in progress it is one tick; Halted
and Fatal it changes nothing (log 4). The tick itself is `clock` of Machine/Sequencer.lean. -/

namespace Sys2Proof.Machine

/-- One step: the instruction at the program counter, the tick of the instruction in progress, or
nothing (44_sequencer.md R111, R121). -/
def step (s : State) : Host.Outcome State Fault Refusal :=
  match s.condition with
  | .fatal => .next s
  | .halted => .next s
  | .idle =>
    match decodeAt s with
    | some i => exec i s
    | none => runFetched s
  | .executing op => executingTick op s

/-- The state in which the next step runs the instruction of a table row's word (log 8). -/
def State.withFetchWord (s : State) (nbits w : Nat) : State := s.stageWord nbits w

end Sys2Proof.Machine
end

