-- ==== Sys2Proof/Machine/HostInterface.lean ====
section
/-! DEFINITION. What the host may do between two ticks (70_reset_and_hazards.md R183 to R190): each
operation a function on the state, whose failures are results that change nothing (60_exceptions.md
R176); and a host session, whose transitions are those operations and the tick, and which fixes the
instruction table at the first tick (R188). The tick itself, `clock()`, stands in
Machine/Sequencer.lean. -/

namespace Sys2Proof.Machine

/-- Why a host operation fails; no failure touches the engine's state or its fatal latch
(60_exceptions.md R176). -/
inductive HostError where
  /-- A register write with a byte string of another length (10_state.md R18). -/
  | sizeMismatch
  /-- A register name or id that names no register (10_state.md R18). -/
  | unknownRegister
  /-- A store access outside the store's bounds (20_memory.md R44). -/
  | outOfRange
  /-- The instruction table is never replaced after the first tick (70_reset_and_hazards.md R188). -/
  | tableFixed
deriving DecidableEq, Repr

/-- A register by numeric id or by name (10_state.md R16, R18). -/
inductive RegRef where
  | byId (id : Nat)
  | byName (name : String)
deriving DecidableEq, Repr

/-- The two stores (20_memory.md R40). -/
inductive StoreId where
  | memory
  | storage
deriving DecidableEq, Repr

/-! ### Construction and reset -/

/-- `new_register_file()`: no descriptors (70_reset_and_hazards.md R180). -/
def newRegisterFile : List RegDescriptor := []

/-- `add(name, size, offset)`, at construction only: appends a descriptor, whose id is its position
(10_state.md R15, R18). -/
def addRegister (regs : List RegDescriptor) (name : String) (size offset : Nat) :
    List RegDescriptor :=
  regs ++ [⟨name, size, offset⟩]

/-- The state of a newly constructed engine: both stores and the register file zero, `sp` and `pc` at
their reset values, Idle (70_reset_and_hazards.md R180). DESIGN CHOICE (log 12): where the windows of `sp`
and `pc` overlap, which 10_state.md R21 allows, the spec does not say which reset value the shared bytes
take; here `SP_RESET` is written first and `PC_RESET` over it. -/
def State.construct (c : Config) : State :=
  let blank : State := { State.reset with cfg := c, rf := List.replicate c.rfLen 0 }
  (blank.regPut c.spId c.spReset).regPut c.pcId c.pcReset

/-- A hardware reset: every state element back to its reset value, the only event that clears the fatal
latch (70_reset_and_hazards.md R180, 60_exceptions.md R165). -/
def State.hardReset (s : State) : State := State.construct s.cfg

/-! ### The engine's control surface -/

/-- `is_halted()`: it does not report a fatal error (70_reset_and_hazards.md R184). -/
def State.isHalted (s : State) : Bool := s.halted

/-- `unhalt()`: clears `halted` and changes nothing else (70_reset_and_hazards.md R185). -/
def State.unhalt (s : State) : State := s.setHalted false

/-- The end of a run: halted with no fatal error (70_reset_and_hazards.md R191). -/
def State.runEnded (s : State) : Bool := s.halted && s.fatal.isNone

/-! ### The register file -/

/-- The numeric id a reference stands for, if it names a register (10_state.md R16). -/
def Config.resolveId (c : Config) : RegRef → Option Nat
  | .byId id => if id < c.regs.length then some id else none
  | .byName name => c.regs.findIdx? (fun d => d.name == name)

/-- `resolve(name|id)`: the descriptor (10_state.md R18). -/
def State.resolve (s : State) (r : RegRef) : Except HostError RegDescriptor :=
  match (Config.resolveId s.cfg r).bind (fun i => s.cfg.regs[i]?) with
  | some d => .ok d
  | none => .error .unknownRegister

/-- `read(name|id)`: the window's bytes, most significant first (10_state.md R18). -/
def State.hostRead (s : State) (r : RegRef) : Except HostError (List Byte) :=
  match s.resolve r with
  | .ok d => .ok (readWindow s.rf d.offset d.size)
  | .error e => .error e

/-- `write(name|id, bytes)`: replaces the window when the length is the register's size, and fails with a
size mismatch when it is not (10_state.md R18). -/
def State.hostWrite (s : State) (r : RegRef) (bytes : List Byte) : Except HostError State :=
  match s.resolve r with
  | .ok d =>
    if bytes.length = d.size then .ok (s.setRf (writeWindow s.rf d.offset bytes))
    else .error .sizeMismatch
  | .error e => .error e

/-! ### The stores -/

/-- The contents of a store. -/
def State.store (s : State) : StoreId → Memory
  | .memory => s.mem
  | .storage => s.storage

/-- The size of a store. -/
def State.storeSize (s : State) : StoreId → Nat
  | .memory => s.cfg.memSize
  | .storage => s.cfg.storageSize

/-- The state with a store's contents replaced. -/
def State.setStore (s : State) : StoreId → Memory → State
  | .memory, m => s.setMem m
  | .storage, m => s.setStorage m

/-- `read_range(start, end)`: the bytes of `[start, end)` (20_memory.md R44). -/
def State.readRange (s : State) (k : StoreId) (start stop : Nat) : Except HostError (List Byte) :=
  if start ≤ stop ∧ stop ≤ s.storeSize k then
    .ok (Memory.readBytes (s.store k) start (stop - start))
  else .error .outOfRange

/-- `write_range(start, bytes)`: `bytes[k]` to `start + k` (20_memory.md R44). -/
def State.writeRange (s : State) (k : StoreId) (start : Nat) (bytes : List Byte) :
    Except HostError State :=
  if start + bytes.length ≤ s.storeSize k then
    .ok (s.setStore k (Memory.writeBytes (s.store k) start bytes))
  else .error .outOfRange

/-- `clear_range(start, end)`: zero-fills `[start, end)` (20_memory.md R44). -/
def State.clearRange (s : State) (k : StoreId) (start stop : Nat) : Except HostError State :=
  if start ≤ stop ∧ stop ≤ s.storeSize k then
    .ok (s.setStore k (Memory.zeroBytes (s.store k) start (stop - start)))
  else .error .outOfRange

/-- `read(addr)` (20_memory.md R44). -/
def State.storeRead (s : State) (k : StoreId) (addr : Nat) : Except HostError Byte :=
  if addr < s.storeSize k then .ok (Memory.read (s.store k) addr) else .error .outOfRange

/-- `write(addr, byte)` (20_memory.md R44). -/
def State.storeWrite (s : State) (k : StoreId) (addr : Nat) (b : Byte) : Except HostError State :=
  s.writeRange k addr [b]

/-- Loading a program: `write_range` on the memory store (70_reset_and_hazards.md R187). -/
def State.loadProgram (s : State) (base : Nat) (bytes : List Byte) : Except HostError State :=
  s.writeRange .memory base bytes

/-! ### A host session (70_reset_and_hazards.md R183, R190) -/

/-- An engine in the hands of its host. Whether a tick has run since construction is the session's history
and no state of the core (10_state.md R14); it decides whether the table may still be installed. -/
structure Session where
  state : State
  ticked : Bool
deriving DecidableEq, Repr

/-- What the host may do to an engine between two ticks, the tick itself included. -/
inductive HostAction where
  | clock
  | unhalt
  | writeRegister (r : RegRef) (bytes : List Byte)
  | writeStore (k : StoreId) (start : Nat) (bytes : List Byte)
  | clearStore (k : StoreId) (start stop : Nat)
  | setInstructionSet (t : ITable)
  | reset
deriving DecidableEq, Repr

/-- The session with its engine's state replaced. -/
def Session.withState (h : Session) (s : State) : Session := { h with state := s }

/-- A newly constructed engine: no tick has run. -/
def Session.construct (c : Config) : Session := ⟨State.construct c, false⟩

/-- The state a tick leaves; a fatal error leaves the latched one (60_exceptions.md R163). -/
def stateAfter (s : State) : Host.Outcome State Fault Refusal → State
  | .next t => t
  | .fault (.fatal _ t) => t
  | .refused _ => s

/-- `set_instruction_set(map)`: installs the whole table, before the first tick and never after it
(70_reset_and_hazards.md R188, 00_scope.md R8, R9). -/
def Session.setInstructionSet (h : Session) (t : ITable) : Except HostError Session :=
  if h.ticked then .error .tableFixed
  else .ok (h.withState (h.state.setCfg { h.state.cfg with itable := t }))

/-- One transition of a session (70_reset_and_hazards.md R190). A hardware reset returns the state elements
to their reset values (R180) and leaves the table, and that it is fixed, as they are (log 11). -/
def Session.perform (a : HostAction) (h : Session) : Except HostError Session :=
  match a with
  | .clock => .ok ⟨stateAfter h.state (Sys2Proof.Machine.clock h.state), true⟩
  | .unhalt => .ok (h.withState h.state.unhalt)
  | .writeRegister r bytes => (h.state.hostWrite r bytes).map h.withState
  | .writeStore k start bytes => (h.state.writeRange k start bytes).map h.withState
  | .clearStore k start stop => (h.state.clearRange k start stop).map h.withState
  | .setInstructionSet t => h.setInstructionSet t
  | .reset => .ok (h.withState h.state.hardReset)

end Sys2Proof.Machine
end

