-- ==== Sys2Proof/Safety.lean ====
section
/-! DEFINITION. What counts as a good state and a safe run, and what each instruction may write and
raise, in the terms the claims use. -/

namespace Sys2Proof

open Sys2Proof.Machine

/-! ### Good states -/

/-- A latched opcode has a table entry (44_sequencer.md R119). -/
def latchOk (s : State) : Bool :=
  match s.currentOpcode with
  | none => true
  | some op => (lookupEntry s.cfg.itable op).isSome

/-- The state invariant of the core: the configuration is well formed (00_scope.md R8), both stores are
canonical and end where their size does (20_memory.md R40), the backing buffer has `RF_LEN` bytes
(10_state.md R15), and a latched opcode has a table entry (44_sequencer.md R119). -/
abbrev Inv (s : State) : Prop :=
  s.cfg.wellFormed = true ∧ Memory.wf s.mem = true ∧ Memory.within s.cfg.memSize s.mem = true ∧
    Memory.wf s.storage = true ∧ Memory.within s.cfg.storageSize s.storage = true ∧
    s.rf.length = s.cfg.rfLen ∧ latchOk s = true

/-- The engine is Idle (44_sequencer.md R110). -/
abbrev Idle (s : State) : Prop := s.condition = .idle

/-- A state of the reference configuration (00_scope.md R8), its register file and memory in form. -/
abbrev InReference (s : State) : Prop :=
  s.cfg = referenceConfig ∧ s.rf.length = 8 ∧ Memory.wf s.mem = true

/-- Instruction `i` stands at the program counter of an Idle engine in the reference configuration. -/
abbrev Stands (i : Instr) (s : State) : Prop := InReference s ∧ Idle s ∧ decodeAt s = some i

/-- The bytes of `i` are in memory from the program counter up. -/
abbrev BytesAt (i : Instr) (s : State) : Prop :=
  s.pc + (encode i).length ≤ s.cfg.memSize ∧
    Memory.readBytes s.mem s.pc (encode i).length = encode i

/-- The engine is in the middle of an instruction (44_sequencer.md R110). -/
abbrev Executing (s : State) : Prop := ∃ op, s.condition = .executing op

/-! ### Shapes of next states -/

/-- One tick more on the cursor: what the execute tick adds to its micro-operation (44_sequencer.md
R113). -/
def stepped (t : State) : State := t.setCurrentStep (t.currentStep + 1)

/-- Idle with the program counter at `pc`, `n` micro-operations done (44_sequencer.md R114, R116). -/
def finish (t : State) (n pc : Nat) : State :=
  ((t.regPut t.cfg.pcId pc).setCurrentOpcode none).setCurrentStep n

/-- The micro-operation the next tick executes, if it is an execute tick (44_sequencer.md R113). -/
def nextMicroOp (s : State) : Option MicroOp :=
  match s.condition with
  | .executing _ => s.currentMicroOps[s.currentStep]?
  | _ => none

/-- The cause of a fault outcome. No claim about a fault reads the state it carries, but those about the
latch itself and the one that it does not depend on storage (60_exceptions.md R164, log 2). -/
def faultCause : Host.Outcome State Fault Refusal → Option FatalCause
  | .fault (.fatal c _) => some c
  | .next _ => none
  | .refused _ => none

/-- The outcome is the fatal error `c`. -/
abbrev FaultsWith (o : Host.Outcome State Fault Refusal) (c : FatalCause) : Prop :=
  faultCause o = some c

/-- The outcome with its state changed by `f`. -/
def mapOutcome (f : State → State) :
    Host.Outcome State Fault Refusal → Host.Outcome State Fault Refusal
  | .next t => .next (f t)
  | .fault (.fatal c t) => .fault (.fatal c (f t))
  | .refused r => .refused r

/-! ### What a micro-operation can raise -/

/-- The causes each micro-operation can raise once the program counter is configured: the rows of the
table of 60_exceptions.md R162. Without one, see log 14. -/
def causesOf : MicroOp → List FatalCause
  | .noOperation => []
  | .halt => []
  | .loadImmediateInternal _ => []
  | .loadImmediate _ => [.memRange]
  | .loadFromMemory => [.memRange, .unknownRegister]
  | .loadFromRegister _ => [.memRange, .unknownRegister]
  | .loadFromRegisterInternal _ => [.unknownRegister]
  | .setMemoryAddress => [.unknownRegister, .valueTooWide]
  | .storeToMemory => [.memRange, .unknownRegister, .valueTooWide]
  | .storeToRegister _ => [.memRange, .unknownRegister, .valueTooWide]
  | .storeToRegisterInternal _ => [.unknownRegister, .valueTooWide]
  | .stepProgramMemory _ => [.valueTooWide]
  | .add => [.unknownRegister]
  | .sub => [.unknownRegister, .subUnderflow]
  | .compare => [.unknownRegister, .compareWidth]
  | .pushToStack => [.memRange, .unknownRegister, .valueTooWide, .subUnderflow]
  | .popFromStack => [.memRange, .unknownRegister, .valueTooWide]
  | .jump => [.valueTooWide]
  | .jumpIfFlag _ _ => [.unknownRegister, .valueTooWide]
  | .jumpIfNotFlag _ _ => [.unknownRegister, .valueTooWide]

/-! ### What a micro-operation may write -/

/-- The register a micro-operation may write, if any: the one its pseudocode assigns (40_microops_move.md
R86 to R90, 41_microops_alu.md R98, 42_microops_stack.md R101, R102, 43_microops_control.md R105). -/
def microWrittenReg (u : MicroOp) (s : State) : Option Nat :=
  match u with
  | .setMemoryAddress => some s.cfg.marId
  | .storeToRegister offset => some (s.memByte (s.pc + offset.toNat)).toNat
  | .storeToRegisterInternal id => some id.toNat
  | .stepProgramMemory _ => some s.cfg.pcId
  | .compare => some s.cfg.flagsId
  | .pushToStack => some s.cfg.spId
  | .popFromStack => some s.cfg.spId
  | .jump => some s.cfg.pcId
  | .jumpIfFlag _ _ => some s.cfg.pcId
  | .jumpIfNotFlag _ _ => some s.cfg.pcId
  | _ => none

/-- The address a micro-operation stores to, if it stores: `W` bytes from there up (20_memory.md R47). -/
def microStoreAddress (u : MicroOp) (s : State) : Option Nat :=
  match u with
  | .storeToMemory => some s.mar
  | .pushToStack => some (s.sp - s.cfg.dataSize)
  | .popFromStack => some s.sp
  | _ => none

/-- The micro-operations that set the accumulator (10_state.md R14). -/
def MicroOp.setsAcc : MicroOp → Bool
  | .loadImmediate _ => true
  | .loadImmediateInternal _ => true
  | .loadFromMemory => true
  | .loadFromRegister _ => true
  | .loadFromRegisterInternal _ => true
  | .add => true
  | .sub => true
  | .popFromStack => true
  | _ => false

/-- The largest register size of a configuration. -/
def maxRegSize (c : Config) : Nat := c.regs.foldl (fun n d => max n d.size) 0

/-- The largest value any rule puts in the accumulator (10_state.md R28); literals are bytes here. -/
def accLimit (c : Config) : Nat :=
  max (2 * (256 ^ max (c.regSize c.regAId) (c.regSize c.regBId) - 1))
    (max (256 ^ max (maxRegSize c) c.dataSize - 1) 255)

/-! ### What an instruction may write -/

/-- The registers an instruction of RCS-REF-1 may write in the reference configuration, by id: its
destination, the program counter, and those its microcode clobbers (70_reset_and_hazards.md R199). -/
def writtenRegs : Instr → List Nat
  | .str rd => [0, rd.toNat]
  | .mvi rd _ => [0, rd.toNat]
  | .mov rd _ => [0, rd.toNat]
  | .ldm rd _ => [0, 3, rd.toNat]
  | .stm _ _ => [0, 3]
  | .ldx rd _ => [0, 3, rd.toNat]
  | .stx _ _ => [0, 3]
  | .cmp => [0, 4]
  | .push => [0, 1]
  | .pshi _ => [0, 1]
  | .pshr _ => [0, 1]
  | .pop => [0, 1]
  | .popr rd => [0, 1, rd.toNat]
  | .jeq _ => [0, 4]
  | .jne _ => [0, 4]
  | .jgt _ => [0, 4]
  | .jlt _ => [0, 4]
  | .jle _ => [0, 4]
  | .jnl _ => [0, 4]
  | .jge _ => [0, 1, 3, 4, 5, 6]
  | .call _ => [0, 1, 3, 5, 6]
  | .ret => [0, 1, 2, 3]
  | _ => [0]

/-- The addresses an instruction of RCS-REF-1 stores to from state `s`, in the reference configuration:
the same expressions its micro-operations use (45_refisa_data.md R134, R136, R140 to R144,
46_refisa_control.md R155 to R158). -/
def storedBytes (i : Instr) (s : State) : List Nat :=
  match i with
  | .stm addr _ => [addr.toNat]
  | .stx ra _ => [s.regVal ra.toNat]
  | .push => [s.sp - 1]
  | .pshi _ => [s.sp - 1]
  | .pshr _ => [s.sp - 1]
  | .pop => [s.sp]
  | .popr _ => [s.sp]
  | .call _ => [s.sp - 1, s.sp - 2]
  | .jge _ => [s.sp - 1, s.sp - 2]
  | .ret => [s.sp, s.sp + 1]
  | _ => []

/-- The instructions of RCS-REF-1 that leave the accumulator as it is. -/
def keepsAcc : Instr → Bool
  | .nop => true
  | .hlt => true
  | .str _ => true
  | .cmp => true
  | .push => true
  | .jpa => true
  | _ => false

/-- Does the jump of a conditional-jump instruction fire on `reg_a = a`, `reg_b = b`
(46_refisa_control.md R149 to R154, R157)? `JGE` fires as the source's mask pair has it. -/
def jumpFires : Instr → Nat → Nat → Bool
  | .jeq _, a, b => a == b
  | .jne _, a, b => a != b
  | .jgt _, a, b => decide (b < a)
  | .jlt _, a, b => decide (a < b)
  | .jle _, a, b => decide (a ≤ b)
  | .jge _, a, b => decide (a ≤ b)
  | .jnl _, a, b => decide (b ≤ a)
  | _, _, _ => false

/-- The ticks an instruction takes (70_reset_and_hazards.md R204); `HLT` takes 2 to halt. -/
def tickCount (i : Instr) (s : State) : Nat :=
  match i with
  | .nop => 3
  | .hlt => 2
  | .ldi _ => 4
  | .ldr _ => 4
  | .str _ => 4
  | .mvi _ _ => 5
  | .mov _ _ => 5
  | .pshi _ => 5
  | .pshr _ => 5
  | .popr _ => 5
  | .ldm _ _ => 7
  | .stm _ _ => 7
  | .ldx _ _ => 7
  | .stx _ _ => 7
  | .add => 3
  | .sub => 3
  | .cmp => 3
  | .push => 3
  | .pop => 3
  | .jmp _ => 3
  | .jpa => 2
  | .jge _ => if jumpFires i s.regA s.regB then 18 else 20
  | .call _ => 17
  | .ret => 7
  | _ => if jumpFires i s.regA s.regB then 4 else 6

/-- A micro-operation that neither jumps nor halts. -/
def MicroOp.isStraight : MicroOp → Bool
  | .halt => false
  | .jump => false
  | .jumpIfFlag _ _ => false
  | .jumpIfNotFlag _ _ => false
  | _ => true

/-- A micro-operation that names a register to write, so may write the program counter as an ordinary
register (10_state.md R23). -/
def MicroOp.storesRegister : MicroOp → Bool
  | .storeToRegister _ => true
  | .storeToRegisterInternal _ => true
  | _ => false

/-- The jump family (43_microops_control.md R105, R107, R108). -/
def MicroOp.isJump : MicroOp → Bool
  | .jump => true
  | .jumpIfFlag _ _ => true
  | .jumpIfNotFlag _ _ => true
  | _ => false

/-- Does the micro-operation, run in state `s`, take a jump (43_microops_control.md R105 to R108)? -/
def MicroOp.taken (u : MicroOp) (s : State) : Bool :=
  match u with
  | .jump => true
  | .jumpIfFlag trueMask falseMask => flagCond s.flags trueMask falseMask
  | .jumpIfNotFlag trueMask falseMask => !flagCond s.flags trueMask falseMask
  | _ => false

/-- `m` is the state before micro-operation `k` of the instruction whose fetch tick `s` begins. Of the
instructions a later tick could be in, only this one stands at step `k` after `k + 1` ticks. -/
abbrev BeforeMicroOp (s : State) (k : Nat) (m : State) : Prop :=
  ticks (k + 1) s = .next m ∧ Executing m ∧ m.currentStep = k

/-- The micro-operations that read the program counter whenever they run (10_state.md R20). -/
def MicroOp.readsPc : MicroOp → Bool
  | .loadImmediate _ => true
  | .loadFromRegister _ => true
  | .storeToRegister _ => true
  | .stepProgramMemory _ => true
  | _ => false

end Sys2Proof
end

