-- ==== Sys2Proof/Certificates/Slice0/Obligations.lean ====
section
/-! DEFINITION. The statements for the provers, in the order of the spec's files: the encodings, the
Value Cell, registers and memory, the twenty micro-operations, the tick, fatal errors, the invariants of
every step, the thirty instructions in the reference configuration, and the host interface. Register ids
of the reference map: 0 `pc`, 1 `sp`, 2 `bp`, 3 `mar`, 4 `flags`, 5 `reg_a`, 6 `reg_b` (10_state.md
R19). -/

section

open Sys2Proof Sys2Proof.Machine

/-! ### Encodings -/

/-- A few words written out from 30_encoding.md R65 and R66 decode to what they stand for. -/
def Obligations.DecodeSampleWords : Prop :=
  decode [0x00] = .ok (.nop, []) ∧
  decode [0x10, 0x2A, 0x01] = .ok (.ldi 0x2A, [0x01]) ∧
  decode [0x13, 0x05, 0x2A] = .ok (.mvi 0x05 0x2A, []) ∧
  decode [0x21, 0x80, 0x07] = .ok (.stm 0x80 0x07, []) ∧
  decode [0x44, 0x06] = .ok (.popr 0x06, []) ∧
  decode [0x57, 0x0A] = .ok (.jge 0x0A, []) ∧
  decode [0x61] = .ok (.ret, []) ∧
  decode [0x02] = .error (.unknownOpcode 0x02) ∧
  decode [0x13, 0x05] = .error (.truncated 0x13) ∧
  decodeMicroWord 0x000000 = .ok .noOperation ∧
  decodeMicroWord 0x0B0200 = .ok (.stepProgramMemory 2) ∧
  decodeMicroWord 0x120102 = .ok (.jumpIfFlag 0x01 0x02) ∧
  decodeMicroWord 0x130003 = .ok (.jumpIfNotFlag 0x00 0x03) ∧
  decodeMicroWord 0x140000 = .error (.unknownKind 0x14) ∧
  decodeMicroWord 0x0B0201 = .error (.unusedFieldNotZero 0x0B)

/-- Whatever byte string decodes is the encoding of the decoded instruction, and the rest: the decoder
reads every bit (30_encoding.md R60, R66, R70). -/
def Obligations.DecodedBytesAreTheEncoding : Prop :=
  ∀ (bs rest : List Byte) (i : Instr), decode bs = .ok (i, rest) →
    i.isReference = true ∧ bs = encode i ++ rest

/-- A program of instructions of RCS-REF-1, encoded, decodes to itself, with every operand at every value
(30_encoding.md R60, R66). -/
def Obligations.ProgramDecodesToItself : Prop :=
  ∀ is : List Instr, (∀ i ∈ is, i.isReference = true) →
    decodeProgram (encodeProgram is).length (encodeProgram is) = .ok is

/-- Micro-words and micro-operations correspond one to one: the encoding decodes, and only the encoding
does (30_encoding.md R65, the spec's own encoding, D18). -/
def Obligations.MicroWordsAreTheMicroOps : Prop :=
  ∀ (u : MicroOp) (w : BitVec 24), decodeMicroWord w = .ok u ↔ encodeMicroWord u = w

/-- The ROM image of a table entry reads back as the entry, whatever follows it. The image is the spec's
own encoding (30_encoding.md R65, D18), but for its count of micro-operations, which R65 gives no width:
the one byte, and so no image above 255 micro-operations, is the model's own choice (log 13). -/
def Obligations.RomEntryDecodesToItself : Prop :=
  ∀ (e : Entry) (image rest : List Byte), encodeEntry e = some image →
    decodeEntry (image ++ rest) = .ok (e, rest)

/-- An opcode without a table entry stops the fetch tick that reads it, and under RCS-REF-1 those are
the listed ranges (30_encoding.md R68). -/
def Obligations.IllegalOpcodesStopTheFetch : Prop :=
  (∀ s : State, Idle s → s.cfg.pcId < s.cfg.regs.length → s.pc < s.cfg.memSize →
    lookupEntry s.cfg.itable (s.memByte s.pc) = none → FaultsWith (clock s) .unknownOpcode) ∧
  (∀ op : Byte, lookupEntry rcsRef1 op = none ↔
    (0x02 ≤ op.toNat ∧ op.toNat ≤ 0x0F) ∨ (0x15 ≤ op.toNat ∧ op.toNat ≤ 0x1F) ∨
    (0x24 ≤ op.toNat ∧ op.toNat ≤ 0x2F) ∨ (0x33 ≤ op.toNat ∧ op.toNat ≤ 0x3F) ∨
    (0x45 ≤ op.toNat ∧ op.toNat ≤ 0x4F) ∨ (0x59 ≤ op.toNat ∧ op.toNat ≤ 0x5F) ∨
    0x62 ≤ op.toNat)

/-- An instruction of RCS-REF-1 has a table entry under its opcode that is length-consistent and whose
`arg_count` is the number of its operand bytes (30_encoding.md R62, R63, R66). -/
def Obligations.TableLengthsAgree : Prop :=
  ∀ i : Instr, i.isReference = true →
    ∃ e : Entry, lookupEntry rcsRef1 ((encode i).headD 0) = some e ∧
      e.lengthConsistent = true ∧ e.wellFormed referenceConfig.regs.length = true ∧
      (encode i).length = 1 + e.argCount.toNat

/-! ### The Value Cell, registers and memory -/

/-- Byte strings and integers convert big-endian, and `bytes_n(v)` is the one string of its length and
value (00_scope.md R11). -/
def Obligations.ValueCellConversion : Prop :=
  val [] = 0 ∧
  (∀ (b : Byte) (bs : List Byte), val (b :: bs) = b.toNat * 256 ^ bs.length + val bs) ∧
  (∀ n v : Nat, v < 256 ^ n → (bytesOf n v).length = n ∧ val (bytesOf n v) = v) ∧
  (∀ (n v : Nat) (bs : List Byte), bs.length = n → val bs = v → bs = bytesOf n v)

/-- A register reads the big-endian value of its window; an id or a name that names no register is an
error; a name stands for its id (10_state.md R16). -/
def Obligations.RegisterRead : Prop :=
  ∀ (s : State) (i : Nat) (name : String),
    (s.cfg.regs.length ≤ i → s.regRead i = .error .unknownRegister) ∧
    ((∀ d ∈ s.cfg.regs, d.name ≠ name) →
      s.hostRead (.byName name) = .error .unknownRegister) ∧
    (∀ d : RegDescriptor, s.cfg.regs[i]? = some d →
      s.regRead i = .ok (val (readWindow s.rf d.offset d.size)) ∧
      (s.cfg.regsOk = true → Config.resolveId s.cfg (.byName d.name) = some i ∧
        s.hostRead (.byName d.name) = .ok (readWindow s.rf d.offset d.size)))

/-- A memory read inside memory is the big-endian value and a zero-fill writes exactly its bytes; outside
memory both raise, with no wrap of the end address (20_memory.md R41, R43). -/
def Obligations.MemoryReadAndZero : Prop :=
  ∀ (s : State) (a n : Nat), Memory.wf s.mem = true →
    (s.cfg.memSize < a + n →
      s.memRead a n = .error .memRange ∧ s.memZero a n = .error .memRange) ∧
    (a + n ≤ s.cfg.memSize →
      s.memRead a n = .ok (val (Memory.readBytes s.mem a n)) ∧
      (∀ k : Nat, k < n → (Memory.readBytes s.mem a n)[k]? = some (s.memByte (a + k))) ∧
      ∃ t : State, s.memZero a n = .ok t ∧ t = s.setMem t.mem ∧
        (∀ k : Nat, k < n → t.memByte (a + k) = 0) ∧
        (∀ b : Nat, b < a ∨ a + n ≤ b → t.memByte b = s.memByte b))

/-- A register write that fits replaces its window and nothing else; a memory write that fits replaces
exactly its bytes, most significant first; neither ever truncates. That an integer is sized to its
destination (D3), and range before width (D14), are the spec's own decisions (10_state.md R17,
20_memory.md R42). -/
def Obligations.RegisterAndMemoryWrite : Prop :=
  (∀ (s : State) (i v : Nat),
    (s.cfg.regs.length ≤ i → s.regWrite i v = .error .unknownRegister) ∧
    (∀ d : RegDescriptor, s.cfg.regs[i]? = some d →
      (256 ^ d.size ≤ v → s.regWrite i v = .error .valueTooWide) ∧
      (v < 256 ^ d.size → s.cfg.rfLen ≤ s.rf.length →
        ∃ t : State, s.regWrite i v = .ok t ∧ t = s.setRf t.rf ∧ t.rf.length = s.rf.length ∧
          readWindow t.rf d.offset d.size = bytesOf d.size v ∧
          (∀ k : Nat, k < d.offset ∨ d.offset + d.size ≤ k → t.rf[k]? = s.rf[k]?) ∧
          t.regRead i = .ok v))) ∧
  (∀ (s : State) (a n v : Nat), Memory.wf s.mem = true →
    (s.cfg.memSize < a + n → s.memWrite a n v = .error .memRange) ∧
    (a + n ≤ s.cfg.memSize →
      (256 ^ n ≤ v → s.memWrite a n v = .error .valueTooWide) ∧
      (v < 256 ^ n →
        ∃ t : State, s.memWrite a n v = .ok t ∧ t = s.setMem t.mem ∧
          (∀ k : Nat, k < n → t.memByte (a + k) = (bytesOf n v).getD k 0) ∧
          (∀ b : Nat, b < a ∨ a + n ≤ b → t.memByte b = s.memByte b) ∧
          t.memRead a n = .ok v)))

/-! ### The micro-operations, in every configuration

`stepped t` is `t` with `current_step` one higher (44_sequencer.md R113). -/

/-- NoOperation and Halt: the tick completes, and changes nothing else or sets `halted`
(40_microops_move.md R80, 43_microops_control.md R104). That `current_step` goes up by one after Halt too
(44_sequencer.md R113) is the spec's own decision (D13). -/
def Obligations.NoOperationAndHalt : Prop :=
  encode .uNoOperation = [0x00, 0x00, 0x00] ∧ encode .uHalt = [0x01, 0x00, 0x00] ∧
  ∀ s : State,
    exec .uNoOperation s = .next (stepped s) ∧
    exec .uHalt s = .next (stepped (s.setHalted true))

/-- The five loads set the whole accumulator (40_microops_move.md R81 to R85). That the literal of
LoadImmediateInternal is a byte is the spec's own decision (D23). A micro-operation that reads the program
counter raises where it is not configured (10_state.md R20; R162 leaves it out, log 14); the others do not need
it. -/
def Obligations.LoadMicroOps : Prop :=
  ∀ s : State,
    (∀ o : Byte, encode (.uLoadImmediate o) = [0x02, o, 0x00] ∧
      (s.cfg.regs.length ≤ s.cfg.pcId → FaultsWith (exec (.uLoadImmediate o) s) .unknownRegister) ∧
      (s.cfg.pcId < s.cfg.regs.length →
        (s.pc + o.toNat < s.cfg.memSize →
          exec (.uLoadImmediate o) s =
            .next (stepped (s.setAcc (s.memByte (s.pc + o.toNat)).toNat))) ∧
        (s.cfg.memSize ≤ s.pc + o.toNat → FaultsWith (exec (.uLoadImmediate o) s) .memRange))) ∧
    (∀ c : Byte, encode (.uLoadImmediateInternal c) = [0x03, c, 0x00] ∧
      exec (.uLoadImmediateInternal c) s = .next (stepped (s.setAcc c.toNat))) ∧
    (encode .uLoadFromMemory = [0x04, 0x00, 0x00] ∧
      (s.cfg.regs.length ≤ s.cfg.marId → FaultsWith (exec .uLoadFromMemory s) .unknownRegister) ∧
      (s.cfg.marId < s.cfg.regs.length → s.cfg.memSize < s.mar + s.cfg.dataSize →
        FaultsWith (exec .uLoadFromMemory s) .memRange) ∧
      (s.cfg.marId < s.cfg.regs.length → s.mar + s.cfg.dataSize ≤ s.cfg.memSize →
        exec .uLoadFromMemory s = .next (stepped (s.setAcc (s.memVal s.mar s.cfg.dataSize))))) ∧
    (∀ o : Byte, encode (.uLoadFromRegister o) = [0x05, o, 0x00] ∧
      (s.cfg.regs.length ≤ s.cfg.pcId →
        FaultsWith (exec (.uLoadFromRegister o) s) .unknownRegister) ∧
      (s.cfg.pcId < s.cfg.regs.length →
        (s.cfg.memSize ≤ s.pc + o.toNat → FaultsWith (exec (.uLoadFromRegister o) s) .memRange) ∧
        (s.pc + o.toNat < s.cfg.memSize →
          s.cfg.regs.length ≤ (s.memByte (s.pc + o.toNat)).toNat →
          FaultsWith (exec (.uLoadFromRegister o) s) .unknownRegister) ∧
        (s.pc + o.toNat < s.cfg.memSize →
          (s.memByte (s.pc + o.toNat)).toNat < s.cfg.regs.length →
          exec (.uLoadFromRegister o) s =
            .next (stepped (s.setAcc (s.regVal (s.memByte (s.pc + o.toNat)).toNat)))))) ∧
    (∀ id : Byte, encode (.uLoadFromRegisterInternal id) = [0x06, id, 0x00] ∧
      (s.cfg.regs.length ≤ id.toNat →
        FaultsWith (exec (.uLoadFromRegisterInternal id) s) .unknownRegister) ∧
      (id.toNat < s.cfg.regs.length →
        exec (.uLoadFromRegisterInternal id) s = .next (stepped (s.setAcc (s.regVal id.toNat)))))

/-- SetMemoryAddress and the two register stores write the accumulator, sized to the destination, and
leave it unchanged; StepProgramMemory adds to the program counter, which does not wrap
(40_microops_move.md R86, R88 to R90). Where the program counter is not configured, the two that read it
raise (10_state.md R20; R162 leaves it out, log 14). -/
def Obligations.StoreMicroOps : Prop :=
  ∀ s : State,
    (encode .uSetMemoryAddress = [0x07, 0x00, 0x00] ∧
      (s.cfg.regs.length ≤ s.cfg.marId → FaultsWith (exec .uSetMemoryAddress s) .unknownRegister) ∧
      (s.cfg.marId < s.cfg.regs.length → 256 ^ s.cfg.regSize s.cfg.marId ≤ s.acc →
        FaultsWith (exec .uSetMemoryAddress s) .valueTooWide) ∧
      (s.cfg.marId < s.cfg.regs.length → s.acc < 256 ^ s.cfg.regSize s.cfg.marId →
        exec .uSetMemoryAddress s = .next (stepped (s.regPut s.cfg.marId s.acc)))) ∧
    (∀ o : Byte, encode (.uStoreToRegister o) = [0x09, o, 0x00] ∧
      (s.cfg.regs.length ≤ s.cfg.pcId →
        FaultsWith (exec (.uStoreToRegister o) s) .unknownRegister) ∧
      (s.cfg.pcId < s.cfg.regs.length →
        (s.cfg.memSize ≤ s.pc + o.toNat → FaultsWith (exec (.uStoreToRegister o) s) .memRange) ∧
        (s.pc + o.toNat < s.cfg.memSize →
          s.cfg.regs.length ≤ (s.memByte (s.pc + o.toNat)).toNat →
          FaultsWith (exec (.uStoreToRegister o) s) .unknownRegister) ∧
        (s.pc + o.toNat < s.cfg.memSize →
          (s.memByte (s.pc + o.toNat)).toNat < s.cfg.regs.length →
          256 ^ s.cfg.regSize (s.memByte (s.pc + o.toNat)).toNat ≤ s.acc →
          FaultsWith (exec (.uStoreToRegister o) s) .valueTooWide) ∧
        (s.pc + o.toNat < s.cfg.memSize →
          (s.memByte (s.pc + o.toNat)).toNat < s.cfg.regs.length →
          s.acc < 256 ^ s.cfg.regSize (s.memByte (s.pc + o.toNat)).toNat →
          exec (.uStoreToRegister o) s =
            .next (stepped (s.regPut (s.memByte (s.pc + o.toNat)).toNat s.acc))))) ∧
    (∀ id : Byte, encode (.uStoreToRegisterInternal id) = [0x0A, id, 0x00] ∧
      (s.cfg.regs.length ≤ id.toNat →
        FaultsWith (exec (.uStoreToRegisterInternal id) s) .unknownRegister) ∧
      (id.toNat < s.cfg.regs.length → 256 ^ s.cfg.regSize id.toNat ≤ s.acc →
        FaultsWith (exec (.uStoreToRegisterInternal id) s) .valueTooWide) ∧
      (id.toNat < s.cfg.regs.length → s.acc < 256 ^ s.cfg.regSize id.toNat →
        exec (.uStoreToRegisterInternal id) s = .next (stepped (s.regPut id.toNat s.acc)))) ∧
    (∀ n : Byte, encode (.uStepProgramMemory n) = [0x0B, n, 0x00] ∧
      (s.cfg.regs.length ≤ s.cfg.pcId →
        FaultsWith (exec (.uStepProgramMemory n) s) .unknownRegister) ∧
      (s.cfg.pcId < s.cfg.regs.length →
        (256 ^ s.cfg.regSize s.cfg.pcId ≤ s.pc + n.toNat →
          FaultsWith (exec (.uStepProgramMemory n) s) .valueTooWide) ∧
        (s.pc + n.toNat < 256 ^ s.cfg.regSize s.cfg.pcId →
          exec (.uStepProgramMemory n) s =
            .next (stepped (s.regPut s.cfg.pcId (s.pc + n.toNat))))))

/-- Add is the exact sum and never faults when computed; Sub is the exact difference and fatal on
underflow; Sub, then Add of the same operand to the difference, gives the first operand back
(41_microops_alu.md R93, R96, R97). -/
def Obligations.AddAndSubMicroOps : Prop :=
  encode .uAdd = [0x0C, 0x00, 0x00] ∧ encode .uSub = [0x0D, 0x00, 0x00] ∧
  ∀ s : State,
    (s.cfg.regs.length ≤ s.cfg.regAId ∨ s.cfg.regs.length ≤ s.cfg.regBId →
      FaultsWith (exec .uAdd s) .unknownRegister ∧ FaultsWith (exec .uSub s) .unknownRegister) ∧
    (s.cfg.regAId < s.cfg.regs.length → s.cfg.regBId < s.cfg.regs.length →
      exec .uAdd s = .next (stepped (s.setAcc (s.regA + s.regB))) ∧
      (s.regA < s.regB → FaultsWith (exec .uSub s) .subUnderflow) ∧
      (s.regB ≤ s.regA → exec .uSub s = .next (stepped (s.setAcc (s.regA - s.regB))))) ∧
    (∀ t u : State, Inv s → s.cfg.noOverlap = true → exec .uSub s = .next t →
      exec .uAdd (t.regPut t.cfg.regAId t.acc) = .next u → u.acc = s.regA)

/-- Compare writes the whole flags register and nothing else; on wide registers it refuses or compares
the low bytes (41_microops_alu.md R98, R99). That bits 7 to 2 are cleared (D8) and what wide registers do
(D9) are the spec's own decisions. -/
def Obligations.CompareMicroOp : Prop :=
  encode .uCompare = [0x11, 0x00, 0x00] ∧
  ∀ s : State, s.cfg.regsOk = true →
    (s.compareIsWide = false →
      s.cfg.regs.length ≤ s.cfg.regAId ∨ s.cfg.regs.length ≤ s.cfg.regBId ∨
        s.cfg.regs.length ≤ s.cfg.flagsId → FaultsWith (exec .uCompare s) .unknownRegister) ∧
    (s.cfg.regAId < s.cfg.regs.length → s.cfg.regBId < s.cfg.regs.length →
      s.cfg.flagsId < s.cfg.regs.length →
      (s.compareIsWide = false →
        exec .uCompare s = .next (stepped (s.regPut s.cfg.flagsId
          (if s.regA = s.regB then 1 else if s.regB < s.regA then 2 else 0)))) ∧
      (s.compareIsWide = true → s.cfg.compareWide = .refuse →
        FaultsWith (exec .uCompare s) .compareWidth) ∧
      (s.compareIsWide = true → s.cfg.compareWide = .lowByte →
        exec .uCompare s = .next (stepped (s.regPut s.cfg.flagsId
          (if s.regA % 256 = s.regB % 256 then 1
            else if s.regB % 256 < s.regA % 256 then 2 else 0)))))

/-- StoreToMemory stores `W` bytes at `mar`; PushToStack makes its checks in their order, then writes the
slot below `sp`, and `sp` (40_microops_move.md R87, 42_microops_stack.md R101). The stored width `W` (D3),
the underflow of `sp` (D22) and the order of the checks (D14) are the spec's own decisions. -/
def Obligations.StoreToMemoryAndPush : Prop :=
  encode .uStoreToMemory = [0x08, 0x00, 0x00] ∧ encode .uPushToStack = [0x0E, 0x00, 0x00] ∧
  ∀ s : State,
    (s.cfg.regs.length ≤ s.cfg.marId → FaultsWith (exec .uStoreToMemory s) .unknownRegister) ∧
    (s.cfg.marId < s.cfg.regs.length →
      (s.cfg.memSize < s.mar + s.cfg.dataSize → FaultsWith (exec .uStoreToMemory s) .memRange) ∧
      (s.mar + s.cfg.dataSize ≤ s.cfg.memSize → 256 ^ s.cfg.dataSize ≤ s.acc →
        FaultsWith (exec .uStoreToMemory s) .valueTooWide) ∧
      (s.mar + s.cfg.dataSize ≤ s.cfg.memSize → s.acc < 256 ^ s.cfg.dataSize →
        exec .uStoreToMemory s = .next (stepped (s.memPut s.mar s.cfg.dataSize s.acc)))) ∧
    (s.cfg.regs.length ≤ s.cfg.spId → FaultsWith (exec .uPushToStack s) .unknownRegister) ∧
    (s.cfg.spId < s.cfg.regs.length →
      (s.sp < s.cfg.dataSize → FaultsWith (exec .uPushToStack s) .subUnderflow) ∧
      (s.cfg.dataSize ≤ s.sp → s.cfg.memSize < s.sp →
        FaultsWith (exec .uPushToStack s) .memRange) ∧
      (s.cfg.dataSize ≤ s.sp → s.sp ≤ s.cfg.memSize → 256 ^ s.cfg.dataSize ≤ s.acc →
        FaultsWith (exec .uPushToStack s) .valueTooWide) ∧
      (s.cfg.dataSize ≤ s.sp → s.sp ≤ s.cfg.memSize → s.acc < 256 ^ s.cfg.dataSize →
        exec .uPushToStack s = .next (stepped
          ((s.memPut (s.sp - s.cfg.dataSize) s.cfg.dataSize s.acc).regPut s.cfg.spId
            (s.sp - s.cfg.dataSize)))))

/-- PopFromStack: its checks in their order, then the accumulator, the zeroed slot and `sp`
(42_microops_stack.md R102). -/
def Obligations.PopMicroOp : Prop :=
  encode .uPopFromStack = [0x0F, 0x00, 0x00] ∧
  ∀ s : State,
    (s.cfg.regs.length ≤ s.cfg.spId → FaultsWith (exec .uPopFromStack s) .unknownRegister) ∧
    (s.cfg.spId < s.cfg.regs.length →
      (s.cfg.memSize < s.sp + s.cfg.dataSize → FaultsWith (exec .uPopFromStack s) .memRange) ∧
      (s.sp + s.cfg.dataSize ≤ s.cfg.memSize →
        256 ^ s.cfg.regSize s.cfg.spId ≤ s.sp + s.cfg.dataSize →
        FaultsWith (exec .uPopFromStack s) .valueTooWide) ∧
      (s.sp + s.cfg.dataSize ≤ s.cfg.memSize →
        s.sp + s.cfg.dataSize < 256 ^ s.cfg.regSize s.cfg.spId →
        exec .uPopFromStack s = .next (stepped
          (((s.setAcc (s.memVal s.sp s.cfg.dataSize)).memClear s.sp s.cfg.dataSize).regPut
            s.cfg.spId (s.sp + s.cfg.dataSize)))))

/-- Push and pop are inverse: after a push, from any state with the same `sp` and the same bytes in the
slot, the pop is not fatal, gives the value back, restores `sp` and zeroes the slot; two values come back
last in, first out (42_microops_stack.md R103). -/
def Obligations.PopAfterPush : Prop :=
  (∀ s t m : State, Inv s → Inv m → exec .uPushToStack s = .next t → m.cfg = t.cfg → m.sp = t.sp →
    (∀ a : Nat, t.sp ≤ a → a < s.sp → m.memByte a = t.memByte a) →
    ∃ u : State, exec .uPopFromStack m = .next u ∧ u.acc = s.acc ∧ u.sp = s.sp ∧
      ∀ a : Nat, t.sp ≤ a → a < s.sp → u.memByte a = 0) ∧
  (∀ (s t w : State) (v : Nat), Inv s → exec .uPushToStack s = .next t →
    exec .uPushToStack (t.setAcc v) = .next w →
    ∃ x y : State, exec .uPopFromStack w = .next x ∧ x.acc = v ∧
      exec .uPopFromStack x = .next y ∧ y.acc = s.acc ∧ y.sp = s.sp)

/-- Jump: the program counter becomes exactly the accumulator, and the engine Idle, so that the next tick
is a fetch tick. The conditional jumps: as Jump where the mask condition holds (or does not); else no state
changes and the accumulator is not examined (43_microops_control.md R105, R107, R108). Where the program
counter is not configured, a jump that is taken raises (10_state.md R20; R162 leaves it out, log 14). -/
def Obligations.JumpMicroOps : Prop :=
  encode .uJump = [0x10, 0x00, 0x00] ∧
  ∀ s : State,
    (s.cfg.regs.length ≤ s.cfg.pcId → FaultsWith (exec .uJump s) .unknownRegister) ∧
    (s.cfg.pcId < s.cfg.regs.length →
      (256 ^ s.cfg.regSize s.cfg.pcId ≤ s.acc → FaultsWith (exec .uJump s) .valueTooWide) ∧
      (s.acc < 256 ^ s.cfg.regSize s.cfg.pcId →
        exec .uJump s = .next (stepped ((s.regPut s.cfg.pcId s.acc).setCurrentOpcode none))) ∧
      (∀ t : State, Executing s → s.cfg.rfLen ≤ s.rf.length → exec .uJump s = .next t →
        Idle t ∧ t.pc = s.acc)) ∧
    ∀ t m : Byte,
      encode (.uJumpIfFlag t m) = [0x12, t, m] ∧ encode (.uJumpIfNotFlag t m) = [0x13, t, m] ∧
      (s.cfg.regs.length ≤ s.cfg.flagsId →
        FaultsWith (exec (.uJumpIfFlag t m) s) .unknownRegister ∧
        FaultsWith (exec (.uJumpIfNotFlag t m) s) .unknownRegister) ∧
      (s.cfg.flagsId < s.cfg.regs.length →
        (flagCond s.flags t m = true →
          exec (.uJumpIfNotFlag t m) s = .next (stepped s) ∧
          (s.cfg.regs.length ≤ s.cfg.pcId →
            FaultsWith (exec (.uJumpIfFlag t m) s) .unknownRegister) ∧
          (s.cfg.pcId < s.cfg.regs.length →
            (256 ^ s.cfg.regSize s.cfg.pcId ≤ s.acc →
              FaultsWith (exec (.uJumpIfFlag t m) s) .valueTooWide) ∧
            (s.acc < 256 ^ s.cfg.regSize s.cfg.pcId →
              exec (.uJumpIfFlag t m) s =
                .next (stepped ((s.regPut s.cfg.pcId s.acc).setCurrentOpcode none))))) ∧
        (flagCond s.flags t m = false →
          exec (.uJumpIfFlag t m) s = .next (stepped s) ∧
          (s.cfg.regs.length ≤ s.cfg.pcId →
            FaultsWith (exec (.uJumpIfNotFlag t m) s) .unknownRegister) ∧
          (s.cfg.pcId < s.cfg.regs.length →
            (256 ^ s.cfg.regSize s.cfg.pcId ≤ s.acc →
              FaultsWith (exec (.uJumpIfNotFlag t m) s) .valueTooWide) ∧
            (s.acc < 256 ^ s.cfg.regSize s.cfg.pcId →
              exec (.uJumpIfNotFlag t m) s =
                .next (stepped ((s.regPut s.cfg.pcId s.acc).setCurrentOpcode none))))))

/-- The flag condition, bit by bit, and the truth table of the conditional families over what Compare can
leave and the reserved value (43_microops_control.md R106, R109). R109's table of masks rests on the spec's
own decisions D7 and D16, and its truth table is derived. -/
def Obligations.FlagCondition : Prop :=
  (∀ (f : Nat) (t m : Byte), flagCond f t m = true ↔
    ∀ k : Nat, (t.toNat.testBit k = true → f.testBit k = true) ∧
      (m.toNat.testBit k = true → f.testBit k = false)) ∧
  (∀ f : Nat, flagCond f 0 0 = true) ∧
  (∀ (f k : Nat) (t m : Byte), t.toNat.testBit k = true → m.toNat.testBit k = true →
    flagCond f t m = false) ∧
  ([0, 1, 2, 3].map (fun f => flagCond f 0x01 0x02) = [false, true, false, false]) ∧
  ([0, 1, 2, 3].map (fun f => flagCond f 0x00 0x01) = [true, false, true, false]) ∧
  ([0, 1, 2, 3].map (fun f => flagCond f 0x02 0x01) = [false, false, true, false]) ∧
  ([0, 1, 2, 3].map (fun f => flagCond f 0x00 0x03) = [true, false, false, false]) ∧
  ([0, 1, 2, 3].map (fun f => flagCond f 0x00 0x02) = [true, true, false, false]) ∧
  ([0, 1, 2, 3].map (fun f => !flagCond f 0x00 0x03) = [false, true, true, true])

/-- A micro-operation stores only the `W` bytes at the address its pseudocode computes, and changes
neither storage, nor the configuration, nor the latch; only the listed ones set the accumulator, only
Halt sets `halted`, and only a jump that is taken clears `current_opcode`, with the program counter at the
accumulator (10_state.md R14, R29, 20_memory.md R47). -/
def Obligations.MicroOpFrame : Prop :=
  ∀ (u : MicroOp) (s t : State), exec u.toInstr s = .next t →
    (∀ a : Nat, (∀ b : Nat, microStoreAddress u s = some b → a < b ∨ b + s.cfg.dataSize ≤ a) →
      t.memByte a = s.memByte a) ∧
    t.storage = s.storage ∧ t.cfg = s.cfg ∧ t.fatal = s.fatal ∧
    t.currentStep = s.currentStep + 1 ∧
    (u.setsAcc = false → t.acc = s.acc) ∧
    (u ≠ .halt → t.halted = s.halted) ∧
    (u.isJump = false → t.currentOpcode = s.currentOpcode) ∧
    (u.taken s = false → t.currentOpcode = s.currentOpcode) ∧
    (u.taken s = true → t.currentOpcode = none ∧ (s.cfg.rfLen ≤ s.rf.length → t.pc = s.acc))

/-- A micro-operation writes at most one register, the one its pseudocode names: where no windows
overlap, every other register keeps its value (10_state.md R17, R21). -/
def Obligations.MicroOpRegisterFrame : Prop :=
  ∀ (u : MicroOp) (s t : State), s.cfg.noOverlap = true → exec u.toInstr s = .next t →
    ∀ r : Nat, microWrittenReg u s ≠ some r → t.regVal r = s.regVal r

/-! ### The tick -/

/-- The four conditions are decided by the cursor, and the tick by the condition: nothing happens in
Fatal and Halted, a fetch tick in Idle, and in Executing the execute tick of the micro-operation at
`current_step`, or the retire tick when there is none left (44_sequencer.md R110, R111, R113). The no-op
ticks of Fatal (D10), the retire tick of its own (D12) and the increment after Halt and taken jumps (D13)
are the spec's own decisions. -/
def Obligations.ClockDispatch : Prop :=
  ∀ s : State,
    (s.fatal ≠ none → s.condition = .fatal ∧ clock s = .next s) ∧
    (s.fatal = none → s.halted = true → s.condition = .halted ∧ clock s = .next s) ∧
    (s.fatal = none → s.halted = false → s.currentOpcode = none →
      s.condition = .idle ∧ clock s = fetchTick s) ∧
    (∀ (op : Byte) (e : Entry), s.fatal = none → s.halted = false → s.currentOpcode = some op →
      lookupEntry s.cfg.itable op = some e →
      s.condition = .executing op ∧
      (∀ h : s.currentStep < e.microOps.length,
        clock s = exec (e.microOps[s.currentStep]'h).toInstr s) ∧
      (e.microOps.length ≤ s.currentStep → clock s = retireTick s)) ∧
    (∀ (u : MicroOp) (t : State), exec u.toInstr s = .next t → t.currentStep = s.currentStep + 1)

/-- The fetch tick latches the byte at the program counter and resets the step; nothing else changes
(44_sequencer.md R112). That an opcode without an entry is refused in this tick is the spec's own
decision (D11). -/
def Obligations.FetchTick : Prop :=
  ∀ s : State, Idle s →
    (s.cfg.regs.length ≤ s.cfg.pcId → FaultsWith (clock s) .unknownRegister) ∧
    (s.cfg.pcId < s.cfg.regs.length → s.cfg.memSize ≤ s.pc → FaultsWith (clock s) .memRange) ∧
    (s.cfg.pcId < s.cfg.regs.length → s.pc < s.cfg.memSize →
      (lookupEntry s.cfg.itable (s.memByte s.pc) = none → FaultsWith (clock s) .unknownOpcode) ∧
      (∀ e : Entry, lookupEntry s.cfg.itable (s.memByte s.pc) = some e →
        clock s = .next ((s.setCurrentOpcode (some (s.memByte s.pc))).setCurrentStep 0)))

/-- The retire tick adds 1 to the live program counter, which does not wrap, and leaves the engine Idle
(44_sequencer.md R114); where the program counter is not configured it raises (10_state.md R20). -/
def Obligations.RetireTick : Prop :=
  ∀ (s : State) (op : Byte) (e : Entry), s.condition = .executing op →
    lookupEntry s.cfg.itable op = some e → e.microOps.length ≤ s.currentStep →
    (s.cfg.regs.length ≤ s.cfg.pcId → FaultsWith (clock s) .unknownRegister) ∧
    (s.cfg.pcId < s.cfg.regs.length →
      (256 ^ s.cfg.regSize s.cfg.pcId ≤ s.pc + 1 → FaultsWith (clock s) .valueTooWide) ∧
      (s.pc + 1 < 256 ^ s.cfg.regSize s.cfg.pcId →
        clock s = .next ((s.regPut s.cfg.pcId (s.pc + 1)).setCurrentOpcode none) ∧
        ∀ t : State, clock s = .next t → Idle t))

/-- Halt suspends an instruction: no tick changes anything until `unhalt()`, and the next tick is the
micro-operation after the Halt, or the retire tick (44_sequencer.md R118). -/
def Obligations.HaltAndResume : Prop :=
  (∀ s : State, s.unhalt = s.setHalted false) ∧
  ∀ (s : State) (op : Byte) (e : Entry), s.condition = .executing op →
    lookupEntry s.cfg.itable op = some e → e.microOps[s.currentStep]? = some .halt →
    ∃ h : State, clock s = .next h ∧ h.halted = true ∧ h.currentOpcode = some op ∧
      h.currentStep = s.currentStep + 1 ∧ (∀ n : Nat, ticks n h = .next h) ∧
      h.unhalt = stepped s ∧
      (∀ u : MicroOp, e.microOps[s.currentStep + 1]? = some u →
        clock h.unhalt = exec u.toInstr (stepped s)) ∧
      (e.microOps.length = s.currentStep + 1 → clock h.unhalt = retireTick (stepped s))

/-- A step from Idle runs the instruction whose bytes stand at the program counter, where the installed
table reads its opcode as RCS-REF-1 does; a step in the middle of an instruction is one tick
(44_sequencer.md R121; that the model's step has this granularity is its own choice, log 4). -/
def Obligations.StepRunsTheDecodedInstruction : Prop :=
  (∀ (s : State) (i : Instr), Idle s → i.isReference = true → s.cfg.pcId < s.cfg.regs.length →
    BytesAt i s → s.usesReference ((encode i).headD 0) = true →
    decodeAt s = some i ∧ step s = exec i s) ∧
  (∀ s : State, ¬ Idle s → step s = clock s)

/-- A step from Idle is the iteration of the tick until the next Idle, Halted or Fatal condition, and
every state before that is in the middle of the instruction (44_sequencer.md R121). -/
def Obligations.StepIsARunOfTicks : Prop :=
  ∀ s : State, Idle s →
    ∃ n : Nat, step s = ticks (n + 1) s ∧
      (∀ k : Nat, k < n → ∃ m : State, ticks (k + 1) s = .next m ∧ Executing m) ∧
      (∀ t : State, step s = .next t → ¬ Executing t)

/-- The program counter moves by 1 and the steps issued, for an instruction of any table that takes no
jump and stores to the program counter by no register store; a jump that is taken, conditional or not, sets
it to the accumulator exactly (44_sequencer.md R115, R116). The premises on a micro-operation are about the
state it runs in, `BeforeMicroOp`. The value of `current_step` that a Jump leaves in Idle is read from
R113 (the spec's own decision D13), and is meaningless (log 10). -/
def Obligations.ProgramCounterDisplacement : Prop :=
  ∀ (s t : State) (e : Entry), Inv s → s.cfg.noOverlap = true → Idle s →
    lookupEntry s.cfg.itable (s.memByte s.pc) = some e → step s = .next t →
    ((∀ u ∈ e.microOps, u.isStraight = true ∧ u.storesRegister = false) →
      t.pc = s.pc + 1 + stepSum e.microOps ∧ Idle t) ∧
    (t.halted = false →
      (∀ (k : Nat) (u : MicroOp) (m : State), e.microOps[k]? = some u → BeforeMicroOp s k m →
        u.taken m = false ∧
          (u.storesRegister = true → microWrittenReg u m ≠ some s.cfg.pcId)) →
      t.pc = s.pc + 1 + stepSum e.microOps ∧ Idle t) ∧
    (∀ (j : Nat) (u : MicroOp) (m : State), e.microOps[j]? = some u → BeforeMicroOp s j m →
      u.taken m = true → t.pc = m.acc ∧ t.acc = m.acc ∧ Idle t) ∧
    (∀ pre post : List MicroOp, e.microOps = pre ++ MicroOp.jump :: post →
      (∀ u ∈ pre, u.isStraight = true) → t.pc = t.acc ∧ Idle t ∧ t.currentStep = pre.length + 1)

/-- An instruction of `n` micro-operations that takes no jump uses `n + 2` ticks, and one that takes a jump
at index `j` uses `j + 2`; one that does not halt does one or the other (44_sequencer.md R117, R120). -/
def Obligations.TicksPerInstruction : Prop :=
  ∀ (s t : State) (e : Entry), Inv s → Idle s →
    lookupEntry s.cfg.itable (s.memByte s.pc) = some e → step s = .next t →
    ((∀ u ∈ e.microOps, u.isStraight = true) → ticks (e.microOps.length + 2) s = .next t) ∧
    (∀ pre post : List MicroOp, e.microOps = pre ++ MicroOp.jump :: post →
      (∀ u ∈ pre, u.isStraight = true) → ticks (pre.length + 2) s = .next t) ∧
    (t.halted = false → Idle t ∧
      ((ticks (e.microOps.length + 2) s = .next t ∧
          ∀ k : Nat, k ≤ e.microOps.length → ∃ m : State, BeforeMicroOp s k m ∧
            ∀ u : MicroOp, e.microOps[k]? = some u → u.taken m = false) ∨
        (∃ (j : Nat) (u : MicroOp) (m : State), e.microOps[j]? = some u ∧ BeforeMicroOp s j m ∧
          u.taken m = true ∧ ticks (j + 2) s = .next t ∧
          ∀ k : Nat, k < j → ∃ (v : MicroOp) (n : State), e.microOps[k]? = some v ∧
            BeforeMicroOp s k n ∧ v.taken n = false)))

/-! ### Fatal errors -/

/-- A tick raises only the causes the table of 60_exceptions.md R162 lists for it, or UNKNOWN_REGISTER where
the program counter is not configured: then every tick that reads or writes it raises that (10_state.md
R16, R20). There R162 and R20 disagree: the table leaves UNKNOWN_REGISTER blank (never) for LoadImmediate,
StepProgramMemory and Jump, and gives the operand-byte register forms and the conditional jumps other
reasons for it alone; the model follows R16 and R20 (log 14). No instruction is refused. -/
def Obligations.OnlyListedCausesAreRaised : Prop :=
  (∀ (s : State) (c : FatalCause), s.cfg.regsOk = true →
    (∀ u : MicroOp, FaultsWith (exec u.toInstr s) c →
      c ∈ causesOf u ∨ (s.cfg.regs.length ≤ s.cfg.pcId ∧ c = .unknownRegister)) ∧
    (s.cfg.pcId < s.cfg.regs.length → FaultsWith (fetchTick s) c →
      c = .memRange ∨ c = .unknownOpcode) ∧
    (s.cfg.pcId < s.cfg.regs.length → FaultsWith (retireTick s) c → c = .valueTooWide)) ∧
  (∀ s : State, s.cfg.regs.length ≤ s.cfg.pcId →
    (∀ u : MicroOp, u.readsPc = true ∨ u.taken s = true →
      FaultsWith (exec u.toInstr s) .unknownRegister) ∧
    FaultsWith (fetchTick s) .unknownRegister ∧ FaultsWith (retireTick s) .unknownRegister ∧
    (Idle s → FaultsWith (step s) .unknownRegister)) ∧
  (∀ (s : State) (r : Refusal) (i : Instr), exec i s ≠ .refused r)

/-- A fatal error sets the latch, and from then on every tick is a no-op (60_exceptions.md R163; the latch is the spec's own decision, D10). -/
def Obligations.FatalErrorIsFinal : Prop :=
  ∀ (s t : State) (c : FatalCause), clock s = .fault (.fatal c t) →
    t.fatal = some c ∧ t.condition = .fatal ∧ ∀ n : Nat, ticks n t = .next t

/-- Nothing but a reset clears the latch: no tick, no step, not `unhalt()`, and no other transition of a
host session (60_exceptions.md R165). The session goes on from the state a fault carries, of which this
reads the latch alone (R163; log 2). -/
def Obligations.OnlyResetClearsTheLatch : Prop :=
  (∀ (s : State) (c : FatalCause), s.fatal = some c →
    (∀ n : Nat, ticks n s = .next s) ∧ step s = .next s ∧ s.unhalt.fatal = some c ∧
    (∀ (r : RegRef) (bs : List Byte) (t : State), s.hostWrite r bs = .ok t → t.fatal = some c) ∧
    (∀ (k : StoreId) (a : Nat) (bs : List Byte) (t : State),
      s.writeRange k a bs = .ok t → t.fatal = some c) ∧
    (∀ (k : StoreId) (a b : Nat) (t : State), s.clearRange k a b = .ok t → t.fatal = some c) ∧
    s.hardReset.fatal = none) ∧
  (∀ (a : HostAction) (h h' : Session) (c : FatalCause), h.state.fatal = some c →
    h.perform a = .ok h' →
    (a ≠ .reset → h'.state.fatal = some c) ∧ (a = .reset → h'.state.fatal = none))

/-! ### Invariants of every step -/

/-- The state invariant holds at reset. -/
def Obligations.InvHoldsAtReset : Prop := Inv State.reset

/-- Every step, and every tick, keeps the state invariant: the stores stay canonical and inside their
sizes, the backing buffer keeps its length, and a latched opcode has a table entry (20_memory.md R40,
10_state.md R15, 44_sequencer.md R119). -/
def Obligations.StepKeepsInv : Prop :=
  ∀ s t : State, Inv s → (step s = .next t → Inv t) ∧ (clock s = .next t → Inv t)

/-- A finite accumulator is enough: no step, and no tick, puts a larger value in it than the limit, 510 in
the reference configuration (10_state.md R28). -/
def Obligations.StepKeepsTheAccumulatorBound : Prop :=
  (∀ s t : State, s.acc ≤ accLimit s.cfg →
    (step s = .next t → t.acc ≤ accLimit t.cfg) ∧ (clock s = .next t → t.acc ≤ accLimit t.cfg)) ∧
  accLimit referenceConfig = 510

/-- The configuration and the storage store are what no step and no tick writes, and storage is what none
reads: with other storage contents the outcome is the same, the states that faults carry included (log 2;
60_exceptions.md R164 asks no claim to read them, and this one says only that they do not depend on
storage). Nor does any transition of a host session change the configuration from the first tick on: the
table is installed before it or not at all (00_scope.md R8, R9, 10_state.md R34, R38, 20_memory.md R56,
70_reset_and_hazards.md R188; that the host may not install it later is the spec's own decision, D21). Of
those transitions, that a hardware reset too keeps the table, and the record that a tick has run, is the
model's own choice (log 11). -/
def Obligations.StorageIsInert : Prop :=
  (∀ s t : State, step s = .next t ∨ clock s = .next t → t.cfg = s.cfg ∧ t.storage = s.storage) ∧
  (∀ (s : State) (m : Memory),
    step (s.setStorage m) = mapOutcome (fun t => t.setStorage m) (step s) ∧
    clock (s.setStorage m) = mapOutcome (fun t => t.setStorage m) (clock s)) ∧
  (∀ (a : HostAction) (h h' : Session), h.perform a = .ok h' →
    (h.ticked = true → h'.ticked = true ∧ h'.state.cfg = h.state.cfg) ∧
    (a = .clock → h'.ticked = true)) ∧
  (∀ (h : Session) (it : ITable),
    (h.ticked = true → h.perform (.setInstructionSet it) = .error .tableFixed) ∧
    (h.ticked = false → h.perform (.setInstructionSet it) =
      .ok ⟨h.state.setCfg { h.state.cfg with itable := it }, false⟩))

/-- What changes the program counter and the flags in a tick, and to what: StepProgramMemory, a jump that
is taken, a register store that names the program counter and the retire tick; Compare and a register store
that names the flags (10_state.md R23, R26). -/
def Obligations.WritersOfProgramCounterAndFlags : Prop :=
  ∀ s t : State, Inv s → s.cfg.noOverlap = true → clock s = .next t →
    (t.pc ≠ s.pc →
      (∃ u : MicroOp, nextMicroOp s = some u ∧
        ((∃ n : Byte, u = .stepProgramMemory n ∧ t.pc = s.pc + n.toNat) ∨
          (u.taken s = true ∧ t.pc = s.acc ∧ Idle t) ∨
          (u.storesRegister = true ∧ microWrittenReg u s = some s.cfg.pcId ∧ t.pc = s.acc))) ∨
      (Executing s ∧ nextMicroOp s = none ∧ t.pc = s.pc + 1 ∧ Idle t)) ∧
    (t.flags ≠ s.flags →
      ∃ u : MicroOp, nextMicroOp s = some u ∧
        (u = .compare ∨
          (u.storesRegister = true ∧ microWrittenReg u s = some s.cfg.flagsId ∧ t.flags = s.acc)))

/-! ### The instructions of RCS-REF-1 in the reference configuration

`Stands i s`: `i` stands whole at the program counter of an Idle engine. `finish t n a`: `t` with the
program counter at `a`, Idle, `current_step` `n` (the value R113 and R114 leave in it, log 10). The
opcodes and micro-operation lists are the spec's own table RCS-REF-1 (D15), and each rule is derived from
the rules of its micro-operations. -/

/-- `NOP` and `HLT` (45_refisa_data.md R126, R127). -/
def Obligations.NopAndHlt : Prop :=
  ∀ s : State,
    (Stands .nop s →
      (s.pc + 1 ≤ 255 → exec .nop s = .next (finish s 1 (s.pc + 1)) ∧
        ticks 3 s = .next (finish s 1 (s.pc + 1))) ∧
      (s.pc = 255 → FaultsWith (exec .nop s) .valueTooWide)) ∧
    (Stands .hlt s →
      ∃ h : State, exec .hlt s = .next h ∧ ticks 2 s = .next h ∧
        h = ((s.setCurrentOpcode (some 0x01)).setCurrentStep 1).setHalted true ∧
        clock h = .next h ∧
        (s.pc + 1 ≤ 255 → clock h.unhalt = .next (finish s 1 (s.pc + 1))) ∧
        (s.pc = 255 → FaultsWith (clock h.unhalt) .valueTooWide))

/-- `LDI`, `LDR` and `STR` (45_refisa_data.md R128 to R130). A program counter written as a register is
stepped on from there. -/
def Obligations.LdiLdrStr : Prop :=
  ∀ (s : State) (b : Byte),
    (Stands (.ldi b) s →
      (s.pc + 2 ≤ 255 → exec (.ldi b) s = .next (finish (s.setAcc b.toNat) 2 (s.pc + 2))) ∧
      (255 < s.pc + 2 → FaultsWith (exec (.ldi b) s) .valueTooWide)) ∧
    (Stands (.ldr b) s →
      (8 ≤ b.toNat → FaultsWith (exec (.ldr b) s) .unknownRegister) ∧
      (b.toNat < 8 → s.pc + 2 ≤ 255 →
        exec (.ldr b) s = .next (finish (s.setAcc (s.regVal b.toNat)) 2 (s.pc + 2))) ∧
      (b.toNat < 8 → 255 < s.pc + 2 → FaultsWith (exec (.ldr b) s) .valueTooWide)) ∧
    (Stands (.str b) s →
      (8 ≤ b.toNat → FaultsWith (exec (.str b) s) .unknownRegister) ∧
      (b.toNat < 8 → 255 < s.acc → FaultsWith (exec (.str b) s) .valueTooWide) ∧
      (b.toNat < 8 → s.acc ≤ 255 → ∀ p : Nat, p = (if b = 0 then s.acc else s.pc) + 2 →
        (p ≤ 255 → exec (.str b) s = .next (finish (s.regPut b.toNat s.acc) 2 p)) ∧
        (255 < p → FaultsWith (exec (.str b) s) .valueTooWide)))

/-- `MVI` and `MOV` (45_refisa_data.md R131, R132). -/
def Obligations.MviMov : Prop :=
  ∀ (s : State) (rd b : Byte),
    (Stands (.mvi rd b) s →
      (8 ≤ rd.toNat → FaultsWith (exec (.mvi rd b) s) .unknownRegister) ∧
      (rd.toNat < 8 → ∀ p : Nat, p = (if rd = 0 then b.toNat else s.pc) + 3 →
        (p ≤ 255 → exec (.mvi rd b) s =
          .next (finish ((s.setAcc b.toNat).regPut rd.toNat b.toNat) 3 p)) ∧
        (255 < p → FaultsWith (exec (.mvi rd b) s) .valueTooWide))) ∧
    (Stands (.mov rd b) s →
      (8 ≤ rd.toNat ∨ 8 ≤ b.toNat → FaultsWith (exec (.mov rd b) s) .unknownRegister) ∧
      (rd.toNat < 8 → b.toNat < 8 →
        ∀ v p : Nat, v = s.regVal b.toNat → p = (if rd = 0 then v else s.pc) + 3 →
        (p ≤ 255 → exec (.mov rd b) s = .next (finish ((s.setAcc v).regPut rd.toNat v) 3 p)) ∧
        (255 < p → FaultsWith (exec (.mov rd b) s) .valueTooWide)))

/-- `LDM` and `LDX`: the address into `mar`, the byte there into `acc` and `rd` (45_refisa_data.md R133,
R135). -/
def Obligations.LdmLdx : Prop :=
  ∀ (s : State) (rd b : Byte),
    (Stands (.ldm rd b) s →
      (8 ≤ rd.toNat → FaultsWith (exec (.ldm rd b) s) .unknownRegister) ∧
      (rd.toNat < 8 → ∀ v p : Nat, v = (s.memByte b.toNat).toNat →
        p = (if rd = 0 then v else s.pc) + 3 →
        (p ≤ 255 → exec (.ldm rd b) s =
          .next (finish (((s.regPut 3 b.toNat).setAcc v).regPut rd.toNat v) 5 p)) ∧
        (255 < p → FaultsWith (exec (.ldm rd b) s) .valueTooWide))) ∧
    (Stands (.ldx rd b) s →
      (8 ≤ rd.toNat ∨ 8 ≤ b.toNat → FaultsWith (exec (.ldx rd b) s) .unknownRegister) ∧
      (rd.toNat < 8 → b.toNat < 8 →
        ∀ a v p : Nat, a = s.regVal b.toNat → v = (s.memByte a).toNat →
        p = (if rd = 0 then v else s.pc) + 3 →
        (p ≤ 255 → exec (.ldx rd b) s =
          .next (finish (((s.regPut 3 a).setAcc v).regPut rd.toNat v) 5 p)) ∧
        (255 < p → FaultsWith (exec (.ldx rd b) s) .valueTooWide)))

/-- `STM` and `STX`: the address into `mar`, then `rs`, read after `mar` is written, into memory there
(45_refisa_data.md R134, R136). -/
def Obligations.StmStx : Prop :=
  ∀ (s : State) (b rs : Byte),
    (Stands (.stm b rs) s →
      (8 ≤ rs.toNat → FaultsWith (exec (.stm b rs) s) .unknownRegister) ∧
      (rs.toNat < 8 → ∀ v : Nat, v = (s.regPut 3 b.toNat).regVal rs.toNat →
        (s.pc + 3 ≤ 255 → exec (.stm b rs) s =
          .next (finish (((s.regPut 3 b.toNat).setAcc v).memPut b.toNat 1 v) 5 (s.pc + 3))) ∧
        (255 < s.pc + 3 → FaultsWith (exec (.stm b rs) s) .valueTooWide))) ∧
    (Stands (.stx b rs) s →
      (8 ≤ b.toNat ∨ 8 ≤ rs.toNat → FaultsWith (exec (.stx b rs) s) .unknownRegister) ∧
      (b.toNat < 8 → rs.toNat < 8 →
        ∀ a v : Nat, a = s.regVal b.toNat → v = (s.regPut 3 a).regVal rs.toNat →
        (s.pc + 3 ≤ 255 → exec (.stx b rs) s =
          .next (finish (((s.regPut 3 a).setAcc v).memPut a 1 v) 5 (s.pc + 3))) ∧
        (255 < s.pc + 3 → FaultsWith (exec (.stx b rs) s) .valueTooWide)))

/-- `ADD`, `SUB` and `CMP` (45_refisa_data.md R137 to R139). -/
def Obligations.AddSubCmp : Prop :=
  ∀ s : State,
    (Stands .add s →
      (s.pc + 1 ≤ 255 →
        exec .add s = .next (finish (s.setAcc (s.regA + s.regB)) 1 (s.pc + 1))) ∧
      (s.pc = 255 → FaultsWith (exec .add s) .valueTooWide)) ∧
    (Stands .sub s →
      (s.regA < s.regB → FaultsWith (exec .sub s) .subUnderflow) ∧
      (s.regB ≤ s.regA → s.pc + 1 ≤ 255 →
        exec .sub s = .next (finish (s.setAcc (s.regA - s.regB)) 1 (s.pc + 1))) ∧
      (s.regB ≤ s.regA → s.pc = 255 → FaultsWith (exec .sub s) .valueTooWide)) ∧
    (Stands .cmp s →
      (s.pc + 1 ≤ 255 → exec .cmp s = .next (finish
        (s.regPut 4 (if s.regA = s.regB then 1 else if s.regB < s.regA then 2 else 0)) 1
        (s.pc + 1))) ∧
      (s.pc = 255 → FaultsWith (exec .cmp s) .valueTooWide))

/-- `PUSH`, `PSHI` and `PSHR`: `sp` one lower, the value in the slot there (45_refisa_data.md R140 to
R142). `PSHR sp` pushes the value `sp` had before. -/
def Obligations.PushInstructions : Prop :=
  ∀ (s : State) (b : Byte),
    (Stands .push s →
      (s.sp = 0 → FaultsWith (exec .push s) .subUnderflow) ∧
      (0 < s.sp → 255 < s.acc → FaultsWith (exec .push s) .valueTooWide) ∧
      (0 < s.sp → s.acc ≤ 255 →
        (s.pc + 1 ≤ 255 → exec .push s = .next (finish
          ((s.memPut (s.sp - 1) 1 s.acc).regPut 1 (s.sp - 1)) 1 (s.pc + 1))) ∧
        (s.pc = 255 → FaultsWith (exec .push s) .valueTooWide))) ∧
    (Stands (.pshi b) s →
      (s.sp = 0 → FaultsWith (exec (.pshi b) s) .subUnderflow) ∧
      (0 < s.sp →
        (s.pc + 2 ≤ 255 → exec (.pshi b) s = .next (finish
          (((s.setAcc b.toNat).memPut (s.sp - 1) 1 b.toNat).regPut 1 (s.sp - 1)) 3 (s.pc + 2))) ∧
        (255 < s.pc + 2 → FaultsWith (exec (.pshi b) s) .valueTooWide))) ∧
    (Stands (.pshr b) s →
      (8 ≤ b.toNat → FaultsWith (exec (.pshr b) s) .unknownRegister) ∧
      (b.toNat < 8 → s.sp = 0 → FaultsWith (exec (.pshr b) s) .subUnderflow) ∧
      (b.toNat < 8 → 0 < s.sp → ∀ v : Nat, v = s.regVal b.toNat →
        (s.pc + 2 ≤ 255 → exec (.pshr b) s = .next (finish
          (((s.setAcc v).memPut (s.sp - 1) 1 v).regPut 1 (s.sp - 1)) 3 (s.pc + 2))) ∧
        (255 < s.pc + 2 → FaultsWith (exec (.pshr b) s) .valueTooWide)))

/-- `POP` and `POPR`: the slot at `sp` into `acc`, the slot zeroed, `sp` one higher; `POPR` then writes the
register its operand byte names, which the pop itself zeroes when it is the slot (45_refisa_data.md R143,
R144, 20_memory.md R54). -/
def Obligations.PopInstructions : Prop :=
  ∀ (s : State) (rd : Byte),
    (Stands .pop s →
      (s.sp = 255 → FaultsWith (exec .pop s) .valueTooWide) ∧
      (s.sp < 255 →
        (s.pc + 1 ≤ 255 → exec .pop s = .next (finish
          (((s.setAcc (s.memByte s.sp).toNat).memClear s.sp 1).regPut 1 (s.sp + 1)) 1
          (s.pc + 1))) ∧
        (s.pc = 255 → FaultsWith (exec .pop s) .valueTooWide))) ∧
    (Stands (.popr rd) s →
      (s.sp = 255 → FaultsWith (exec (.popr rd) s) .valueTooWide) ∧
      (∀ id v p : Nat, id = (if s.sp = s.pc + 1 then 0 else rd.toNat) →
        v = (s.memByte s.sp).toNat → p = (if id = 0 then v else s.pc) + 2 → s.sp < 255 →
        (8 ≤ id → FaultsWith (exec (.popr rd) s) .unknownRegister) ∧
        (id < 8 → p ≤ 255 → exec (.popr rd) s = .next (finish
          ((((s.setAcc v).memClear s.sp 1).regPut 1 (s.sp + 1)).regPut id v) 3 p)) ∧
        (id < 8 → 255 < p → FaultsWith (exec (.popr rd) s) .valueTooWide)))

/-- `JMP` and `JPA`: the target exactly, no retire tick (46_refisa_control.md R146, R147). -/
def Obligations.JmpJpa : Prop :=
  ∀ (s : State) (b : Byte),
    (Stands (.jmp b) s →
      exec (.jmp b) s = .next (finish (s.setAcc b.toNat) 2 b.toNat)) ∧
    (Stands .jpa s →
      (s.acc ≤ 255 → exec .jpa s = .next (finish s 1 s.acc)) ∧
      (255 < s.acc → FaultsWith (exec .jpa s) .valueTooWide))

/-- The six plain conditional jumps: Compare writes the flags, `acc` gets the target whether or not the
jump fires, and it fires on exactly its relation (46_refisa_control.md R148 to R154). -/
def Obligations.PlainConditionalJumps : Prop :=
  ∀ (s : State) (b : Byte) (i : Instr),
    i = .jeq b ∨ i = .jne b ∨ i = .jgt b ∨ i = .jlt b ∨ i = .jle b ∨ i = .jnl b → Stands i s →
    ∀ t : State, t = (s.regPut 4
        (if s.regA = s.regB then 1 else if s.regB < s.regA then 2 else 0)).setAcc b.toNat →
    (jumpFires i s.regA s.regB = true → exec i s = .next (finish t 3 b.toNat)) ∧
    (jumpFires i s.regA s.regB = false →
      (s.pc + 2 ≤ 255 → exec i s = .next (finish t 4 (s.pc + 2))) ∧
      (255 < s.pc + 2 → FaultsWith (exec i s) .valueTooWide))

/-- `CALL`: the base pointer and the return address `A + 2` on the stack, the registers the context save
clobbers, and the target from the operand byte as it then stands (46_refisa_control.md R155, R156,
20_memory.md R54; the constant 2 is the spec's own decision, D17). -/
def Obligations.CallInstruction : Prop :=
  ∀ (s : State) (b : Byte), Stands (.call b) s →
    (s.sp < 2 → FaultsWith (exec (.call b) s) .subUnderflow) ∧
    (2 ≤ s.sp → 255 < s.pc + 2 → FaultsWith (exec (.call b) s) .valueTooWide) ∧
    (2 ≤ s.sp → s.pc + 2 ≤ 255 →
      ∀ (m t : State) (target : Nat),
        m = (s.memPut (s.sp - 1) 1 (s.regVal 2)).memPut (s.sp - 2) 1 (s.pc + 2) →
        target = (m.memByte (s.pc + 1)).toNat →
        t = ((((m.regPut 1 (s.sp - 2)).regPut 5 s.pc).regPut 6 2).regPut 3 (s.pc + 2)).setAcc
          target →
        exec (.call b) s = .next (finish t 16 target) ∧
        (s.sp ≠ s.pc + 2 → s.sp ≠ s.pc + 3 → target = b.toNat))

/-- `JGE`, the documented call-style jump: Compare, the context save whether or not it fires, and a jump
that fires when `reg_a` is at most `reg_b` (46_refisa_control.md R157; keeping the source's mask pair is
the spec's own decision, D16). -/
def Obligations.JgeInstruction : Prop :=
  ∀ (s : State) (b : Byte), Stands (.jge b) s →
    (s.sp < 2 → FaultsWith (exec (.jge b) s) .subUnderflow) ∧
    (2 ≤ s.sp → 255 < s.pc + 2 → FaultsWith (exec (.jge b) s) .valueTooWide) ∧
    (2 ≤ s.sp → s.pc + 2 ≤ 255 →
      ∀ (m t : State) (target : Nat),
        m = (s.memPut (s.sp - 1) 1 (s.regVal 2)).memPut (s.sp - 2) 1 (s.pc + 2) →
        target = (m.memByte (s.pc + 1)).toNat →
        t = (((((m.regPut 4
            (if s.regA = s.regB then 1 else if s.regB < s.regA then 2 else 0)).regPut 1
            (s.sp - 2)).regPut 5 s.pc).regPut 6 2).regPut 3 (s.pc + 2)).setAcc target →
        (s.regA ≤ s.regB → exec (.jge b) s = .next (finish t 17 target)) ∧
        (s.regB < s.regA → exec (.jge b) s = .next (finish t 18 (s.pc + 2))) ∧
        (s.sp ≠ s.pc + 2 → s.sp ≠ s.pc + 3 → target = b.toNat))

/-- `RET`: the return address and the saved base pointer off the stack, both slots zeroed, and control
exactly at the return address (46_refisa_control.md R158). -/
def Obligations.RetInstruction : Prop :=
  ∀ s : State, Stands .ret s →
    (255 < s.sp + 2 → FaultsWith (exec .ret s) .valueTooWide) ∧
    (s.sp + 2 ≤ 255 → ∀ r p : Nat, r = (s.memByte s.sp).toNat → p = (s.memByte (s.sp + 1)).toNat →
      exec .ret s = .next (finish
        (((((s.memClear s.sp 2).regPut 1 (s.sp + 2)).regPut 3 r).regPut 2 p).setAcc r) 6 r))

/-- A call and the matching return: from any state whose `sp` and two frame slots are those the call left,
`RET` goes on after the call, with the caller's base pointer and stack pointer, and zeroes the frame
(46_refisa_control.md R159). -/
def Obligations.ReturnAfterCall : Prop :=
  ∀ (s t m : State) (b : Byte), Stands (.call b) s → exec (.call b) s = .next t →
    Stands .ret m → m.sp = t.sp → m.memByte t.sp = t.memByte t.sp →
    m.memByte (t.sp + 1) = t.memByte (t.sp + 1) →
    t.sp + 2 = s.sp ∧
    ∃ u : State, exec .ret m = .next u ∧ Idle u ∧ u.pc = s.pc + 2 ∧ u.sp = s.sp ∧
      u.regVal 2 = s.regVal 2 ∧ u.memByte t.sp = 0 ∧ u.memByte (t.sp + 1) = 0 ∧
      (∀ a : Nat, a ≠ t.sp → a ≠ t.sp + 1 → u.memByte a = m.memByte a) ∧
      (∀ r : Nat, 4 ≤ r → u.regVal r = m.regVal r)

/-- The register frame of the thirty instructions: every register but those the instruction writes keeps
its value, and `acc` in those that name it neither as source nor as destination; the configuration,
storage and the latch are unchanged, and only `HLT` halts (45_refisa_data.md R125, 70_reset_and_hazards.md
R199). -/
def Obligations.InstructionRegisterFrame : Prop :=
  ∀ (i : Instr) (s t : State), i.isReference = true → Stands i s → exec i s = .next t →
    (∀ r : Nat, r ∉ writtenRegs i → t.regVal r = s.regVal r) ∧
    (keepsAcc i = true → t.acc = s.acc) ∧
    t.cfg = s.cfg ∧ t.storage = s.storage ∧ t.fatal = none ∧
    (i ≠ .hlt → t.halted = false ∧ t.currentOpcode = none) ∧
    (i = .hlt → t.regVal 0 = s.regVal 0)

/-- The memory frame of the thirty instructions: every byte reads as before but those at the addresses
the instruction stores to (45_refisa_data.md R125, 20_memory.md R47). -/
def Obligations.InstructionMemoryFrame : Prop :=
  ∀ (i : Instr) (s t : State), i.isReference = true → Stands i s → exec i s = .next t →
    ∀ a : Nat, a ∉ storedBytes i s → t.memByte a = s.memByte a

/-- The ticks each instruction takes, and that every state before the last is in the middle of the
instruction (70_reset_and_hazards.md R204). -/
def Obligations.TicksOfEachInstruction : Prop :=
  ∀ (i : Instr) (s t : State), i.isReference = true → Stands i s → exec i s = .next t →
    ticks (tickCount i s) s = .next t ∧
    ∀ k : Nat, 0 < k → k < tickCount i s → ∃ m : State, ticks k s = .next m ∧ Executing m

/-- An instruction whose operand bytes run past the end of memory raises when a micro-operation reads the
missing byte, MEM_RANGE, unless an earlier one raises: a register id in the byte that is there, a pop at
`sp` 255, or the frame and the return address of the call-style jumps (45_refisa_data.md R128 to R136, R141,
R142, R144, 46_refisa_control.md R146, R148, R155 to R157). -/
def Obligations.TruncatedInstructionFaults : Prop :=
  ∀ s : State, InReference s → Idle s →
    (s.pc = 255 → (s.memByte 255).toNat ∈ [0x10, 0x11, 0x12, 0x13, 0x14, 0x20, 0x21, 0x22, 0x23, 0x41,
      0x42, 0x50, 0x52, 0x53, 0x54, 0x55, 0x56, 0x58] → FaultsWith (step s) .memRange) ∧
    (s.pc = 254 → (s.memByte 254).toNat ∈ [0x13, 0x14, 0x20, 0x21, 0x22] →
      FaultsWith (step s) .memRange) ∧
    (s.pc = 254 → s.memByte 254 = 0x23 →
      (8 ≤ (s.memByte 255).toNat → FaultsWith (step s) .unknownRegister) ∧
      ((s.memByte 255).toNat < 8 → FaultsWith (step s) .memRange)) ∧
    (s.pc = 255 → s.memByte 255 = 0x44 →
      (s.sp = 255 → FaultsWith (step s) .valueTooWide) ∧
      (s.sp < 255 → FaultsWith (step s) .memRange)) ∧
    (s.pc = 255 → s.memByte 255 = 0x57 ∨ s.memByte 255 = 0x60 →
      (s.sp < 2 → FaultsWith (step s) .subUnderflow) ∧
      (2 ≤ s.sp → FaultsWith (step s) .valueTooWide))

/-! ### Reset and the host interface -/

/-- Reset: `sp` is 255 and everything else zero, Idle, with no fatal error; it is the construction of the
reference configuration, and what a hardware reset returns to. Of any well-formed configuration, the
construction has `SP_RESET` and `PC_RESET` in their registers and everything else zero, and meets the
invariant (10_state.md R37, 70_reset_and_hazards.md R180). The zeros and 255 are the spec's own decisions
(D5, D6; log 5). That `PC_RESET` stands even where the windows of `pc` and `sp` overlap is the model's own
choice (log 12). -/
def Obligations.ResetState : Prop :=
  (State.reset.cfg = referenceConfig ∧ State.reset.sp = 255 ∧
    (∀ r : Nat, r ≠ 1 → State.reset.regVal r = 0) ∧
    (∀ a : Nat, State.reset.memByte a = 0 ∧ Memory.read State.reset.storage a = 0) ∧
    State.reset.acc = 0 ∧ State.reset.currentOpcode = none ∧ State.reset.currentStep = 0 ∧
    State.reset.halted = false ∧ State.reset.fatal = none ∧ Idle State.reset ∧
    State.construct referenceConfig = State.reset ∧
    (∀ s : State, s.cfg = referenceConfig → s.hardReset = State.reset)) ∧
  (∀ (c : Config) (dp ds : RegDescriptor) (t : State), c.wellFormed = true →
    c.regs[c.pcId]? = some dp → c.regs[c.spId]? = some ds → t = State.construct c →
    t.cfg = c ∧ t.pc = c.pcReset ∧ (dp.disjoint ds = true → t.sp = c.spReset) ∧
    t.rf.length = c.rfLen ∧
    (∀ k : Nat, k < dp.offset ∨ dp.offset + dp.size ≤ k → k < ds.offset ∨ ds.offset + ds.size ≤ k →
      t.rf.getD k 0 = 0) ∧
    (c.noOverlap = true → ∀ r : Nat, r ≠ c.pcId → r ≠ c.spId → t.regVal r = 0) ∧
    (∀ a : Nat, t.memByte a = 0 ∧ Memory.read t.storage a = 0) ∧
    t.acc = 0 ∧ t.currentOpcode = none ∧ t.currentStep = 0 ∧ t.halted = false ∧ t.fatal = none ∧
    Idle t ∧ Inv t ∧ ∀ s : State, s.cfg = c → s.hardReset = t)

/-- The host's register operations: a write of the register's size succeeds, replaces the window and
nothing else, and reads back, by name as by id; another length is a size mismatch and an unknown register a
failure, without a state; `add` appends a descriptor, whose id is its position, and moves no other
(10_state.md R15, R18, 60_exceptions.md R176; D21 is the spec's own decision). -/
def Obligations.HostRegisterOperations : Prop :=
  (∀ (s : State) (r : RegRef) (bs : List Byte), s.cfg.rfLen ≤ s.rf.length →
    (∀ d : RegDescriptor, s.resolve r = .ok d →
      s.hostRead r = .ok (readWindow s.rf d.offset d.size) ∧
      (bs.length ≠ d.size → s.hostWrite r bs = .error .sizeMismatch) ∧
      (bs.length = d.size → ∃ t : State, s.hostWrite r bs = .ok t ∧ t = s.setRf t.rf ∧
        t.hostRead r = .ok bs ∧ t.rf.length = s.rf.length ∧
        ∀ k : Nat, k < d.offset ∨ d.offset + d.size ≤ k → t.rf[k]? = s.rf[k]?)) ∧
    (∀ e : HostError, s.resolve r = .error e →
      e = .unknownRegister ∧ s.hostRead r = .error e ∧ s.hostWrite r bs = .error e)) ∧
  newRegisterFile = [] ∧
  (∀ (c : Config) (name : String) (size offset : Nat) (regs : List RegDescriptor),
    regs = addRegister c.regs name size offset →
    regs.length = c.regs.length + 1 ∧ regs[c.regs.length]? = some ⟨name, size, offset⟩ ∧
    (∀ i : Nat, i < c.regs.length → regs[i]? = c.regs[i]?) ∧
    (c.regsOk = true → (∀ d ∈ c.regs, d.name ≠ name) → 0 < size → c.regs.length < 256 →
      ({ c with regs := regs } : Config).regsOk = true ∧
      Config.resolveId { c with regs := regs } (.byName name) = some c.regs.length))

/-- The host's store operations on either store: a range inside the store is written, read back and
cleared, and nothing outside it changes; a range outside it fails (20_memory.md R44; half-open ranges,
D19, and failures that change nothing, D21, are the spec's own decisions). -/
def Obligations.HostStoreOperations : Prop :=
  ∀ (s : State) (k : StoreId) (a b : Nat) (bs : List Byte), Memory.wf (s.store k) = true →
    (s.storeSize k < a + bs.length → s.writeRange k a bs = .error .outOfRange) ∧
    (a + bs.length ≤ s.storeSize k → ∃ t : State, s.writeRange k a bs = .ok t ∧
      t = s.setStore k (t.store k) ∧ t.readRange k a (a + bs.length) = .ok bs ∧
      ∀ x : Nat, x < a ∨ a + bs.length ≤ x →
        Memory.read (t.store k) x = Memory.read (s.store k) x) ∧
    (b < a ∨ s.storeSize k < b →
      s.readRange k a b = .error .outOfRange ∧ s.clearRange k a b = .error .outOfRange) ∧
    (a ≤ b → b ≤ s.storeSize k → ∃ t : State, s.clearRange k a b = .ok t ∧
      t = s.setStore k (t.store k) ∧
      ∀ x : Nat, Memory.read (t.store k) x =
        if a ≤ x ∧ x < b then 0 else Memory.read (s.store k) x) ∧
    (s.storeRead k a = if a < s.storeSize k then .ok (Memory.read (s.store k) a)
      else .error .outOfRange)

end
end

