-- ==== Sys2Proof/Laws/State.lean ====
section
/-! SUPPORT. One lemma per field per update of State: no later proof unfolds a record update. -/

namespace Sys2Proof.Machine

@[simp] theorem State.setCfg_cfg (s : State) (v : Config) : (s.setCfg v).cfg = v := rfl
@[simp] theorem State.setCfg_mem (s : State) (v : Config) : (s.setCfg v).mem = s.mem := rfl
@[simp] theorem State.setCfg_storage (s : State) (v : Config) : (s.setCfg v).storage = s.storage := rfl
@[simp] theorem State.setCfg_rf (s : State) (v : Config) : (s.setCfg v).rf = s.rf := rfl
@[simp] theorem State.setCfg_acc (s : State) (v : Config) : (s.setCfg v).acc = s.acc := rfl
@[simp] theorem State.setCfg_currentOpcode (s : State) (v : Config) : (s.setCfg v).currentOpcode = s.currentOpcode := rfl
@[simp] theorem State.setCfg_currentStep (s : State) (v : Config) : (s.setCfg v).currentStep = s.currentStep := rfl
@[simp] theorem State.setCfg_halted (s : State) (v : Config) : (s.setCfg v).halted = s.halted := rfl
@[simp] theorem State.setCfg_fatal (s : State) (v : Config) : (s.setCfg v).fatal = s.fatal := rfl

@[simp] theorem State.setMem_cfg (s : State) (v : Memory) : (s.setMem v).cfg = s.cfg := rfl
@[simp] theorem State.setMem_mem (s : State) (v : Memory) : (s.setMem v).mem = v := rfl
@[simp] theorem State.setMem_storage (s : State) (v : Memory) : (s.setMem v).storage = s.storage := rfl
@[simp] theorem State.setMem_rf (s : State) (v : Memory) : (s.setMem v).rf = s.rf := rfl
@[simp] theorem State.setMem_acc (s : State) (v : Memory) : (s.setMem v).acc = s.acc := rfl
@[simp] theorem State.setMem_currentOpcode (s : State) (v : Memory) : (s.setMem v).currentOpcode = s.currentOpcode := rfl
@[simp] theorem State.setMem_currentStep (s : State) (v : Memory) : (s.setMem v).currentStep = s.currentStep := rfl
@[simp] theorem State.setMem_halted (s : State) (v : Memory) : (s.setMem v).halted = s.halted := rfl
@[simp] theorem State.setMem_fatal (s : State) (v : Memory) : (s.setMem v).fatal = s.fatal := rfl

@[simp] theorem State.setStorage_cfg (s : State) (v : Memory) : (s.setStorage v).cfg = s.cfg := rfl
@[simp] theorem State.setStorage_mem (s : State) (v : Memory) : (s.setStorage v).mem = s.mem := rfl
@[simp] theorem State.setStorage_storage (s : State) (v : Memory) : (s.setStorage v).storage = v := rfl
@[simp] theorem State.setStorage_rf (s : State) (v : Memory) : (s.setStorage v).rf = s.rf := rfl
@[simp] theorem State.setStorage_acc (s : State) (v : Memory) : (s.setStorage v).acc = s.acc := rfl
@[simp] theorem State.setStorage_currentOpcode (s : State) (v : Memory) : (s.setStorage v).currentOpcode = s.currentOpcode := rfl
@[simp] theorem State.setStorage_currentStep (s : State) (v : Memory) : (s.setStorage v).currentStep = s.currentStep := rfl
@[simp] theorem State.setStorage_halted (s : State) (v : Memory) : (s.setStorage v).halted = s.halted := rfl
@[simp] theorem State.setStorage_fatal (s : State) (v : Memory) : (s.setStorage v).fatal = s.fatal := rfl

@[simp] theorem State.setRf_cfg (s : State) (v : List Byte) : (s.setRf v).cfg = s.cfg := rfl
@[simp] theorem State.setRf_mem (s : State) (v : List Byte) : (s.setRf v).mem = s.mem := rfl
@[simp] theorem State.setRf_storage (s : State) (v : List Byte) : (s.setRf v).storage = s.storage := rfl
@[simp] theorem State.setRf_rf (s : State) (v : List Byte) : (s.setRf v).rf = v := rfl
@[simp] theorem State.setRf_acc (s : State) (v : List Byte) : (s.setRf v).acc = s.acc := rfl
@[simp] theorem State.setRf_currentOpcode (s : State) (v : List Byte) : (s.setRf v).currentOpcode = s.currentOpcode := rfl
@[simp] theorem State.setRf_currentStep (s : State) (v : List Byte) : (s.setRf v).currentStep = s.currentStep := rfl
@[simp] theorem State.setRf_halted (s : State) (v : List Byte) : (s.setRf v).halted = s.halted := rfl
@[simp] theorem State.setRf_fatal (s : State) (v : List Byte) : (s.setRf v).fatal = s.fatal := rfl

@[simp] theorem State.setAcc_cfg (s : State) (v : Nat) : (s.setAcc v).cfg = s.cfg := rfl
@[simp] theorem State.setAcc_mem (s : State) (v : Nat) : (s.setAcc v).mem = s.mem := rfl
@[simp] theorem State.setAcc_storage (s : State) (v : Nat) : (s.setAcc v).storage = s.storage := rfl
@[simp] theorem State.setAcc_rf (s : State) (v : Nat) : (s.setAcc v).rf = s.rf := rfl
@[simp] theorem State.setAcc_acc (s : State) (v : Nat) : (s.setAcc v).acc = v := rfl
@[simp] theorem State.setAcc_currentOpcode (s : State) (v : Nat) : (s.setAcc v).currentOpcode = s.currentOpcode := rfl
@[simp] theorem State.setAcc_currentStep (s : State) (v : Nat) : (s.setAcc v).currentStep = s.currentStep := rfl
@[simp] theorem State.setAcc_halted (s : State) (v : Nat) : (s.setAcc v).halted = s.halted := rfl
@[simp] theorem State.setAcc_fatal (s : State) (v : Nat) : (s.setAcc v).fatal = s.fatal := rfl

@[simp] theorem State.setCurrentOpcode_cfg (s : State) (v : Option Byte) : (s.setCurrentOpcode v).cfg = s.cfg := rfl
@[simp] theorem State.setCurrentOpcode_mem (s : State) (v : Option Byte) : (s.setCurrentOpcode v).mem = s.mem := rfl
@[simp] theorem State.setCurrentOpcode_storage (s : State) (v : Option Byte) : (s.setCurrentOpcode v).storage = s.storage := rfl
@[simp] theorem State.setCurrentOpcode_rf (s : State) (v : Option Byte) : (s.setCurrentOpcode v).rf = s.rf := rfl
@[simp] theorem State.setCurrentOpcode_acc (s : State) (v : Option Byte) : (s.setCurrentOpcode v).acc = s.acc := rfl
@[simp] theorem State.setCurrentOpcode_currentOpcode (s : State) (v : Option Byte) : (s.setCurrentOpcode v).currentOpcode = v := rfl
@[simp] theorem State.setCurrentOpcode_currentStep (s : State) (v : Option Byte) : (s.setCurrentOpcode v).currentStep = s.currentStep := rfl
@[simp] theorem State.setCurrentOpcode_halted (s : State) (v : Option Byte) : (s.setCurrentOpcode v).halted = s.halted := rfl
@[simp] theorem State.setCurrentOpcode_fatal (s : State) (v : Option Byte) : (s.setCurrentOpcode v).fatal = s.fatal := rfl

@[simp] theorem State.setCurrentStep_cfg (s : State) (v : Nat) : (s.setCurrentStep v).cfg = s.cfg := rfl
@[simp] theorem State.setCurrentStep_mem (s : State) (v : Nat) : (s.setCurrentStep v).mem = s.mem := rfl
@[simp] theorem State.setCurrentStep_storage (s : State) (v : Nat) : (s.setCurrentStep v).storage = s.storage := rfl
@[simp] theorem State.setCurrentStep_rf (s : State) (v : Nat) : (s.setCurrentStep v).rf = s.rf := rfl
@[simp] theorem State.setCurrentStep_acc (s : State) (v : Nat) : (s.setCurrentStep v).acc = s.acc := rfl
@[simp] theorem State.setCurrentStep_currentOpcode (s : State) (v : Nat) : (s.setCurrentStep v).currentOpcode = s.currentOpcode := rfl
@[simp] theorem State.setCurrentStep_currentStep (s : State) (v : Nat) : (s.setCurrentStep v).currentStep = v := rfl
@[simp] theorem State.setCurrentStep_halted (s : State) (v : Nat) : (s.setCurrentStep v).halted = s.halted := rfl
@[simp] theorem State.setCurrentStep_fatal (s : State) (v : Nat) : (s.setCurrentStep v).fatal = s.fatal := rfl

@[simp] theorem State.setHalted_cfg (s : State) (v : Bool) : (s.setHalted v).cfg = s.cfg := rfl
@[simp] theorem State.setHalted_mem (s : State) (v : Bool) : (s.setHalted v).mem = s.mem := rfl
@[simp] theorem State.setHalted_storage (s : State) (v : Bool) : (s.setHalted v).storage = s.storage := rfl
@[simp] theorem State.setHalted_rf (s : State) (v : Bool) : (s.setHalted v).rf = s.rf := rfl
@[simp] theorem State.setHalted_acc (s : State) (v : Bool) : (s.setHalted v).acc = s.acc := rfl
@[simp] theorem State.setHalted_currentOpcode (s : State) (v : Bool) : (s.setHalted v).currentOpcode = s.currentOpcode := rfl
@[simp] theorem State.setHalted_currentStep (s : State) (v : Bool) : (s.setHalted v).currentStep = s.currentStep := rfl
@[simp] theorem State.setHalted_halted (s : State) (v : Bool) : (s.setHalted v).halted = v := rfl
@[simp] theorem State.setHalted_fatal (s : State) (v : Bool) : (s.setHalted v).fatal = s.fatal := rfl

@[simp] theorem State.setFatal_cfg (s : State) (v : Option FatalCause) : (s.setFatal v).cfg = s.cfg := rfl
@[simp] theorem State.setFatal_mem (s : State) (v : Option FatalCause) : (s.setFatal v).mem = s.mem := rfl
@[simp] theorem State.setFatal_storage (s : State) (v : Option FatalCause) : (s.setFatal v).storage = s.storage := rfl
@[simp] theorem State.setFatal_rf (s : State) (v : Option FatalCause) : (s.setFatal v).rf = s.rf := rfl
@[simp] theorem State.setFatal_acc (s : State) (v : Option FatalCause) : (s.setFatal v).acc = s.acc := rfl
@[simp] theorem State.setFatal_currentOpcode (s : State) (v : Option FatalCause) : (s.setFatal v).currentOpcode = s.currentOpcode := rfl
@[simp] theorem State.setFatal_currentStep (s : State) (v : Option FatalCause) : (s.setFatal v).currentStep = s.currentStep := rfl
@[simp] theorem State.setFatal_halted (s : State) (v : Option FatalCause) : (s.setFatal v).halted = s.halted := rfl
@[simp] theorem State.setFatal_fatal (s : State) (v : Option FatalCause) : (s.setFatal v).fatal = v := rfl

/-- Two states with equal fields are equal. -/
theorem State.ext_fields {s t : State} (h1 : s.cfg = t.cfg) (h2 : s.mem = t.mem)
    (h3 : s.storage = t.storage) (h4 : s.rf = t.rf) (h5 : s.acc = t.acc)
    (h6 : s.currentOpcode = t.currentOpcode) (h7 : s.currentStep = t.currentStep)
    (h8 : s.halted = t.halted) (h9 : s.fatal = t.fatal) : s = t := by
  cases s; cases t; simp_all

end Sys2Proof.Machine
end

