-- ==== Sys2Proof/Laws/Memory.lean ====
section
/-! SUPPORT. The laws of the byte store: read after write, and every operation keeps the canonical
form and the store's bounds. -/

namespace Sys2Proof.Machine

/-! ### One byte -/

theorem Memory.wfFrom_mono {m : Memory} {lo lo' : Nat} (hle : lo' ≤ lo)
    (h : Memory.wfFrom lo m = true) : Memory.wfFrom lo' m = true := by
  cases m with
  | nil => rfl
  | cons c m =>
    simp only [Memory.wfFrom, Bool.and_eq_true, decide_eq_true_eq] at h ⊢
    exact ⟨⟨by omega, h.1.2⟩, h.2⟩

/-- Below its first address a store in form reads as unlisted. -/
theorem Memory.read_below {m : Memory} {lo a : Nat} (ha : a < lo)
    (h : Memory.wfFrom lo m = true) : Memory.read m a = Memory.unlisted := by
  induction m generalizing lo with
  | nil => rfl
  | cons c m ih =>
    simp only [Memory.wfFrom, Bool.and_eq_true, decide_eq_true_eq] at h
    have : c.1 ≠ a := by omega
    simp only [Memory.read, this, if_false]
    exact ih (by omega) h.2

theorem Memory.write_wfFrom {m : Memory} {lo a : Nat} {b : Byte} (ha : lo ≤ a)
    (h : Memory.wfFrom lo m = true) : Memory.wfFrom lo (Memory.write m a b) = true := by
  induction m generalizing lo with
  | nil =>
    by_cases hb : b = Memory.unlisted
    · simp [Memory.write, hb, Memory.wfFrom]
    · simp [Memory.write, hb, Memory.wfFrom, ha]
  | cons c m ih =>
    have h' := h
    simp only [Memory.wfFrom, Bool.and_eq_true, decide_eq_true_eq] at h
    obtain ⟨⟨h1, h2⟩, h3⟩ := h
    simp only [Memory.write]
    by_cases hlt : a < c.1
    · by_cases hb : b = Memory.unlisted
      · simpa [hlt, hb] using h'
      · simp [hlt, hb, Memory.wfFrom, ha, h2, Memory.wfFrom_mono (Nat.le_refl _) h3]
    · by_cases heq : a = c.1
      · by_cases hb : b = Memory.unlisted
        · simp only [heq, hb, if_true, if_false, lt_self_iff_false]
          exact Memory.wfFrom_mono (by omega) h3
        · simp [heq, hb, Memory.wfFrom, h3, h1]
      · simp only [hlt, heq, if_false, Memory.wfFrom, Bool.and_eq_true, decide_eq_true_eq]
        exact ⟨⟨h1, h2⟩, ih (by omega) h3⟩

/-- A write keeps the canonical form. -/
theorem Memory.write_wf {m : Memory} (a : Nat) (b : Byte) (h : Memory.wf m = true) :
    Memory.wf (Memory.write m a b) = true :=
  Memory.write_wfFrom (Nat.zero_le a) h

theorem Memory.read_write_same_from {m : Memory} {lo a : Nat} (b : Byte)
    (h : Memory.wfFrom lo m = true) : Memory.read (Memory.write m a b) a = b := by
  induction m generalizing lo with
  | nil =>
    by_cases hb : b = Memory.unlisted <;> simp [Memory.write, hb, Memory.read]
  | cons c m ih =>
    have h' := h
    simp only [Memory.wfFrom, Bool.and_eq_true, decide_eq_true_eq] at h
    simp only [Memory.write]
    by_cases hlt : a < c.1
    · by_cases hb : b = Memory.unlisted
      · simp only [hlt, hb, if_true]
        have : c.1 ≠ a := by omega
        simp only [Memory.read, this, if_false]
        exact Memory.read_below (by omega) h.2
      · simp [hlt, hb, Memory.read]
    · by_cases heq : a = c.1
      · by_cases hb : b = Memory.unlisted
        · simp only [heq, hb, if_true, if_false, lt_self_iff_false]
          exact Memory.read_below (by omega) h.2
        · simp [heq, hb, Memory.read]
      · have : c.1 ≠ a := fun e => heq e.symm
        simp only [hlt, heq, if_false, Memory.read, this]
        exact ih h.2

/-- Reading the byte just written gives it back. -/
theorem Memory.read_write_same {m : Memory} (a : Nat) (b : Byte) (h : Memory.wf m = true) :
    Memory.read (Memory.write m a b) a = b :=
  Memory.read_write_same_from b h

/-- A write leaves every other address alone. -/
theorem Memory.read_write_ne {m : Memory} {a a' : Nat} (b : Byte) (hne : a' ≠ a) :
    Memory.read (Memory.write m a b) a' = Memory.read m a' := by
  induction m with
  | nil =>
    by_cases hb : b = Memory.unlisted
    · simp [Memory.write, hb]
    · simp [Memory.write, hb, Memory.read, hne.symm]
  | cons c m ih =>
    simp only [Memory.write]
    by_cases hlt : a < c.1
    · by_cases hb : b = Memory.unlisted
      · simp [hlt, hb]
      · simp [hlt, hb, Memory.read, hne.symm]
    · by_cases heq : a = c.1
      · have : c.1 ≠ a' := by omega
        by_cases hb : b = Memory.unlisted
        · simp [heq, hb, Memory.read, this]
        · simp [heq, hb, Memory.read, this]
      · simp only [hlt, heq, if_false, Memory.read, ih]

/-- A write inside the store lists no byte outside it. -/
theorem Memory.write_within {m : Memory} {size a : Nat} (b : Byte) (ha : a < size)
    (h : Memory.within size m = true) : Memory.within size (Memory.write m a b) = true := by
  induction m with
  | nil =>
    by_cases hb : b = Memory.unlisted <;> simp [Memory.write, hb, Memory.within, ha]
  | cons c m ih =>
    have hc : c.1 < size ∧ Memory.within size m = true := by simpa [Memory.within] using h
    have hcons (e : Host.Cell) (t : Memory) :
        Memory.within size (e :: t) = (decide (e.1 < size) && Memory.within size t) := rfl
    simp only [Memory.write]
    split_ifs
    · exact h
    · simpa [hcons, ha] using hc
    · exact hc.2
    · simpa [hcons, ha] using hc.2
    · simpa [hcons, hc.1] using ih hc.2

theorem Memory.wfFrom_ext {m m' : Memory} {lo : Nat} (h : Memory.wfFrom lo m = true)
    (h' : Memory.wfFrom lo m' = true) (heq : ∀ a, Memory.read m a = Memory.read m' a) : m = m' := by
  induction m generalizing m' lo with
  | nil =>
    cases m' with
    | nil => rfl
    | cons c m' =>
      simp only [Memory.wfFrom, Bool.and_eq_true, decide_eq_true_eq] at h'
      have := heq c.1
      simp only [Memory.read, if_true] at this
      exact absurd this.symm h'.1.2
  | cons c m ih =>
    have hh := h
    simp only [Memory.wfFrom, Bool.and_eq_true, decide_eq_true_eq] at h
    cases m' with
    | nil =>
      have := heq c.1
      simp only [Memory.read, if_true] at this
      exact absurd this h.1.2
    | cons c' m' =>
      have hh' := h'
      simp only [Memory.wfFrom, Bool.and_eq_true, decide_eq_true_eq] at h'
      have hc : c.1 = c'.1 := by
        rcases Nat.lt_trichotomy c.1 c'.1 with hlt | heq' | hgt
        · have e := heq c.1
          have hne : c'.1 ≠ c.1 := by omega
          simp only [Memory.read, if_true, hne, if_false] at e
          rw [Memory.read_below (lo := c'.1 + 1) (by omega) h'.2] at e
          exact absurd e h.1.2
        · exact heq'
        · have e := heq c'.1
          have hne : c.1 ≠ c'.1 := by omega
          simp only [Memory.read, if_true, hne, if_false] at e
          rw [Memory.read_below (lo := c.1 + 1) (by omega) h.2] at e
          exact absurd e.symm h'.1.2
      have hx : c.2 = c'.2 := by
        have e := heq c.1
        simpa only [Memory.read, if_true, hc] using e
      have hm : m = m' := by
        refine ih h.2 (by rw [hc]; exact h'.2) fun a => ?_
        by_cases ha : c.1 = a
        · subst ha
          rw [Memory.read_below (Nat.lt_succ_self c.1) h.2,
            Memory.read_below (by omega) h'.2]
        · have e := heq a
          have ha' : ¬ c'.1 = a := by rw [← hc]; exact ha
          simpa only [Memory.read, ha, ha', if_false] using e
      subst hm
      cases c; cases c'; simp_all

/-- Two stores in form that read alike are the same list. -/
theorem Memory.ext_of_read {m m' : Memory} (h : Memory.wf m = true) (h' : Memory.wf m' = true)
    (heq : ∀ a, Memory.read m a = Memory.read m' a) : m = m' :=
  Memory.wfFrom_ext h h' heq

/-! ### Byte strings -/

@[simp] theorem Memory.readBytes_length (m : Memory) (a n : Nat) :
    (Memory.readBytes m a n).length = n := by
  induction n generalizing a with
  | zero => rfl
  | succ n ih => simp [Memory.readBytes, ih]

theorem Memory.readBytes_getElem? (m : Memory) (a n k : Nat) (hk : k < n) :
    (Memory.readBytes m a n)[k]? = some (Memory.read m (a + k)) := by
  induction n generalizing a k with
  | zero => omega
  | succ n ih =>
    cases k with
    | zero => simp [Memory.readBytes]
    | succ k =>
      have := ih (a + 1) k (by omega)
      simp only [Memory.readBytes, List.getElem?_cons_succ, this]
      rw [show a + 1 + k = a + (k + 1) by omega]

/-- Byte strings read alike where every byte does. -/
theorem Memory.readBytes_congr {m m' : Memory} {a n : Nat}
    (h : ∀ k, k < n → Memory.read m (a + k) = Memory.read m' (a + k)) :
    Memory.readBytes m a n = Memory.readBytes m' a n := by
  induction n generalizing a with
  | zero => rfl
  | succ n ih =>
    simp only [Memory.readBytes]
    have h0 := h 0 (by omega)
    simp only [Nat.add_zero] at h0
    rw [h0, ih fun k hk => ?_]
    have := h (k + 1) (by omega)
    rwa [show a + (k + 1) = a + 1 + k by omega] at this

/-- Writing bytes keeps the canonical form. -/
theorem Memory.writeBytes_wf {m : Memory} (a : Nat) (bs : List Byte) (h : Memory.wf m = true) :
    Memory.wf (Memory.writeBytes m a bs) = true := by
  induction bs generalizing m a with
  | nil => exact h
  | cons b bs ih => exact ih (a + 1) (Memory.write_wf a b h)

/-- Writing bytes inside the store lists no byte outside it. -/
theorem Memory.writeBytes_within {m : Memory} {size a : Nat} {bs : List Byte}
    (ha : a + bs.length ≤ size) (h : Memory.within size m = true) :
    Memory.within size (Memory.writeBytes m a bs) = true := by
  induction bs generalizing m a with
  | nil => exact h
  | cons b bs ih =>
    simp only [List.length_cons] at ha
    exact ih (by omega) (Memory.write_within b (by omega) h)

/-- Outside the bytes written nothing changes. -/
theorem Memory.read_writeBytes_outside {m : Memory} {a a' : Nat} {bs : List Byte}
    (h : a' < a ∨ a + bs.length ≤ a') :
    Memory.read (Memory.writeBytes m a bs) a' = Memory.read m a' := by
  induction bs generalizing m a with
  | nil => rfl
  | cons b bs ih =>
    simp only [List.length_cons] at h
    simp only [Memory.writeBytes]
    rw [ih (by omega), Memory.read_write_ne b (by omega)]

/-- The bytes written read back. -/
theorem Memory.read_writeBytes_inside {m : Memory} {a k : Nat} {bs : List Byte}
    (hwf : Memory.wf m = true) (hk : k < bs.length) :
    Memory.read (Memory.writeBytes m a bs) (a + k) = bs.getD k 0 := by
  induction bs generalizing m a k with
  | nil => simp at hk
  | cons b bs ih =>
    simp only [Memory.writeBytes]
    cases k with
    | zero =>
      simp only [Nat.add_zero]
      rw [Memory.read_writeBytes_outside (a := a + 1) (Or.inl (by omega)),
        Memory.read_write_same a b hwf]
      rfl
    | succ k =>
      rw [show a + (k + 1) = a + 1 + k by omega,
        ih (Memory.write_wf a b hwf) (by simpa using hk)]
      rfl

/-- Reading a byte string just written gives it back. -/
theorem Memory.readBytes_writeBytes_same {m : Memory} {a : Nat} {bs : List Byte}
    (hwf : Memory.wf m = true) :
    Memory.readBytes (Memory.writeBytes m a bs) a bs.length = bs := by
  apply List.ext_getElem?
  intro k
  by_cases hk : k < bs.length
  · rw [Memory.readBytes_getElem? _ _ _ _ hk, Memory.read_writeBytes_inside hwf hk]
    simp [List.getD, hk]
  · rw [List.getElem?_eq_none (by simpa using hk), List.getElem?_eq_none (by simpa using hk)]

/-- Zero-filling keeps the canonical form. -/
theorem Memory.zeroBytes_wf {m : Memory} (a n : Nat) (h : Memory.wf m = true) :
    Memory.wf (Memory.zeroBytes m a n) = true :=
  Memory.writeBytes_wf a _ h

/-- Zero-filling inside the store lists no byte outside it. -/
theorem Memory.zeroBytes_within {m : Memory} {size a n : Nat} (ha : a + n ≤ size)
    (h : Memory.within size m = true) : Memory.within size (Memory.zeroBytes m a n) = true :=
  Memory.writeBytes_within (by simpa using ha) h

/-- Outside the bytes cleared nothing changes. -/
theorem Memory.read_zeroBytes_outside {m : Memory} {a n a' : Nat} (h : a' < a ∨ a + n ≤ a') :
    Memory.read (Memory.zeroBytes m a n) a' = Memory.read m a' :=
  Memory.read_writeBytes_outside (by simpa using h)

/-- The bytes cleared read 0. -/
theorem Memory.read_zeroBytes_inside {m : Memory} {a n a' : Nat} (hwf : Memory.wf m = true)
    (h : a ≤ a' ∧ a' < a + n) : Memory.read (Memory.zeroBytes m a n) a' = 0 := by
  have := Memory.read_writeBytes_inside (m := m) (a := a) (k := a' - a)
    (bs := List.replicate n 0) hwf (by simp; omega)
  rw [show a + (a' - a) = a' by omega] at this
  simp only [Memory.zeroBytes, this]
  simp [List.getD, show a' - a < n by omega]

/-! ### Putting bytes where they do not stand already -/

theorem Memory.putByte_of_read {m : Memory} {a : Nat} {b : Byte} (h : Memory.read m a = b) :
    Memory.putByte m a b = m := by simp [Memory.putByte, h]

theorem Memory.putByte_wf {m : Memory} (a : Nat) (b : Byte) (h : Memory.wf m = true) :
    Memory.wf (Memory.putByte m a b) = true := by
  unfold Memory.putByte; split
  · exact h
  · exact Memory.write_wf a b h

theorem Memory.putByte_within {m : Memory} {size a : Nat} (b : Byte) (ha : a < size)
    (h : Memory.within size m = true) : Memory.within size (Memory.putByte m a b) = true := by
  unfold Memory.putByte; split
  · exact h
  · exact Memory.write_within b ha h

/-- Bytes that stand there already change nothing. -/
theorem Memory.putBytes_of_readBytes {size : Nat} {m : Memory} {a : Nat} {bs : List Byte}
    (h : Memory.readBytes m a bs.length = bs) : Memory.putBytes size m a bs = m := by
  induction bs generalizing a with
  | nil => rfl
  | cons b bs ih =>
    simp only [List.length_cons, Memory.readBytes, List.cons.injEq] at h
    simp only [Memory.putBytes, Memory.putByte_of_read h.1, ite_self]
    exact ih h.2

theorem Memory.putBytes_wf {size : Nat} {m : Memory} (a : Nat) (bs : List Byte)
    (h : Memory.wf m = true) : Memory.wf (Memory.putBytes size m a bs) = true := by
  induction bs generalizing m a with
  | nil => exact h
  | cons b bs ih =>
    simp only [Memory.putBytes]
    split
    · exact ih _ (Memory.putByte_wf a b h)
    · exact ih _ h

theorem Memory.putBytes_within {size : Nat} {m : Memory} (a : Nat) (bs : List Byte)
    (h : Memory.within size m = true) :
    Memory.within size (Memory.putBytes size m a bs) = true := by
  induction bs generalizing m a with
  | nil => exact h
  | cons b bs ih =>
    simp only [Memory.putBytes]
    split
    · exact ih _ (Memory.putByte_within b ‹_› h)
    · exact ih _ h

end Sys2Proof.Machine
end

