-- ==== Sys2Proof/Laws/Registers.lean ====
section
/-! SUPPORT. The laws of the Value Cell conversion (00_scope.md R11) and of the register file's windows
(10_state.md R15 to R17). -/

namespace Sys2Proof.Machine

/-! ### Byte strings and integers -/

theorem val_append_singleton (bs : List Byte) (b : Byte) :
    val (bs ++ [b]) = val bs * 256 + b.toNat := by
  simp [val, List.foldl_append]

@[simp] theorem val_singleton (b : Byte) : val [b] = b.toNat := by simp [val]

@[simp] theorem val_nil : val [] = 0 := rfl

/-- A byte string's value is below the range of its length. -/
theorem val_lt (bs : List Byte) : val bs < 256 ^ bs.length := by
  induction bs using List.reverseRecOn with
  | nil => simp [val]
  | append_singleton bs b ih =>
    rw [val_append_singleton, List.length_append, List.length_singleton, pow_succ]
    have := b.isLt
    omega

@[simp] theorem bytesOf_length (n v : Nat) : (bytesOf n v).length = n := by
  induction n generalizing v with
  | zero => rfl
  | succ n ih => simp [bytesOf, ih]

/-- The bytes of an integer read as it modulo their range. -/
theorem val_bytesOf_mod (n v : Nat) : val (bytesOf n v) = v % 256 ^ n := by
  induction n generalizing v with
  | zero => simp [bytesOf, val, Nat.mod_one]
  | succ n ih =>
    rw [bytesOf, val_append_singleton, ih, pow_succ, BitVec.toNat_ofNat]
    have h1 := Nat.mod_mul_right_div_self v 256 (256 ^ n)
    have h2 := Nat.mod_mul_right_mod v 256 (256 ^ n)
    have h3 := Nat.div_add_mod (v % (256 * 256 ^ n)) 256
    rw [h1, h2] at h3
    rw [Nat.mul_comm (256 ^ n) 256]
    omega

@[simp] theorem bytesOf_one (v : Nat) : bytesOf 1 v = [BitVec.ofNat 8 v] := by simp [bytesOf]

/-! ### Windows -/

@[simp] theorem readWindow_length (rf : List Byte) (off n : Nat) :
    (readWindow rf off n).length = n := by
  induction n generalizing off with
  | zero => rfl
  | succ n ih => simp [readWindow, ih]

@[simp] theorem readWindow_one (rf : List Byte) (off : Nat) :
    readWindow rf off 1 = [rf.getD off 0] := rfl

@[simp] theorem writeWindow_one (rf : List Byte) (off : Nat) (b : Byte) :
    writeWindow rf off [b] = rf.set off b := rfl

@[simp] theorem writeWindow_length (rf : List Byte) (off : Nat) (bs : List Byte) :
    (writeWindow rf off bs).length = rf.length := by
  induction bs generalizing rf off with
  | nil => rfl
  | cons b bs ih => simp [writeWindow, ih]

theorem getD_set_ne {rf : List Byte} {i j : Nat} {b : Byte} (h : i ≠ j) :
    (rf.set i b).getD j 0 = rf.getD j 0 := by
  simp [List.getD, h]

theorem getD_set_same {rf : List Byte} {i : Nat} {b : Byte} (h : i < rf.length) :
    (rf.set i b).getD i 0 = b := by
  simp [List.getD, h]

/-- A write to a window leaves the bytes outside it alone. -/
theorem writeWindow_getD_outside {rf : List Byte} {off k : Nat} {bs : List Byte}
    (h : k < off ∨ off + bs.length ≤ k) : (writeWindow rf off bs).getD k 0 = rf.getD k 0 := by
  induction bs generalizing rf off with
  | nil => rfl
  | cons b bs ih =>
    simp only [List.length_cons] at h
    simp only [writeWindow]
    rw [ih (by omega), getD_set_ne (by omega)]

/-- Reading a window reads only its bytes. -/
theorem readWindow_congr {rf rf' : List Byte} {off n : Nat}
    (h : ∀ k, k < n → rf.getD (off + k) 0 = rf'.getD (off + k) 0) :
    readWindow rf off n = readWindow rf' off n := by
  induction n generalizing off with
  | zero => rfl
  | succ n ih =>
    simp only [readWindow]
    have h0 := h 0 (by omega)
    simp only [Nat.add_zero] at h0
    rw [h0, ih fun k hk => ?_]
    have := h (k + 1) (by omega)
    rwa [show off + (k + 1) = off + 1 + k by omega] at this

/-- A write to a window does not change a disjoint one. -/
theorem readWindow_writeWindow_disjoint {rf : List Byte} {off n off' : Nat} {bs : List Byte}
    (h : off + n ≤ off' ∨ off' + bs.length ≤ off) :
    readWindow (writeWindow rf off' bs) off n = readWindow rf off n :=
  readWindow_congr fun _ _ => writeWindow_getD_outside (by omega)

/-- A window inside the buffer reads back what was written to it. -/
theorem readWindow_writeWindow_same {rf : List Byte} {off : Nat} {bs : List Byte}
    (h : off + bs.length ≤ rf.length) :
    readWindow (writeWindow rf off bs) off bs.length = bs := by
  induction bs generalizing rf off with
  | nil => rfl
  | cons b bs ih =>
    simp only [List.length_cons] at h
    simp only [writeWindow, List.length_cons, readWindow]
    rw [ih (by simp; omega), writeWindow_getD_outside (by omega), getD_set_same (by omega)]

/-! ### Descriptors -/

theorem regSize_of_getElem? {c : Config} {i : Nat} {d : RegDescriptor} (h : c.regs[i]? = some d) :
    c.regSize i = d.size := by simp [Config.regSize, h]

theorem foldl_max_le (l : List RegDescriptor) (n : Nat) :
    n ≤ l.foldl (fun n d => max n (d.offset + d.size)) n := by
  induction l generalizing n with
  | nil => exact Nat.le_refl n
  | cons d l ih => exact Nat.le_trans (Nat.le_max_left _ _) (ih _)

theorem le_foldl_max {l : List RegDescriptor} {n : Nat} {d : RegDescriptor} (h : d ∈ l) :
    d.offset + d.size ≤ l.foldl (fun n d => max n (d.offset + d.size)) n := by
  induction l generalizing n with
  | nil => simp at h
  | cons e l ih =>
    rcases List.mem_cons.1 h with rfl | h
    · exact Nat.le_trans (Nat.le_max_right _ _) (foldl_max_le l _)
    · exact ih h

/-- Every window ends inside `RF_LEN` (10_state.md R15). -/
theorem window_le_rfLen {c : Config} {i : Nat} {d : RegDescriptor} (h : c.regs[i]? = some d) :
    d.offset + d.size ≤ c.rfLen :=
  le_foldl_max (List.mem_of_getElem? h)

/-- What a well-formed configuration says of its roles: each names a register, and no two the same one
(00_scope.md R8). -/
theorem wellFormed_roles {c : Config} (h : c.wellFormed = true) :
    c.regsOk = true ∧ (c.pcId < c.regs.length ∧ c.spId < c.regs.length ∧
      c.marId < c.regs.length ∧ c.flagsId < c.regs.length ∧ c.regAId < c.regs.length ∧
      c.regBId < c.regs.length) ∧
    (c.pcId ≠ c.spId ∧ c.pcId ≠ c.marId ∧ c.pcId ≠ c.flagsId) ∧
    (c.flagsId ≠ c.spId ∧ c.flagsId ≠ c.marId) ∧ c.regAId ≠ c.regBId := by
  simp only [Config.wellFormed, Bool.and_eq_true, Config.rolesOk, decide_eq_true_eq,
    Config.roleIds, List.all_cons, List.all_nil] at h
  obtain ⟨⟨⟨⟨-, h1⟩, ⟨h2, h3, h4, h5, h6, h7, -⟩, hd⟩, -⟩, -⟩ := h
  have hn := of_decide_eq_true hd
  simp only [List.nodup_cons, List.mem_cons, List.not_mem_nil, or_false, not_or] at hn
  obtain ⟨⟨n1, n2, n3, -⟩, ⟨n4, n5, -⟩, ⟨n6, -⟩, -, n7, -⟩ := hn
  exact ⟨h1, ⟨h2, h3, h4, h5, h6, h7⟩, ⟨n1, n2, n3⟩, ⟨fun e => n5 e.symm, fun e => n6 e.symm⟩, n7⟩

/-- A register of a configuration in form has at least one byte (10_state.md R15). -/
theorem regSize_pos {c : Config} {i : Nat} (h : c.regsOk = true) (hi : i < c.regs.length) :
    0 < c.regSize i := by
  simp only [Config.regsOk, Bool.and_eq_true, decide_eq_true_eq, List.all_eq_true] at h
  rw [regSize_of_getElem? (List.getElem?_eq_getElem hi)]
  exact h.1.2 _ (List.getElem_mem hi)

/-! ### Register reads and writes -/

/-- `regPut` touches only the register file. -/
theorem regPut_eq_setRf (s : State) (i v : Nat) : s.regPut i v = s.setRf (s.regPut i v).rf := by
  unfold State.regPut; split <;> rfl

@[simp] theorem regPut_cfg (s : State) (i v : Nat) : (s.regPut i v).cfg = s.cfg := by
  rw [regPut_eq_setRf]; rfl
@[simp] theorem regPut_mem (s : State) (i v : Nat) : (s.regPut i v).mem = s.mem := by
  rw [regPut_eq_setRf]; rfl
@[simp] theorem regPut_storage (s : State) (i v : Nat) : (s.regPut i v).storage = s.storage := by
  rw [regPut_eq_setRf]; rfl
@[simp] theorem regPut_acc (s : State) (i v : Nat) : (s.regPut i v).acc = s.acc := by
  rw [regPut_eq_setRf]; rfl
@[simp] theorem regPut_currentOpcode (s : State) (i v : Nat) :
    (s.regPut i v).currentOpcode = s.currentOpcode := by
  rw [regPut_eq_setRf]; rfl
@[simp] theorem regPut_currentStep (s : State) (i v : Nat) :
    (s.regPut i v).currentStep = s.currentStep := by
  rw [regPut_eq_setRf]; rfl
@[simp] theorem regPut_halted (s : State) (i v : Nat) : (s.regPut i v).halted = s.halted := by
  rw [regPut_eq_setRf]; rfl
@[simp] theorem regPut_fatal (s : State) (i v : Nat) : (s.regPut i v).fatal = s.fatal := by
  rw [regPut_eq_setRf]; rfl

@[simp] theorem regPut_rf_length (s : State) (i v : Nat) :
    (s.regPut i v).rf.length = s.rf.length := by
  unfold State.regPut; split <;> simp

/-- A register's value depends on the configuration and the register file alone. -/
theorem regVal_congr {s t : State} (hc : t.cfg = s.cfg) (hr : t.rf = s.rf) (i : Nat) :
    t.regVal i = s.regVal i := by simp [State.regVal, hc, hr]

@[simp] theorem regVal_setMem (s : State) (m : Memory) (i : Nat) :
    (s.setMem m).regVal i = s.regVal i := regVal_congr rfl rfl i
@[simp] theorem regVal_setAcc (s : State) (v i : Nat) : (s.setAcc v).regVal i = s.regVal i :=
  regVal_congr rfl rfl i
@[simp] theorem regVal_setCurrentOpcode (s : State) (o : Option Byte) (i : Nat) :
    (s.setCurrentOpcode o).regVal i = s.regVal i := regVal_congr rfl rfl i
@[simp] theorem regVal_setCurrentStep (s : State) (n i : Nat) :
    (s.setCurrentStep n).regVal i = s.regVal i := regVal_congr rfl rfl i
@[simp] theorem regVal_setHalted (s : State) (b : Bool) (i : Nat) :
    (s.setHalted b).regVal i = s.regVal i := regVal_congr rfl rfl i
@[simp] theorem regVal_memPut (s : State) (a n v i : Nat) :
    (s.memPut a n v).regVal i = s.regVal i := regVal_congr rfl rfl i
@[simp] theorem regVal_memClear (s : State) (a n i : Nat) :
    (s.memClear a n).regVal i = s.regVal i := regVal_congr rfl rfl i

/-- A register value fits its register (10_state.md R16). -/
theorem regVal_lt (s : State) (i : Nat) : s.regVal i < 256 ^ s.cfg.regSize i := by
  unfold State.regVal Config.regSize
  cases s.cfg.regs[i]? with
  | none => simp
  | some d => simpa using val_lt (readWindow s.rf d.offset d.size)

/-- A register reads back what was written to it (10_state.md R16, R17). -/
theorem regVal_regPut_same {s : State} {i v : Nat} (hi : i < s.cfg.regs.length)
    (hv : v < 256 ^ s.cfg.regSize i) (hrf : s.cfg.rfLen ≤ s.rf.length) :
    (s.regPut i v).regVal i = v := by
  have hd : s.cfg.regs[i]? = some s.cfg.regs[i] := List.getElem?_eq_getElem hi
  have hw := window_le_rfLen hd
  rw [regSize_of_getElem? hd] at hv
  have := readWindow_writeWindow_same (rf := s.rf) (off := s.cfg.regs[i].offset)
    (bs := bytesOf s.cfg.regs[i].size v) (by simp; omega)
  rw [bytesOf_length] at this
  simp only [State.regVal, State.regPut, hd, State.setRf_cfg, State.setRf_rf, this,
    val_bytesOf_mod, Nat.mod_eq_of_lt hv]

/-- Writing a register does not change one whose window is disjoint. -/
theorem regVal_regPut_disjoint {s : State} {i j v : Nat} {d e : RegDescriptor}
    (hd : s.cfg.regs[i]? = some d) (he : s.cfg.regs[j]? = some e) (h : d.disjoint e = true) :
    (s.regPut i v).regVal j = s.regVal j := by
  simp only [RegDescriptor.disjoint, decide_eq_true_eq] at h
  simp only [State.regVal, State.regPut, hd, he, State.setRf_cfg, State.setRf_rf]
  rw [readWindow_writeWindow_disjoint (by simp; omega)]

/-- In a configuration without overlap, two different registers are disjoint. -/
theorem disjoint_of_noOverlap {c : Config} {i j : Nat} {d e : RegDescriptor}
    (h : c.noOverlap = true) (hd : c.regs[i]? = some d) (he : c.regs[j]? = some e) (hne : i ≠ j) :
    d.disjoint e = true := by
  simp only [Config.noOverlap, decide_eq_true_eq] at h
  have hi : i < c.regs.length := by
    by_contra hc; simp [List.getElem?_eq_none (Nat.le_of_not_lt hc)] at hd
  have hj : j < c.regs.length := by
    by_contra hc; simp [List.getElem?_eq_none (Nat.le_of_not_lt hc)] at he
  rw [List.getElem?_eq_getElem hi, Option.some.injEq] at hd
  rw [List.getElem?_eq_getElem hj, Option.some.injEq] at he
  rw [List.pairwise_iff_getElem] at h
  rcases Nat.lt_or_gt_of_ne hne with hlt | hgt
  · have := h i j hi hj hlt
    rwa [hd, he] at this
  · have := h j i hj hi hgt
    rw [hd, he] at this
    simp only [RegDescriptor.disjoint, decide_eq_true_eq] at this ⊢
    omega

/-- Writing a register does not change another one, where no windows overlap. -/
theorem regVal_regPut_ne {s : State} {i j v : Nat} (h : s.cfg.noOverlap = true) (hne : i ≠ j) :
    (s.regPut i v).regVal j = s.regVal j := by
  cases hd : s.cfg.regs[i]? with
  | none => simp [State.regPut, hd]
  | some d =>
    cases he : s.cfg.regs[j]? with
    | none => simp [State.regVal, State.regPut, hd, he]
    | some e => exact regVal_regPut_disjoint hd he (disjoint_of_noOverlap h hd he hne)

/-- All that a register read can do (10_state.md R16). -/
theorem regRead_cases (s : State) (i : Nat) :
    (i < s.cfg.regs.length ∧ s.regRead i = .ok (s.regVal i)) ∨
      (s.cfg.regs.length ≤ i ∧ s.regRead i = .error .unknownRegister) := by
  unfold State.regRead
  split
  · exact .inl ⟨‹_›, rfl⟩
  · exact .inr ⟨by omega, rfl⟩

/-- All that a register write can do (10_state.md R17). -/
theorem regWrite_cases (s : State) (i v : Nat) :
    (i < s.cfg.regs.length ∧ v < 256 ^ s.cfg.regSize i ∧ s.regWrite i v = .ok (s.regPut i v)) ∨
      (i < s.cfg.regs.length ∧ 256 ^ s.cfg.regSize i ≤ v ∧ s.regWrite i v = .error .valueTooWide) ∨
      (s.cfg.regs.length ≤ i ∧ s.regWrite i v = .error .unknownRegister) := by
  unfold State.regWrite
  split
  · split
    · exact .inl ⟨‹_›, ‹_›, rfl⟩
    · exact .inr (.inl ⟨‹_›, by omega, rfl⟩)
  · exact .inr (.inr ⟨by omega, rfl⟩)

theorem regRead_ok {s : State} {i : Nat} (h : i < s.cfg.regs.length) :
    s.regRead i = .ok (s.regVal i) := by simp [State.regRead, h]

theorem regRead_unknown {s : State} {i : Nat} (h : ¬ i < s.cfg.regs.length) :
    s.regRead i = .error .unknownRegister := by simp [State.regRead, h]

theorem regWrite_ok {s : State} {i v : Nat} (h : i < s.cfg.regs.length)
    (hv : v < 256 ^ s.cfg.regSize i) : s.regWrite i v = .ok (s.regPut i v) := by
  simp [State.regWrite, h, hv]

theorem regWrite_wide {s : State} {i v : Nat} (h : i < s.cfg.regs.length)
    (hv : ¬ v < 256 ^ s.cfg.regSize i) : s.regWrite i v = .error .valueTooWide := by
  simp [State.regWrite, h, hv]

theorem regWrite_unknown {s : State} {i v : Nat} (h : ¬ i < s.cfg.regs.length) :
    s.regWrite i v = .error .unknownRegister := by simp [State.regWrite, h]

end Sys2Proof.Machine
end

