-- ==== Sys2Proof/Laws/Ops.lean ====
section
/-! SUPPORT. One law per shared operation: what a memory access of a tick, an operand form, a flag
computation, the retire tick and the latching of an instruction can do. -/

namespace Sys2Proof.Machine

/-! ### The raise monad -/

/-- A sequence succeeds when both parts do. -/
theorem bind_eq_ok {α β : Type} {x : Raise α} {f : α → Raise β} {b : β} :
    (x >>= f) = .ok b ↔ ∃ a, x = .ok a ∧ f a = .ok b := by
  cases x <;> simp [Bind.bind, Except.bind]

/-- A sequence raises what its first failing part raises. -/
theorem bind_eq_error {α β : Type} {x : Raise α} {f : α → Raise β} {c : FatalCause} :
    (x >>= f) = .error c ↔ x = .error c ∨ ∃ a, x = .ok a ∧ f a = .error c := by
  cases x <;> simp [Bind.bind, Except.bind]

@[simp] theorem bind_ok {α β : Type} (a : α) (f : α → Raise β) :
    ((.ok a : Raise α) >>= f) = f a := rfl

@[simp] theorem bind_error {α β : Type} (c : FatalCause) (f : α → Raise β) :
    ((.error c : Raise α) >>= f) = .error c := rfl

/-! ### Memory accesses of a tick -/

@[simp] theorem memPut_cfg (s : State) (a n v : Nat) : (s.memPut a n v).cfg = s.cfg := rfl
@[simp] theorem memPut_mem (s : State) (a n v : Nat) :
    (s.memPut a n v).mem = Memory.writeBytes s.mem a (bytesOf n v) := rfl
@[simp] theorem memPut_storage (s : State) (a n v : Nat) : (s.memPut a n v).storage = s.storage := rfl
@[simp] theorem memPut_rf (s : State) (a n v : Nat) : (s.memPut a n v).rf = s.rf := rfl
@[simp] theorem memPut_acc (s : State) (a n v : Nat) : (s.memPut a n v).acc = s.acc := rfl
@[simp] theorem memPut_currentOpcode (s : State) (a n v : Nat) :
    (s.memPut a n v).currentOpcode = s.currentOpcode := rfl
@[simp] theorem memPut_currentStep (s : State) (a n v : Nat) :
    (s.memPut a n v).currentStep = s.currentStep := rfl
@[simp] theorem memPut_halted (s : State) (a n v : Nat) : (s.memPut a n v).halted = s.halted := rfl
@[simp] theorem memPut_fatal (s : State) (a n v : Nat) : (s.memPut a n v).fatal = s.fatal := rfl

@[simp] theorem memClear_cfg (s : State) (a n : Nat) : (s.memClear a n).cfg = s.cfg := rfl
@[simp] theorem memClear_mem (s : State) (a n : Nat) :
    (s.memClear a n).mem = Memory.zeroBytes s.mem a n := rfl
@[simp] theorem memClear_storage (s : State) (a n : Nat) : (s.memClear a n).storage = s.storage := rfl
@[simp] theorem memClear_rf (s : State) (a n : Nat) : (s.memClear a n).rf = s.rf := rfl
@[simp] theorem memClear_acc (s : State) (a n : Nat) : (s.memClear a n).acc = s.acc := rfl
@[simp] theorem memClear_currentOpcode (s : State) (a n : Nat) :
    (s.memClear a n).currentOpcode = s.currentOpcode := rfl
@[simp] theorem memClear_currentStep (s : State) (a n : Nat) :
    (s.memClear a n).currentStep = s.currentStep := rfl
@[simp] theorem memClear_halted (s : State) (a n : Nat) : (s.memClear a n).halted = s.halted := rfl
@[simp] theorem memClear_fatal (s : State) (a n : Nat) : (s.memClear a n).fatal = s.fatal := rfl

/-- One byte of memory as an integer. -/
@[simp] theorem memVal_one (s : State) (a : Nat) : s.memVal a 1 = (s.memByte a).toNat := by
  simp [State.memVal, State.memByte, Memory.readBytes]

/-- What memory holds depends on the memory alone. -/
theorem memVal_congr {s t : State} (h : t.mem = s.mem) (a n : Nat) : t.memVal a n = s.memVal a n := by
  simp [State.memVal, h]

theorem memByte_congr {s t : State} (h : t.mem = s.mem) (a : Nat) : t.memByte a = s.memByte a := by
  simp [State.memByte, h]

/-- A value read from `n` bytes is below their range. -/
theorem memVal_lt (s : State) (a n : Nat) : s.memVal a n < 256 ^ n := by
  simpa [State.memVal] using val_lt (Memory.readBytes s.mem a n)

/-- All that a memory read can do (20_memory.md R41). -/
theorem memRead_cases (s : State) (a n : Nat) :
    (a + n ≤ s.cfg.memSize ∧ s.memRead a n = .ok (s.memVal a n)) ∨
      (s.cfg.memSize < a + n ∧ s.memRead a n = .error .memRange) := by
  unfold State.memRead
  split
  · exact .inr ⟨‹_›, rfl⟩
  · exact .inl ⟨by omega, rfl⟩

/-- All that a memory write can do (20_memory.md R42). -/
theorem memWrite_cases (s : State) (a n v : Nat) :
    (a + n ≤ s.cfg.memSize ∧ v < 256 ^ n ∧ s.memWrite a n v = .ok (s.memPut a n v)) ∨
      (s.cfg.memSize < a + n ∧ s.memWrite a n v = .error .memRange) ∨
      (a + n ≤ s.cfg.memSize ∧ 256 ^ n ≤ v ∧ s.memWrite a n v = .error .valueTooWide) := by
  unfold State.memWrite
  split
  · exact .inr (.inl ⟨‹_›, rfl⟩)
  · split
    · exact .inr (.inr ⟨by omega, ‹_›, rfl⟩)
    · exact .inl ⟨by omega, by omega, rfl⟩

/-- All that a zero-fill can do (20_memory.md R43). -/
theorem memZero_cases (s : State) (a n : Nat) :
    (a + n ≤ s.cfg.memSize ∧ s.memZero a n = .ok (s.memClear a n)) ∨
      (s.cfg.memSize < a + n ∧ s.memZero a n = .error .memRange) := by
  unfold State.memZero
  split
  · exact .inr ⟨‹_›, rfl⟩
  · exact .inl ⟨by omega, rfl⟩

theorem memRead_ok {s : State} {a n : Nat} (h : a + n ≤ s.cfg.memSize) :
    s.memRead a n = .ok (s.memVal a n) := by simp [State.memRead, Nat.not_lt.2 h]

theorem memRead_range {s : State} {a n : Nat} (h : s.cfg.memSize < a + n) :
    s.memRead a n = .error .memRange := by simp [State.memRead, h]

theorem memWrite_ok {s : State} {a n v : Nat} (h : a + n ≤ s.cfg.memSize) (hv : v < 256 ^ n) :
    s.memWrite a n v = .ok (s.memPut a n v) := by
  simp [State.memWrite, Nat.not_lt.2 h, Nat.not_le.2 hv]

theorem memWrite_range {s : State} {a n v : Nat} (h : s.cfg.memSize < a + n) :
    s.memWrite a n v = .error .memRange := by simp [State.memWrite, h]

theorem memWrite_wide {s : State} {a n v : Nat} (h : a + n ≤ s.cfg.memSize) (hv : 256 ^ n ≤ v) :
    s.memWrite a n v = .error .valueTooWide := by
  simp [State.memWrite, Nat.not_lt.2 h, hv]

theorem memZero_ok {s : State} {a n : Nat} (h : a + n ≤ s.cfg.memSize) :
    s.memZero a n = .ok (s.memClear a n) := by simp [State.memZero, Nat.not_lt.2 h]

/-- Outside the bytes of a store nothing changes. -/
theorem memByte_memPut_outside {s : State} {a n v b : Nat} (h : b < a ∨ a + n ≤ b) :
    (s.memPut a n v).memByte b = s.memByte b :=
  Memory.read_writeBytes_outside (by simpa using h)

/-- The value stored reads back (20_memory.md R45). -/
theorem memVal_memPut_same {s : State} {a n v : Nat} (hwf : Memory.wf s.mem = true)
    (hv : v < 256 ^ n) : (s.memPut a n v).memVal a n = v := by
  have := Memory.readBytes_writeBytes_same (a := a) (bs := bytesOf n v) hwf
  rw [bytesOf_length] at this
  simp only [State.memVal, memPut_mem, this, val_bytesOf_mod, Nat.mod_eq_of_lt hv]

/-- The byte stored reads back. -/
theorem memByte_memPut_one {s : State} {a v : Nat} (hwf : Memory.wf s.mem = true) :
    (s.memPut a 1 v).memByte a = BitVec.ofNat 8 v := by
  simp [State.memByte, Memory.writeBytes, Memory.read_write_same a _ hwf]

/-- Outside the bytes cleared nothing changes. -/
theorem memByte_memClear_outside {s : State} {a n b : Nat} (h : b < a ∨ a + n ≤ b) :
    (s.memClear a n).memByte b = s.memByte b :=
  Memory.read_zeroBytes_outside h

/-- The bytes cleared read 0. -/
theorem memByte_memClear_inside {s : State} {a n b : Nat} (hwf : Memory.wf s.mem = true)
    (h : a ≤ b ∧ b < a + n) : (s.memClear a n).memByte b = 0 :=
  Memory.read_zeroBytes_inside hwf h

/-! ### Operand forms -/

/-- All that reading an operand byte can do (40_microops_move.md R76). -/
theorem operandByte_cases (s : State) (offset : Byte) :
    (s.cfg.pcId < s.cfg.regs.length ∧ s.pc + offset.toNat < s.cfg.memSize ∧
        s.operandByte offset = .ok (s.memByte (s.pc + offset.toNat)).toNat) ∨
      (s.cfg.pcId < s.cfg.regs.length ∧ s.cfg.memSize ≤ s.pc + offset.toNat ∧
        s.operandByte offset = .error .memRange) ∨
      (s.cfg.regs.length ≤ s.cfg.pcId ∧ s.operandByte offset = .error .unknownRegister) := by
  unfold State.operandByte State.pc
  rcases regRead_cases s s.cfg.pcId with ⟨h, e⟩ | ⟨h, e⟩
  · rcases memRead_cases s (s.regVal s.cfg.pcId + offset.toNat) 1 with ⟨h', e'⟩ | ⟨h', e'⟩
    · exact .inl ⟨h, by omega, by simp [e, e']⟩
    · exact .inr (.inl ⟨h, by omega, by simp [e, e']⟩)
  · exact .inr (.inr ⟨h, by simp [e]⟩)

theorem operandByte_ok {s : State} {offset : Byte} (h : s.cfg.pcId < s.cfg.regs.length)
    (hm : s.pc + offset.toNat < s.cfg.memSize) :
    s.operandByte offset = .ok (s.memByte (s.pc + offset.toNat)).toNat := by
  rcases operandByte_cases s offset with ⟨-, -, e⟩ | ⟨-, h', -⟩ | ⟨h', -⟩
  · exact e
  · omega
  · omega

/-! ### Flags -/

/-- Compare's flags value never sets both bits, nor any above bit 1 (41_microops_alu.md R98). -/
theorem compareFlags_cases (a b : Nat) :
    (a = b ∧ compareFlags a b = 1) ∨ (b < a ∧ compareFlags a b = 2) ∨
      (a < b ∧ compareFlags a b = 0) := by
  unfold compareFlags maskZero maskGreater
  rcases Nat.lt_trichotomy a b with h | h | h
  · exact .inr (.inr ⟨h, by simp [Nat.ne_of_lt h, Nat.lt_asymm h]⟩)
  · exact .inl ⟨h, by simp [h]⟩
  · exact .inr (.inl ⟨h, by simp [Nat.ne_of_gt h, h]⟩)

theorem compareFlags_lt_three (a b : Nat) : (compareFlags a b).toNat < 3 := by
  rcases compareFlags_cases a b with ⟨-, e⟩ | ⟨-, e⟩ | ⟨-, e⟩ <;> rw [e] <;> decide

/-- The mask condition says what it says of each bit (43_microops_control.md R106). -/
theorem flagCond_iff_testBit (f : Nat) (t m : Byte) :
    flagCond f t m = true ↔
      ∀ k, (t.toNat.testBit k = true → f.testBit k = true) ∧
        (m.toNat.testBit k = true → f.testBit k = false) := by
  unfold flagCond
  rw [Bool.and_eq_true, decide_eq_true_eq, decide_eq_true_eq]
  constructor
  · rintro ⟨h1, h2⟩ k
    have e1 := congrArg (fun n => n.testBit k) h1
    have e2 := congrArg (fun n => n.testBit k) h2
    simp only [Nat.testBit_and, Nat.zero_testBit] at e1 e2
    constructor
    · intro ht; rw [ht] at e1; simpa using e1
    · intro hm; rw [hm] at e2; simpa using e2
  · intro h
    constructor <;> apply Nat.eq_of_testBit_eq <;> intro k <;>
      simp only [Nat.testBit_and, Nat.zero_testBit]
    · have := (h k).1
      cases ht : t.toNat.testBit k <;> simp_all
    · have := (h k).2
      cases hm : m.toNat.testBit k <;> simp_all

/-! ### The condition of the engine -/

theorem condition_idle_iff (s : State) :
    s.condition = .idle ↔ s.fatal = none ∧ s.halted = false ∧ s.currentOpcode = none := by
  unfold State.condition
  cases s.fatal <;> cases s.halted <;> cases s.currentOpcode <;> simp

theorem condition_executing_iff (s : State) (op : Byte) :
    s.condition = .executing op ↔
      s.fatal = none ∧ s.halted = false ∧ s.currentOpcode = some op := by
  unfold State.condition
  cases s.fatal <;> cases s.halted <;> cases s.currentOpcode <;> simp

theorem condition_halted_iff (s : State) :
    s.condition = .halted ↔ s.fatal = none ∧ s.halted = true := by
  unfold State.condition
  cases s.fatal <;> cases s.halted <;> cases s.currentOpcode <;> simp

theorem condition_fatal_iff (s : State) : s.condition = .fatal ↔ s.fatal ≠ none := by
  unfold State.condition
  cases s.fatal <;> cases s.halted <;> cases s.currentOpcode <;> simp

/-! ### Retiring and latching -/

/-- All that the retire tick can do (44_sequencer.md R114). -/
theorem retire_cases (s : State) :
    (s.cfg.pcId < s.cfg.regs.length ∧ s.pc + 1 < 256 ^ s.cfg.regSize s.cfg.pcId ∧
        retire s = .ok ((s.regPut s.cfg.pcId (s.pc + 1)).setCurrentOpcode none)) ∨
      (s.cfg.pcId < s.cfg.regs.length ∧ 256 ^ s.cfg.regSize s.cfg.pcId ≤ s.pc + 1 ∧
        retire s = .error .valueTooWide) ∨
      (s.cfg.regs.length ≤ s.cfg.pcId ∧ retire s = .error .unknownRegister) := by
  unfold retire State.pc
  rcases regRead_cases s s.cfg.pcId with ⟨h, e⟩ | ⟨h, e⟩
  · rcases regWrite_cases s s.cfg.pcId (s.regVal s.cfg.pcId + 1) with
      ⟨-, h2, e2⟩ | ⟨-, h2, e2⟩ | ⟨h2, -⟩
    · exact .inl ⟨h, h2, by simp [e, e2]⟩
    · exact .inr (.inl ⟨h, h2, by simp [e, e2]⟩)
    · omega
  · exact .inr (.inr ⟨h, by simp [e]⟩)

/-- The state an instruction's fetch leaves where its bytes stand already (44_sequencer.md R112). -/
def latched (s : State) (op : Byte) : State :=
  (s.setCurrentOpcode (some op)).setCurrentStep 0

/-- Latching an instruction whose bytes stand at the program counter changes only the cursor. -/
theorem latchInstruction_of_stands {s : State} {op : Byte} {operands : List Byte}
    (hpc : s.cfg.pcId < s.cfg.regs.length) (hm : s.pc + 1 ≤ s.cfg.memSize)
    (hb : Memory.readBytes s.mem s.pc (op :: operands).length = op :: operands) :
    latchInstruction (op :: operands) op s = .ok (latched s op) := by
  have hb' := Memory.putBytes_of_readBytes (size := s.cfg.memSize) hb
  unfold State.pc at hm hb'
  simp only [latchInstruction, regRead_ok hpc, bind_ok, Nat.not_lt.2 hm, if_false, hb']
  rfl

/-- A fatal error is a fault outcome that names its cause. -/
theorem raiseFatal_eq (s : State) (c : FatalCause) :
    raiseFatal s c = .fault (.fatal c (s.setFatal (some c))) := rfl

end Sys2Proof.Machine
end

