-- ==== Sys2Proof/Laws/Micro.lean ====
section
/-! SUPPORT. What a micro-operation can do, said once: `microOf_effect` is the inversion lemma of the
twenty micro-operations, and every frame and invariant below is read off it. -/

namespace Sys2Proof.Machine

/-- The state transition of a micro-operation, without the execute tick around it. -/
def microOf : MicroOp → State → Raise State
  | .noOperation => microNoOperation
  | .halt => microHalt
  | .loadImmediate offset => microLoadImmediate offset
  | .loadImmediateInternal value => microLoadImmediateInternal value
  | .loadFromMemory => microLoadFromMemory
  | .loadFromRegister offset => microLoadFromRegister offset
  | .loadFromRegisterInternal id => microLoadFromRegisterInternal id
  | .setMemoryAddress => microSetMemoryAddress
  | .storeToMemory => microStoreToMemory
  | .storeToRegister offset => microStoreToRegister offset
  | .storeToRegisterInternal id => microStoreToRegisterInternal id
  | .stepProgramMemory n => microStepProgramMemory n
  | .add => microAdd
  | .sub => microSub
  | .pushToStack => microPushToStack
  | .popFromStack => microPopFromStack
  | .jump => microJump
  | .compare => microCompare
  | .jumpIfFlag trueMask falseMask => microJumpIfFlag trueMask falseMask
  | .jumpIfNotFlag trueMask falseMask => microJumpIfNotFlag trueMask falseMask

/-- An execute tick is its micro-operation under `executeTick` (44_sequencer.md R113). -/
theorem runMicroOp_eq (u : MicroOp) (s : State) : runMicroOp u s = executeTick (microOf u) s := by
  cases u <;> rfl

/-- What a micro-operation that does not raise may make of a state. -/
inductive Effect (s : State) : MicroOp → State → Prop where
  /-- NoOperation, and a jump that is not taken. -/
  | same (u : MicroOp) (h : u = .noOperation ∨ (∃ t m, u = .jumpIfFlag t m) ∨
      ∃ t m, u = .jumpIfNotFlag t m) (hn : u.taken s = false) : Effect s u s
  /-- The loads, Add and Sub: the accumulator. -/
  | load (u : MicroOp) (v : Nat)
      (h : (∃ o, u = .loadImmediate o ∧ v = (s.memByte (s.pc + o.toNat)).toNat) ∨
        (∃ c, u = .loadImmediateInternal c ∧ v = c.toNat) ∨
        (u = .loadFromMemory ∧ v = s.memVal s.mar s.cfg.dataSize) ∨
        (∃ o, u = .loadFromRegister o ∧ v = s.regVal (s.memByte (s.pc + o.toNat)).toNat) ∨
        (∃ i, u = .loadFromRegisterInternal i ∧ v = s.regVal i.toNat) ∨
        (u = .add ∧ v = s.regA + s.regB) ∨ (u = .sub ∧ s.regB ≤ s.regA ∧ v = s.regA - s.regB)) :
      Effect s u (s.setAcc v)
  /-- One register. -/
  | reg (u : MicroOp) (i v : Nat) (hi : i < s.cfg.regs.length) (hv : v < 256 ^ s.cfg.regSize i)
      (h : (u = .setMemoryAddress ∧ i = s.cfg.marId ∧ v = s.acc) ∨
        (∃ o, u = .storeToRegister o ∧ i = (s.memByte (s.pc + o.toNat)).toNat ∧ v = s.acc) ∨
        (∃ id, u = .storeToRegisterInternal id ∧ i = id.toNat ∧ v = s.acc) ∨
        (∃ n, u = .stepProgramMemory n ∧ i = s.cfg.pcId ∧ v = s.pc + n.toNat) ∨
        (u = .compare ∧ i = s.cfg.flagsId ∧ v < 3)) :
      Effect s u (s.regPut i v)
  /-- StoreToMemory. -/
  | store (ha : s.mar + s.cfg.dataSize ≤ s.cfg.memSize) (hv : s.acc < 256 ^ s.cfg.dataSize) :
      Effect s .storeToMemory (s.memPut s.mar s.cfg.dataSize s.acc)
  /-- PushToStack. -/
  | push (hi : s.cfg.spId < s.cfg.regs.length) (hs : s.cfg.dataSize ≤ s.sp)
      (ha : s.sp ≤ s.cfg.memSize) (hv : s.acc < 256 ^ s.cfg.dataSize) :
      Effect s .pushToStack ((s.memPut (s.sp - s.cfg.dataSize) s.cfg.dataSize s.acc).regPut
        s.cfg.spId (s.sp - s.cfg.dataSize))
  /-- PopFromStack. -/
  | pop (hi : s.cfg.spId < s.cfg.regs.length) (ha : s.sp + s.cfg.dataSize ≤ s.cfg.memSize)
      (hv : s.sp + s.cfg.dataSize < 256 ^ s.cfg.regSize s.cfg.spId) :
      Effect s .popFromStack (((s.setAcc (s.memVal s.sp s.cfg.dataSize)).memClear s.sp
        s.cfg.dataSize).regPut s.cfg.spId (s.sp + s.cfg.dataSize))
  /-- Jump, and a conditional jump that is taken. -/
  | jump (u : MicroOp) (hi : s.cfg.pcId < s.cfg.regs.length)
      (hv : s.acc < 256 ^ s.cfg.regSize s.cfg.pcId)
      (h : u = .jump ∨ (∃ t m, u = .jumpIfFlag t m) ∨ ∃ t m, u = .jumpIfNotFlag t m)
      (ht : u.taken s = true) :
      Effect s u ((s.regPut s.cfg.pcId s.acc).setCurrentOpcode none)
  /-- Halt. -/
  | halt : Effect s .halt (s.setHalted true)

/-! ### Spec lemmas of the micro-operations with more than one check -/

/-- All that PushToStack can do when it does not raise (42_microops_stack.md R101). -/
theorem microPushToStack_ok {s t : State} (h : microPushToStack s = .ok t) :
    Effect s .pushToStack t := by
  unfold microPushToStack at h
  obtain ⟨v, h1, h⟩ := bind_eq_ok.1 h
  rcases regRead_cases s s.cfg.spId with ⟨hi, e⟩ | ⟨-, e⟩ <;> rw [e] at h1
  · injection h1 with h1; subst h1
    split at h
    · cases h
    · rename_i hs
      obtain ⟨m, h2, h⟩ := bind_eq_ok.1 h
      rcases memWrite_cases s (s.regVal s.cfg.spId - s.cfg.dataSize) s.cfg.dataSize s.acc with
        ⟨ha, hv, e⟩ | ⟨-, e⟩ | ⟨-, -, e⟩ <;> rw [e] at h2
      · injection h2 with h2; subst h2
        rcases regWrite_cases (s.memPut (s.regVal s.cfg.spId - s.cfg.dataSize) s.cfg.dataSize s.acc)
          s.cfg.spId (s.regVal s.cfg.spId - s.cfg.dataSize) with ⟨-, -, e⟩ | ⟨-, -, e⟩ | ⟨-, e⟩ <;>
          rw [e] at h
        · injection h with h; subst h
          refine .push hi (by unfold State.sp; omega) (by unfold State.sp; omega) hv
        · cases h
        · cases h
      · cases h2
      · cases h2
  · cases h1

/-- All that PopFromStack can do when it does not raise (42_microops_stack.md R102). -/
theorem microPopFromStack_ok {s t : State} (h : microPopFromStack s = .ok t) :
    Effect s .popFromStack t := by
  unfold microPopFromStack at h
  obtain ⟨v, h1, h⟩ := bind_eq_ok.1 h
  rcases regRead_cases s s.cfg.spId with ⟨hi, e⟩ | ⟨-, e⟩ <;> rw [e] at h1
  · injection h1 with h1; subst h1
    obtain ⟨w, h2, h⟩ := bind_eq_ok.1 h
    rcases memRead_cases s (s.regVal s.cfg.spId) s.cfg.dataSize with ⟨ha, e⟩ | ⟨-, e⟩ <;> rw [e] at h2
    · injection h2 with h2; subst h2
      obtain ⟨m, h3, h⟩ := bind_eq_ok.1 h
      rw [memZero_ok (by simpa using ha)] at h3
      injection h3 with h3; subst h3
      rcases regWrite_cases ((s.setAcc (s.memVal (s.regVal s.cfg.spId) s.cfg.dataSize)).memClear
          (s.regVal s.cfg.spId) s.cfg.dataSize) s.cfg.spId
          (s.regVal s.cfg.spId + s.cfg.dataSize) with ⟨-, hv, e⟩ | ⟨-, -, e⟩ | ⟨-, e⟩ <;> rw [e] at h
      · injection h with h; subst h
        exact .pop hi (by simpa [State.sp] using ha) (by simpa [State.sp] using hv)
      · cases h
      · cases h
    · cases h2
  · cases h1

/-- All that Jump can do when it does not raise (43_microops_control.md R105). -/
theorem microJump_ok {s t : State} (h : microJump s = .ok t) :
    s.cfg.pcId < s.cfg.regs.length ∧ s.acc < 256 ^ s.cfg.regSize s.cfg.pcId ∧
      t = (s.regPut s.cfg.pcId s.acc).setCurrentOpcode none := by
  unfold microJump at h
  obtain ⟨v, h1, h⟩ := bind_eq_ok.1 h
  rcases regWrite_cases s s.cfg.pcId s.acc with ⟨hi, hv, e⟩ | ⟨-, -, e⟩ | ⟨-, e⟩ <;> rw [e] at h1
  · injection h1 with h1; injection h with h; subst h1; exact ⟨hi, hv, h.symm⟩
  · cases h1
  · cases h1

/-- All that Compare can do when it does not raise (41_microops_alu.md R98, R99). -/
theorem microCompare_ok {s t : State} (h : microCompare s = .ok t) :
    ∃ a b, (s.compareIsWide = false ∧ a = s.regA ∧ b = s.regB ∨
        s.compareIsWide = true ∧ s.cfg.compareWide = .lowByte ∧ a = s.regA % 256 ∧ b = s.regB % 256) ∧
      s.cfg.flagsId < s.cfg.regs.length ∧
      (compareFlags a b).toNat < 256 ^ s.cfg.regSize s.cfg.flagsId ∧
      t = s.regPut s.cfg.flagsId (compareFlags a b).toNat := by
  unfold microCompare at h
  obtain ⟨a, h1, h⟩ := bind_eq_ok.1 h
  obtain ⟨b, h2, h⟩ := bind_eq_ok.1 h
  obtain ⟨f, h3, h⟩ := bind_eq_ok.1 h
  have ha : a = s.regA := by
    rcases regRead_cases s s.cfg.regAId with ⟨-, e⟩ | ⟨-, e⟩ <;> rw [e] at h1
    · injection h1 with h1; exact h1.symm
    · cases h1
  have hb : b = s.regB := by
    rcases regRead_cases s s.cfg.regBId with ⟨-, e⟩ | ⟨-, e⟩ <;> rw [e] at h2
    · injection h2 with h2; exact h2.symm
    · cases h2
  have key (x y : Nat) (h : s.regWrite s.cfg.flagsId (compareFlags x y).toNat = .ok t) :
      s.cfg.flagsId < s.cfg.regs.length ∧
        (compareFlags x y).toNat < 256 ^ s.cfg.regSize s.cfg.flagsId ∧
        t = s.regPut s.cfg.flagsId (compareFlags x y).toNat := by
    rcases regWrite_cases s s.cfg.flagsId (compareFlags x y).toNat with
      ⟨hi, hv, e⟩ | ⟨-, -, e⟩ | ⟨-, e⟩ <;> rw [e] at h
    · injection h with h; exact ⟨hi, hv, h.symm⟩
    · cases h
    · cases h
  split at h
  · split at h
    · cases h
    · exact ⟨_, _, .inr ⟨‹_›, ‹_›, by rw [ha], by rw [hb]⟩, key _ _ h⟩
  · rename_i hw
    exact ⟨_, _, .inl ⟨by simpa using hw, ha, hb⟩, key _ _ h⟩

/-- What a micro-operation can do: the inversion lemma of the catalog. -/
theorem microOf_effect {u : MicroOp} {s t : State} (h : microOf u s = .ok t) : Effect s u t := by
  have reads {i v : Nat} (h : s.regRead i = .ok v) : v = s.regVal i := by
    rcases regRead_cases s i with ⟨-, e⟩ | ⟨-, e⟩ <;> rw [e] at h
    · injection h with h; exact h.symm
    · cases h
  have mems {a n v : Nat} (h : s.memRead a n = .ok v) : v = s.memVal a n := by
    rcases memRead_cases s a n with ⟨-, e⟩ | ⟨-, e⟩ <;> rw [e] at h
    · injection h with h; exact h.symm
    · cases h
  have bytes {o : Byte} {v : Nat} (h : s.operandByte o = .ok v) :
      v = (s.memByte (s.pc + o.toNat)).toNat := by
    rcases operandByte_cases s o with ⟨-, -, e⟩ | ⟨-, -, e⟩ | ⟨-, e⟩ <;> rw [e] at h
    · injection h with h; exact h.symm
    · cases h
    · cases h
  have writes {i v : Nat} (h : s.regWrite i v = .ok t) :
      i < s.cfg.regs.length ∧ v < 256 ^ s.cfg.regSize i ∧ t = s.regPut i v := by
    rcases regWrite_cases s i v with ⟨hi, hv, e⟩ | ⟨-, -, e⟩ | ⟨-, e⟩ <;> rw [e] at h
    · injection h with h; exact ⟨hi, hv, h.symm⟩
    · cases h
    · cases h
  cases u with
  | noOperation => injection h with h; subst h; exact .same _ (.inl rfl) rfl
  | halt => injection h with h; subst h; exact .halt
  | loadImmediate o =>
    obtain ⟨v, hv, h⟩ := bind_eq_ok.1 h
    injection h with h; subst h
    exact .load _ v (.inl ⟨o, rfl, bytes hv⟩)
  | loadImmediateInternal c =>
    injection h with h; subst h; exact .load _ _ (.inr (.inl ⟨c, rfl, rfl⟩))
  | loadFromMemory =>
    obtain ⟨a, ha, h⟩ := bind_eq_ok.1 h
    obtain ⟨v, hv, h⟩ := bind_eq_ok.1 h
    injection h with h; subst h
    have := reads ha; subst this
    exact .load _ v (.inr (.inr (.inl ⟨rfl, mems hv⟩)))
  | loadFromRegister o =>
    obtain ⟨v, hv, h⟩ := bind_eq_ok.1 h
    obtain ⟨i, hi, hv⟩ := bind_eq_ok.1 hv
    injection h with h; subst h
    have := bytes hi; subst this
    exact .load _ v (.inr (.inr (.inr (.inl ⟨o, rfl, reads hv⟩))))
  | loadFromRegisterInternal i =>
    obtain ⟨v, hv, h⟩ := bind_eq_ok.1 h
    injection h with h; subst h
    exact .load _ v (.inr (.inr (.inr (.inr (.inl ⟨i, rfl, reads hv⟩)))))
  | setMemoryAddress =>
    obtain ⟨hi, hv, rfl⟩ := writes h
    exact .reg _ _ _ hi hv (.inl ⟨rfl, rfl, rfl⟩)
  | storeToMemory =>
    obtain ⟨a, ha, h⟩ := bind_eq_ok.1 h
    have := reads ha; subst this
    rcases memWrite_cases s (s.regVal s.cfg.marId) s.cfg.dataSize s.acc with
      ⟨hr, hv, e⟩ | ⟨-, e⟩ | ⟨-, -, e⟩ <;> rw [e] at h
    · injection h with h; subst h; exact .store hr hv
    · cases h
    · cases h
  | storeToRegister o =>
    obtain ⟨i, hb, h⟩ := bind_eq_ok.1 h
    have := bytes hb; subst this
    obtain ⟨hi, hv, rfl⟩ := writes h
    exact .reg _ _ _ hi hv (.inr (.inl ⟨o, rfl, rfl, rfl⟩))
  | storeToRegisterInternal id =>
    obtain ⟨hi, hv, rfl⟩ := writes h
    exact .reg _ _ _ hi hv (.inr (.inr (.inl ⟨id, rfl, rfl, rfl⟩)))
  | stepProgramMemory n =>
    obtain ⟨a, ha, h⟩ := bind_eq_ok.1 h
    have := reads ha; subst this
    obtain ⟨hi, hv, rfl⟩ := writes h
    exact .reg _ _ _ hi hv (.inr (.inr (.inr (.inl ⟨n, rfl, rfl, rfl⟩))))
  | add =>
    obtain ⟨a, ha, h⟩ := bind_eq_ok.1 h
    obtain ⟨b, hb, h⟩ := bind_eq_ok.1 h
    injection h with h; subst h
    have := reads ha; subst this
    have := reads hb; subst this
    exact .load _ _ (.inr (.inr (.inr (.inr (.inr (.inl ⟨rfl, rfl⟩))))))
  | sub =>
    obtain ⟨a, ha, h⟩ := bind_eq_ok.1 h
    obtain ⟨b, hb, h⟩ := bind_eq_ok.1 h
    have := reads ha; subst this
    have := reads hb; subst this
    split at h
    · cases h
    · injection h with h; subst h
      exact .load _ _ (.inr (.inr (.inr (.inr (.inr (.inr ⟨rfl, by
        unfold State.regA State.regB; omega, rfl⟩))))))
  | pushToStack => exact microPushToStack_ok h
  | popFromStack => exact microPopFromStack_ok h
  | jump =>
    obtain ⟨hi, hv, rfl⟩ := microJump_ok h
    exact .jump _ hi hv (.inl rfl) rfl
  | compare =>
    obtain ⟨a, b, -, hi, hv, rfl⟩ := microCompare_ok h
    exact .reg _ _ _ hi hv (.inr (.inr (.inr (.inr ⟨rfl, rfl, compareFlags_lt_three a b⟩))))
  | jumpIfFlag t m =>
    obtain ⟨f, hf, h⟩ := bind_eq_ok.1 h
    have := reads hf; subst this
    split at h
    · obtain ⟨hi, hv, rfl⟩ := microJump_ok h
      exact .jump _ hi hv (.inr (.inl ⟨t, m, rfl⟩)) ‹_›
    · injection h with h; subst h
      exact .same _ (.inr (.inl ⟨t, m, rfl⟩)) (Bool.eq_false_iff.2 ‹_›)
  | jumpIfNotFlag t m =>
    obtain ⟨f, hf, h⟩ := bind_eq_ok.1 h
    have := reads hf; subst this
    split at h
    · rename_i hc
      injection h with h; subst h
      exact .same _ (.inr (.inr ⟨t, m, rfl⟩)) (congrArg Bool.not hc)
    · rename_i hc
      obtain ⟨hi, hv, rfl⟩ := microJump_ok h
      exact .jump _ hi hv (.inr (.inr ⟨t, m, rfl⟩)) (congrArg Bool.not (Bool.eq_false_iff.2 hc))

/-- An execute tick that does not raise: the effect, then one more on the cursor (44_sequencer.md
R113). -/
theorem runMicroOp_next {u : MicroOp} {s t : State} (h : runMicroOp u s = .next t) :
    ∃ m, Effect s u m ∧ t = m.setCurrentStep (m.currentStep + 1) := by
  rw [runMicroOp_eq] at h
  unfold executeTick at h
  cases e : microOf u s with
  | ok m => rw [e] at h; injection h with h; exact ⟨m, microOf_effect e, h.symm⟩
  | error c => rw [e] at h; cases h

/-! ### Frames, read off the effect -/

theorem Effect.cfg_eq {s t : State} {u : MicroOp} (h : Effect s u t) : t.cfg = s.cfg := by
  cases h <;> simp

theorem Effect.storage_eq {s t : State} {u : MicroOp} (h : Effect s u t) : t.storage = s.storage := by
  cases h <;> simp

theorem Effect.fatal_eq {s t : State} {u : MicroOp} (h : Effect s u t) : t.fatal = s.fatal := by
  cases h <;> simp

theorem Effect.currentStep_eq {s t : State} {u : MicroOp} (h : Effect s u t) :
    t.currentStep = s.currentStep := by
  cases h <;> simp

theorem Effect.rf_length {s t : State} {u : MicroOp} (h : Effect s u t) :
    t.rf.length = s.rf.length := by
  cases h <;> simp

theorem Effect.currentOpcode_cases {s t : State} {u : MicroOp} (h : Effect s u t) :
    t.currentOpcode = s.currentOpcode ∨ t.currentOpcode = none := by
  cases h <;> simp

/-- Only Halt sets `halted` (10_state.md R31). -/
theorem Effect.halted_eq {s t : State} {u : MicroOp} (h : Effect s u t) (hu : u ≠ .halt) :
    t.halted = s.halted := by
  cases h <;> first | exact absurd rfl hu | simp

/-- Only a taken jump clears `current_opcode` (10_state.md R29). -/
theorem Effect.currentOpcode_of_not_taken {s t : State} {u : MicroOp} (h : Effect s u t)
    (hu : u.taken s = false) : t.currentOpcode = s.currentOpcode := by
  cases h
  case jump ht => rw [hu] at ht; cases ht
  all_goals simp

/-- A taken jump sets the program counter to the accumulator and the engine Idle
(43_microops_control.md R105). -/
theorem Effect.of_taken {s t : State} {u : MicroOp} (h : Effect s u t) (hu : u.taken s = true) :
    t = (s.regPut s.cfg.pcId s.acc).setCurrentOpcode none ∧ s.cfg.pcId < s.cfg.regs.length ∧
      s.acc < 256 ^ s.cfg.regSize s.cfg.pcId := by
  cases h
  case jump hi hv _ _ => exact ⟨rfl, hi, hv⟩
  case same hn => rw [hu] at hn; cases hn
  case load h =>
    rcases h with ⟨_, rfl, _⟩ | ⟨_, rfl, _⟩ | ⟨rfl, _⟩ | ⟨_, rfl, _⟩ | ⟨_, rfl, _⟩ | ⟨rfl, _⟩ | ⟨rfl, _⟩ <;>
      cases hu
  case reg h =>
    rcases h with ⟨rfl, _⟩ | ⟨_, rfl, _⟩ | ⟨_, rfl, _⟩ | ⟨_, rfl, _⟩ | ⟨rfl, _⟩ <;> cases hu
  all_goals cases hu

/-- The canonical form and the bounds of memory are kept (20_memory.md R40). -/
theorem Effect.mem_wf {s t : State} {u : MicroOp} (h : Effect s u t)
    (hwf : Memory.wf s.mem = true) : Memory.wf t.mem = true := by
  cases h
  case store => exact Memory.writeBytes_wf _ _ hwf
  case push => simpa using Memory.writeBytes_wf _ _ hwf
  case pop => simpa using Memory.zeroBytes_wf _ _ hwf
  all_goals simpa using hwf

theorem Effect.mem_within {s t : State} {u : MicroOp} (h : Effect s u t)
    (hw : Memory.within s.cfg.memSize s.mem = true) :
    Memory.within s.cfg.memSize t.mem = true := by
  cases h
  case store ha hv => exact Memory.writeBytes_within (by simpa using ha) hw
  case push hi hs ha hv =>
    rw [regPut_mem, memPut_mem]
    exact Memory.writeBytes_within (by simp; omega) hw
  case pop hi ha hv =>
    rw [regPut_mem, memClear_mem]
    exact Memory.zeroBytes_within ha hw
  all_goals simpa using hw

/-- A micro-operation that is no memory writer leaves memory alone (20_memory.md R47). -/
theorem Effect.mem_eq {s t : State} {u : MicroOp} (h : Effect s u t)
    (h1 : u ≠ .storeToMemory) (h2 : u ≠ .pushToStack) (h3 : u ≠ .popFromStack) :
    t.mem = s.mem := by
  cases h <;> first | exact absurd rfl h1 | exact absurd rfl h2 | exact absurd rfl h3 | simp

end Sys2Proof.Machine
end

