-- ==== Sys2Proof/Laws/Run.lean ====
section
/-! SUPPORT. The tick and the step: what they can do, said once; an instruction of RCS-REF-1 as the run of
its table entry; and the induction that every invariant of the step goes through. -/

namespace Sys2Proof.Machine

/-! ### Ticks -/

/-- A row of the micro-operation catalog executes as its execute tick. -/
theorem exec_toInstr (u : MicroOp) (s : State) : exec u.toInstr s = runMicroOp u s := by
  cases u <;> rfl

/-- A micro-operation's row is that micro-operation. -/
theorem toMicroOp_toInstr (u : MicroOp) : u.toInstr.toMicroOp = some u := by cases u <;> rfl

/-- An execute tick that raises leaves the latch on the state before it. -/
theorem runMicroOp_fault {u : MicroOp} {s : State} {f : Fault} (h : runMicroOp u s = .fault f) :
    ∃ c, microOf u s = .error c ∧ f = .fatal c (s.setFatal (some c)) := by
  rw [runMicroOp_eq] at h
  unfold executeTick at h
  cases e : microOf u s with
  | ok m => rw [e] at h; cases h
  | error c => rw [e] at h; injection h with h; exact ⟨c, rfl, h.symm⟩

theorem runMicroOp_not_refused (u : MicroOp) (s : State) (r : Refusal) :
    runMicroOp u s ≠ .refused r := by
  rw [runMicroOp_eq]
  unfold executeTick raiseFatal
  split <;> simp

/-- All that the fetch tick can do when it does not raise (44_sequencer.md R112). -/
theorem fetch_ok {s t : State} (h : fetch s = .ok t) :
    s.cfg.pcId < s.cfg.regs.length ∧ s.pc < s.cfg.memSize ∧
      (∃ e, lookupEntry s.cfg.itable (s.memByte s.pc) = some e) ∧
      t = latched s (s.memByte s.pc) := by
  unfold fetch at h
  obtain ⟨p, h1, h⟩ := bind_eq_ok.1 h
  obtain ⟨b, h2, h⟩ := bind_eq_ok.1 h
  rcases regRead_cases s s.cfg.pcId with ⟨hi, e⟩ | ⟨-, e⟩ <;> rw [e] at h1
  · injection h1 with h1; subst h1
    rcases memRead_cases s (s.regVal s.cfg.pcId) 1 with ⟨hm, e⟩ | ⟨-, e⟩ <;> rw [e] at h2
    · injection h2 with h2; subst h2
      rw [memVal_one, BitVec.ofNat_toNat, BitVec.setWidth_eq] at h
      cases el : lookupEntry s.cfg.itable (s.memByte (s.regVal s.cfg.pcId)) with
      | none => rw [el] at h; cases h
      | some e =>
        rw [el] at h; injection h with h
        exact ⟨hi, hm, ⟨e, el⟩, h.symm⟩
    · cases h2
  · cases h1

/-- A fetch at a configured program counter inside memory, of an opcode with an entry, latches it. -/
theorem fetch_of_entry {s : State} {e : Entry} (hi : s.cfg.pcId < s.cfg.regs.length)
    (hm : s.pc < s.cfg.memSize) (he : lookupEntry s.cfg.itable (s.memByte s.pc) = some e) :
    fetch s = .ok (latched s (s.memByte s.pc)) := by
  unfold State.pc at hm he ⊢
  have hr : s.memRead (s.regVal s.cfg.pcId) 1 = .ok (s.memByte (s.regVal s.cfg.pcId)).toNat := by
    rw [memRead_ok (by omega), memVal_one]
  simp only [fetch, regRead_ok hi, bind_ok, hr, BitVec.ofNat_toNat, BitVec.setWidth_eq, he]
  rfl

/-- All that the retire tick can do when it does not raise (44_sequencer.md R114). -/
theorem retireTick_next {s t : State} (h : retireTick s = .next t) :
    s.cfg.pcId < s.cfg.regs.length ∧ s.pc + 1 < 256 ^ s.cfg.regSize s.cfg.pcId ∧
      t = (s.regPut s.cfg.pcId (s.pc + 1)).setCurrentOpcode none := by
  unfold retireTick at h
  rcases retire_cases s with ⟨h1, h2, e⟩ | ⟨-, -, e⟩ | ⟨-, e⟩ <;> rw [e] at h
  · injection h with h; exact ⟨h1, h2, h.symm⟩
  · cases h
  · cases h

/-- What one tick can do when it does not raise (44_sequencer.md R111). -/
theorem clock_next {s t : State} (h : clock s = .next t) :
    (t = s ∧ (s.condition = .fatal ∨ s.condition = .halted)) ∨
      (s.condition = .idle ∧ fetch s = .ok t) ∨
      (∃ op u m, s.condition = .executing op ∧ nextMicroOp s = some u ∧
        runMicroOp u s = .next t ∧ Effect s u m ∧ t = m.setCurrentStep (m.currentStep + 1)) ∨
      (∃ op e, s.condition = .executing op ∧ lookupEntry s.cfg.itable op = some e ∧
        nextMicroOp s = none ∧ retireTick s = .next t) := by
  unfold clock at h
  split at h
  case h_1 hc => injection h with h; exact .inl ⟨h.symm, .inl hc⟩
  case h_2 hc => injection h with h; exact .inl ⟨h.symm, .inr hc⟩
  case h_3 hc =>
    unfold fetchTick at h
    split at h
    · injection h with h; subst h; exact .inr (.inl ⟨hc, ‹_›⟩)
    · cases h
  case h_4 op hc =>
    have ho := ((condition_executing_iff s op).1 hc).2.2
    unfold executingTick at h
    cases el : lookupEntry s.cfg.itable op with
    | none => rw [el] at h; cases h
    | some e =>
      rw [el] at h
      have hn : nextMicroOp s = e.microOps[s.currentStep]? := by
        simp [nextMicroOp, hc, State.currentMicroOps, ho, el]
      cases hu : e.microOps[s.currentStep]? with
      | some u =>
        simp only [hu] at h
        obtain ⟨m, hm, ht⟩ := runMicroOp_next h
        exact .inr (.inr (.inl ⟨op, u, m, hc, by rw [hn, hu], h, hm, ht⟩))
      | none =>
        simp only [hu] at h
        exact .inr (.inr (.inr ⟨op, e, hc, el, by rw [hn, hu], h⟩))

theorem clock_of_fatal {s : State} (h : s.fatal ≠ none) : clock s = .next s := by
  simp [clock, (condition_fatal_iff s).2 h]

theorem clock_of_halted {s : State} (h : s.fatal = none) (h' : s.halted = true) :
    clock s = .next s := by
  simp [clock, (condition_halted_iff s).2 ⟨h, h'⟩]

theorem clock_of_idle {s : State} (h : s.condition = .idle) : clock s = fetchTick s := by
  simp [clock, h]

theorem clock_of_microOp {s : State} {op : Byte} {e : Entry} {u : MicroOp}
    (h : s.condition = .executing op) (he : lookupEntry s.cfg.itable op = some e)
    (hu : e.microOps[s.currentStep]? = some u) : clock s = runMicroOp u s := by
  simp [clock, h, executingTick, he, hu]

theorem clock_of_retire {s : State} {op : Byte} {e : Entry} (h : s.condition = .executing op)
    (he : lookupEntry s.cfg.itable op = some e) (hu : e.microOps.length ≤ s.currentStep) :
    clock s = retireTick s := by
  simp [clock, h, executingTick, he, List.getElem?_eq_none hu]

/-- A state no tick changes stays for any number of ticks. -/
theorem ticks_of_stuck {s : State} (h : clock s = .next s) (n : Nat) : ticks n s = .next s := by
  induction n with
  | zero => rfl
  | succ n ih => simp only [ticks, h, ih]

theorem ticks_succ_of_next {s t : State} (h : clock s = .next t) (n : Nat) :
    ticks (n + 1) s = ticks n t := by simp only [ticks, h]

/-- Ticks compose. -/
theorem ticks_add {s t : State} {m : Nat} (h : ticks m s = .next t) (n : Nat) :
    ticks (m + n) s = ticks n t := by
  induction m generalizing s with
  | zero => injection h with h; subst h; rw [Nat.zero_add]
  | succ m ih =>
    rw [Nat.succ_add]
    cases hc : clock s with
    | next u =>
      rw [ticks_succ_of_next hc] at h ⊢
      exact ih h
    | fault f => simp only [ticks, hc] at h; cases h
    | refused r => simp only [ticks, hc] at h; cases h

/-! ### Runs -/

/-- A micro-operation that neither raises nor ends the instruction hands on to the rest of it. -/
theorem runMicroOps_cons {u : MicroOp} {us : List MicroOp} {s m : State} (h : microOf u s = .ok m)
    (hm : m.runEnds = false) : runMicroOps (u :: us) s = runMicroOps us (stepped m) := by
  have hr : (m.setCurrentStep (m.currentStep + 1)).runEnds = false := hm
  simp [runMicroOps, runMicroOp_eq, executeTick, h, hr, stepped]

/-- One that ends the instruction ends the run (44_sequencer.md R116, R118). -/
theorem runMicroOps_cons_ends {u : MicroOp} {us : List MicroOp} {s m : State}
    (h : microOf u s = .ok m) (hm : m.runEnds = true) :
    runMicroOps (u :: us) s = .next (stepped m) := by
  have hr : (m.setCurrentStep (m.currentStep + 1)).runEnds = true := hm
  simp [runMicroOps, runMicroOp_eq, executeTick, h, hr, stepped]

/-- One that raises ends it in the fault. -/
theorem runMicroOps_cons_error {u : MicroOp} {us : List MicroOp} {s : State} {c : FatalCause}
    (h : microOf u s = .error c) : runMicroOps (u :: us) s = raiseFatal s c := by
  simp [runMicroOps, runMicroOp_eq, executeTick, h, raiseFatal]

/-! ### The instructions of RCS-REF-1 are their table entries -/

/-- The micro-operation list of an instruction of RCS-REF-1 (30_encoding.md R66). -/
def referenceMicroOps (i : Instr) : List MicroOp :=
  match lookupEntry rcsRef1 ((encode i).headD 0) with
  | some e => e.microOps
  | none => []

/-- The meaning of an instruction of RCS-REF-1 is the run of its table entry over its bytes
(45_refisa_data.md R125). -/
theorem exec_reference {i : Instr} (h : i.isReference = true) (s : State) :
    exec i s = match latchInstruction (encode i) ((encode i).headD 0) s with
      | .ok t => runMicroOps (referenceMicroOps i) t
      | .error c => raiseFatal s c := by
  cases i <;> first | rfl | cases h

/-- An instruction of RCS-REF-1 has an entry under its opcode. -/
theorem lookup_reference {i : Instr} (h : i.isReference = true) :
    ∃ e, lookupEntry rcsRef1 ((encode i).headD 0) = some e ∧ e.microOps = referenceMicroOps i := by
  cases i <;> first | exact ⟨_, rfl, rfl⟩ | cases h

/-- What decodes begins with the encoding of what it decodes to. -/
theorem decode_ok {bs rest : List Byte} {i : Instr} (h : decode bs = .ok (i, rest)) :
    bs.headD 0 = (encode i).headD 0 ∧ i.isReference = true ∧ encode i <+: bs ∧ bs ≠ [] := by
  cases bs with
  | nil => cases h
  | cons op bs =>
    have hop : op = BitVec.ofNat 8 op.toNat := by simp
    simp only [decode] at h
    unfold decodeOpcode at h
    split at h
    · cases h
    all_goals
      rename_i hd
      split at hd <;> first
        | cases hd; done
        | (rename_i hn
           rw [hn] at hop
           injection hd with hd
           injection hd with hd
           subst hd hop
           first
             | (injection h with h; injection h with h1 h2; subst h1
                exact ⟨rfl, rfl, ⟨_, rfl⟩, by simp⟩)
             | (split at h
                · injection h with h; injection h with h1 h2; subst h1
                  exact ⟨rfl, rfl, ⟨_, rfl⟩, by simp⟩
                · cases h))

/-- Where an instruction is decoded at the program counter, its bytes stand there, inside memory, and the
installed table gives its opcode its micro-operations. -/
theorem decodeAt_some {s : State} {i : Instr} (h : decodeAt s = some i) :
    i.isReference = true ∧ s.cfg.pcId < s.cfg.regs.length ∧
      s.pc + (encode i).length ≤ s.cfg.memSize ∧
      Memory.readBytes s.mem s.pc (encode i).length = encode i ∧
      s.memByte s.pc = (encode i).headD 0 ∧
      ∃ e, lookupEntry s.cfg.itable (s.memByte s.pc) = some e ∧
        e.microOps = referenceMicroOps i := by
  unfold decodeAt at h
  split at h
  · cases h
  · rename_i op rest hb
    split at h
    · rename_i hc
      split at h
      · rename_i j r hd
        injection h with h; subst h
        obtain ⟨h1, h2, h3, -⟩ := decode_ok hd
        have hlen : (encode j).length ≤ min 3 (s.cfg.memSize - s.pc) := by
          have := h3.length_le
          rw [← hb, State.bytesAtPc, Memory.readBytes_length] at this
          exact this
        have hpos : 0 < (encode j).length := by
          cases j <;> first | (simp [encode]; done) | cases h2
        have hread : Memory.readBytes s.mem s.pc (encode j).length = encode j := by
          obtain ⟨k, hk⟩ := h3
          rw [← hb, State.bytesAtPc] at hk
          apply List.ext_getElem?
          intro n
          by_cases hn : n < (encode j).length
          · rw [Memory.readBytes_getElem? _ _ _ _ hn,
              ← Memory.readBytes_getElem? s.mem s.pc (min 3 (s.cfg.memSize - s.pc)) n (by omega),
              ← hk, List.getElem?_append_left hn]
          · rw [List.getElem?_eq_none (by simpa using hn), List.getElem?_eq_none (by omega)]
        have hop : s.memByte s.pc = (encode j).headD 0 := by
          rw [← hread]
          cases hl : (encode j).length with
          | zero => omega
          | succ n => rfl
        refine ⟨h2, hc.1, by omega, hread, hop, ?_⟩
        have hu := hc.2
        simp only [List.headD_cons] at h1
        rw [State.usesReference, decide_eq_true_eq, h1] at hu
        obtain ⟨e, he, hm⟩ := lookup_reference h2
        rw [he] at hu
        rw [hop]
        cases hl : lookupEntry s.cfg.itable ((encode j).headD 0) with
        | none => rw [hl] at hu; cases hu
        | some e' =>
          rw [hl] at hu
          simp only [Option.map_some, Option.some.injEq] at hu
          exact ⟨e', rfl, by rw [hu, hm]⟩
      · cases h
    · cases h

/-- The meaning of the instruction decoded at the program counter: its micro-operations from the latched
state. -/
theorem exec_decodeAt {s : State} {i : Instr} (h : decodeAt s = some i) :
    exec i s = runMicroOps (referenceMicroOps i) (latched s ((encode i).headD 0)) := by
  obtain ⟨hr, hpc, hm, hb, -, -⟩ := decodeAt_some h
  rw [exec_reference hr]
  cases he : encode i with
  | nil => cases i <;> cases he
  | cons op operands =>
    rw [he] at hb hm
    rw [List.headD_cons,
      latchInstruction_of_stands hpc (by simp only [List.length_cons] at hm; omega) hb]

/-- It is the run from the fetch tick (44_sequencer.md R121). -/
theorem exec_eq_runFetched {s : State} {i : Instr} (h : decodeAt s = some i) :
    exec i s = runFetched s := by
  obtain ⟨-, hpc, hm, -, hop, e, he, hu⟩ := decodeAt_some h
  have hpos : 0 < (encode i).length := by
    cases i <;> simp [encode, MicroOp.romBytes]
  rw [exec_decodeAt h, runFetched, fetch_of_entry hpc (by omega) he, ← hop, ← hu]
  simp [latched, State.currentMicroOps, he]

/-! ### The step -/

/-- A step is a tick, or from Idle the run from the fetch tick (44_sequencer.md R121). -/
theorem step_eq (s : State) :
    step s = if s.condition = .idle then runFetched s else clock s := by
  unfold step clock
  cases hc : s.condition with
  | idle =>
    simp only [if_true]
    cases hd : decodeAt s with
    | none => rfl
    | some i => exact exec_eq_runFetched hd
  | fatal => simp
  | halted => simp
  | executing op => simp

/-- What every micro-operation and the retire tick keep, a run keeps. -/
theorem runMicroOps_keeps {P : State → Prop}
    (hmicro : ∀ u s m, P s → Effect s u m → P (m.setCurrentStep (m.currentStep + 1)))
    (hretire : ∀ s, P s → s.cfg.pcId < s.cfg.regs.length →
      s.pc + 1 < 256 ^ s.cfg.regSize s.cfg.pcId →
      P ((s.regPut s.cfg.pcId (s.pc + 1)).setCurrentOpcode none))
    {us : List MicroOp} {s t : State} (hs : P s) (h : runMicroOps us s = .next t) : P t := by
  induction us generalizing s with
  | nil =>
    obtain ⟨h1, h2, rfl⟩ := retireTick_next h
    exact hretire s hs h1 h2
  | cons u us ih =>
    simp only [runMicroOps] at h
    cases hu : runMicroOp u s with
    | next m =>
      rw [hu] at h
      obtain ⟨m', he, rfl⟩ := runMicroOp_next hu
      have hp := hmicro u s m' hs he
      simp only at h
      split at h
      · injection h with h; subst h; exact hp
      · exact ih hp h
    | fault f => rw [hu] at h; cases h
    | refused r => rw [hu] at h; cases h

/-- The induction of every invariant: what latching an opcode that has an entry, every micro-operation and
the retire tick keep, every tick and every step keeps. -/
theorem clock_keeps {P : State → Prop}
    (hfetch : ∀ s e, P s → lookupEntry s.cfg.itable (s.memByte s.pc) = some e →
      P (latched s (s.memByte s.pc)))
    (hmicro : ∀ u s m, P s → Effect s u m → P (m.setCurrentStep (m.currentStep + 1)))
    (hretire : ∀ s, P s → s.cfg.pcId < s.cfg.regs.length →
      s.pc + 1 < 256 ^ s.cfg.regSize s.cfg.pcId →
      P ((s.regPut s.cfg.pcId (s.pc + 1)).setCurrentOpcode none))
    {s t : State} (hs : P s) (h : clock s = .next t) : P t := by
  rcases clock_next h with ⟨rfl, -⟩ | ⟨-, hf⟩ | ⟨op, u, m, -, -, -, hm, rfl⟩ | ⟨op, e, -, -, -, hr⟩
  · exact hs
  · obtain ⟨-, -, ⟨e, he⟩, rfl⟩ := fetch_ok hf
    exact hfetch s e hs he
  · exact hmicro u s m hs hm
  · obtain ⟨h1, h2, rfl⟩ := retireTick_next hr
    exact hretire s hs h1 h2

theorem step_keeps {P : State → Prop}
    (hfetch : ∀ s e, P s → lookupEntry s.cfg.itable (s.memByte s.pc) = some e →
      P (latched s (s.memByte s.pc)))
    (hmicro : ∀ u s m, P s → Effect s u m → P (m.setCurrentStep (m.currentStep + 1)))
    (hretire : ∀ s, P s → s.cfg.pcId < s.cfg.regs.length →
      s.pc + 1 < 256 ^ s.cfg.regSize s.cfg.pcId →
      P ((s.regPut s.cfg.pcId (s.pc + 1)).setCurrentOpcode none))
    {s t : State} (hs : P s) (h : step s = .next t) : P t := by
  rw [step_eq] at h
  split at h
  · unfold runFetched at h
    cases hf : fetch s with
    | ok m =>
      rw [hf] at h
      obtain ⟨-, -, ⟨e, he⟩, rfl⟩ := fetch_ok hf
      exact runMicroOps_keeps hmicro hretire (hfetch s e hs he) h
    | error c => rw [hf] at h; cases h
  · exact clock_keeps hfetch hmicro hretire hs h

end Sys2Proof.Machine
end

