-- ==== Sys2Proof/Laws/Host.lean ====
section
/-! SUPPORT. A host session: what one of its transitions can do, said once. -/

namespace Sys2Proof.Machine

@[simp] theorem Session.withState_state (h : Session) (s : State) : (h.withState s).state = s := rfl
@[simp] theorem Session.withState_ticked (h : Session) (s : State) :
    (h.withState s).ticked = h.ticked := rfl
@[simp] theorem Session.construct_state (c : Config) :
    (Session.construct c).state = State.construct c := rfl
@[simp] theorem Session.construct_ticked (c : Config) : (Session.construct c).ticked = false := rfl
@[simp] theorem stateAfter_next (s t : State) : stateAfter s (.next t) = t := rfl
@[simp] theorem stateAfter_raiseFatal (s t : State) (c : FatalCause) :
    stateAfter s (raiseFatal t c) = t.setFatal (some c) := rfl

@[simp] theorem addRegister_length (regs : List RegDescriptor) (name : String) (size offset : Nat) :
    (addRegister regs name size offset).length = regs.length + 1 := by simp [addRegister]

/-- All that a transition which succeeds can be. -/
theorem Session.perform_ok {a : HostAction} {h h' : Session} (e : h.perform a = .ok h') :
    (a = .clock ∧ h' = ⟨stateAfter h.state (clock h.state), true⟩) ∨
    (a = .unhalt ∧ h' = h.withState h.state.unhalt) ∨
    (∃ r bs t, a = .writeRegister r bs ∧ h.state.hostWrite r bs = .ok t ∧ h' = h.withState t) ∨
    (∃ k n bs t, a = .writeStore k n bs ∧ h.state.writeRange k n bs = .ok t ∧ h' = h.withState t) ∨
    (∃ k n m t, a = .clearStore k n m ∧ h.state.clearRange k n m = .ok t ∧ h' = h.withState t) ∨
    (∃ it, a = .setInstructionSet it ∧ h.ticked = false ∧
      h' = h.withState (h.state.setCfg { h.state.cfg with itable := it })) ∨
    (a = .reset ∧ h' = h.withState h.state.hardReset) := by
  have mapped {x : Except HostError State} (e : x.map h.withState = .ok h') :
      ∃ t, x = .ok t ∧ h' = h.withState t := by
    cases x with
    | ok t => injection e with e; exact ⟨t, rfl, e.symm⟩
    | error c => cases e
  cases a with
  | clock => injection e with e; exact .inl ⟨rfl, e.symm⟩
  | unhalt => injection e with e; exact .inr (.inl ⟨rfl, e.symm⟩)
  | writeRegister r bs =>
    obtain ⟨t, h1, h2⟩ := mapped e
    exact .inr (.inr (.inl ⟨r, bs, t, rfl, h1, h2⟩))
  | writeStore k n bs =>
    obtain ⟨t, h1, h2⟩ := mapped e
    exact .inr (.inr (.inr (.inl ⟨k, n, bs, t, rfl, h1, h2⟩)))
  | clearStore k n m =>
    obtain ⟨t, h1, h2⟩ := mapped e
    exact .inr (.inr (.inr (.inr (.inl ⟨k, n, m, t, rfl, h1, h2⟩))))
  | setInstructionSet it =>
    simp only [Session.perform, Session.setInstructionSet] at e
    split at e
    · cases e
    · injection e with e
      exact .inr (.inr (.inr (.inr (.inr (.inl ⟨it, rfl, Bool.eq_false_iff.2 ‹_›, e.symm⟩)))))
  | reset => injection e with e; exact .inr (.inr (.inr (.inr (.inr (.inr ⟨rfl, e.symm⟩)))))

end Sys2Proof.Machine
end

