-- ==== Sys2Proof/Laws/PerInstr.lean ====
section
/-! SUPPORT. The per-instruction family: an instruction's encoding is as long as its format says, one byte
and the operand bytes the opcode map gives its opcode (30_encoding.md R60, R66), or the three bytes of a
micro-word (R65). One lemma per constructor. -/

namespace Sys2Proof.Laws.EncodedLength

/-- The bytes of a format, opcode included (30_encoding.md R60). -/
def formatLength : Option Format → Nat
  | none => 0
  | some (.f0 _) => 1
  | some (.f1 _) => 2
  | some (.f2 _) => 3

/-- The encoding of `i` has the length of its level: the format of its opcode, or a micro-word. -/
def Statement (i : Instr) : Prop :=
  (encode i).length =
    match i.toMicroOp with
    | some _ => 3
    | none => formatLength (decodeOpcode ((encode i).headD 0))

theorem nop : Statement .nop := rfl
theorem hlt : Statement .hlt := rfl
theorem ldi (imm : Byte) : Statement (.ldi imm) := rfl
theorem ldr (rs : Byte) : Statement (.ldr rs) := rfl
theorem str (rd : Byte) : Statement (.str rd) := rfl
theorem mvi (rd imm : Byte) : Statement (.mvi rd imm) := rfl
theorem mov (rd rs : Byte) : Statement (.mov rd rs) := rfl
theorem ldm (rd addr : Byte) : Statement (.ldm rd addr) := rfl
theorem stm (addr rs : Byte) : Statement (.stm addr rs) := rfl
theorem ldx (rd ra : Byte) : Statement (.ldx rd ra) := rfl
theorem stx (ra rs : Byte) : Statement (.stx ra rs) := rfl
theorem add : Statement .add := rfl
theorem sub : Statement .sub := rfl
theorem cmp : Statement .cmp := rfl
theorem push : Statement .push := rfl
theorem pshi (imm : Byte) : Statement (.pshi imm) := rfl
theorem pshr (rs : Byte) : Statement (.pshr rs) := rfl
theorem pop : Statement .pop := rfl
theorem popr (rd : Byte) : Statement (.popr rd) := rfl
theorem jmp (addr : Byte) : Statement (.jmp addr) := rfl
theorem jpa : Statement .jpa := rfl
theorem jeq (addr : Byte) : Statement (.jeq addr) := rfl
theorem jne (addr : Byte) : Statement (.jne addr) := rfl
theorem jgt (addr : Byte) : Statement (.jgt addr) := rfl
theorem jlt (addr : Byte) : Statement (.jlt addr) := rfl
theorem jle (addr : Byte) : Statement (.jle addr) := rfl
theorem jge (addr : Byte) : Statement (.jge addr) := rfl
theorem jnl (addr : Byte) : Statement (.jnl addr) := rfl
theorem call (addr : Byte) : Statement (.call addr) := rfl
theorem ret : Statement .ret := rfl
theorem uNoOperation : Statement .uNoOperation := rfl
theorem uHalt : Statement .uHalt := rfl
theorem uLoadImmediate (offset : Byte) : Statement (.uLoadImmediate offset) := rfl
theorem uLoadImmediateInternal (value : Byte) : Statement (.uLoadImmediateInternal value) := rfl
theorem uLoadFromMemory : Statement .uLoadFromMemory := rfl
theorem uLoadFromRegister (offset : Byte) : Statement (.uLoadFromRegister offset) := rfl
theorem uLoadFromRegisterInternal (id : Byte) : Statement (.uLoadFromRegisterInternal id) := rfl
theorem uSetMemoryAddress : Statement .uSetMemoryAddress := rfl
theorem uStoreToMemory : Statement .uStoreToMemory := rfl
theorem uStoreToRegister (offset : Byte) : Statement (.uStoreToRegister offset) := rfl
theorem uStoreToRegisterInternal (id : Byte) : Statement (.uStoreToRegisterInternal id) := rfl
theorem uStepProgramMemory (n : Byte) : Statement (.uStepProgramMemory n) := rfl
theorem uAdd : Statement .uAdd := rfl
theorem uSub : Statement .uSub := rfl
theorem uPushToStack : Statement .uPushToStack := rfl
theorem uPopFromStack : Statement .uPopFromStack := rfl
theorem uJump : Statement .uJump := rfl
theorem uCompare : Statement .uCompare := rfl
theorem uJumpIfFlag (trueMask falseMask : Byte) : Statement (.uJumpIfFlag trueMask falseMask) := rfl
theorem uJumpIfNotFlag (trueMask falseMask : Byte) : Statement (.uJumpIfNotFlag trueMask falseMask) := rfl

end Sys2Proof.Laws.EncodedLength
end

