-- ==== Sys2Proof/Laws/Reference.lean ====
section
/-! SUPPORT. The reference configuration (00_scope.md R8): eight one-byte registers, register `i` being byte
`i` of the backing buffer, and an instruction that stands at the program counter. -/

namespace Sys2Proof.Machine

theorem referenceConfig_wellFormed : referenceConfig.wellFormed = true := by decide

theorem referenceConfig_noOverlap : referenceConfig.noOverlap = true := by decide

@[simp] theorem referenceConfig_regs_length : referenceConfig.regs.length = 8 := rfl

@[simp] theorem referenceConfig_memSize : referenceConfig.memSize = 256 := rfl

@[simp] theorem referenceConfig_dataSize : referenceConfig.dataSize = 1 := rfl

@[simp] theorem referenceConfig_itable : referenceConfig.itable = rcsRef1 := rfl

@[simp] theorem referenceConfig_pcId : referenceConfig.pcId = 0 := rfl
@[simp] theorem referenceConfig_spId : referenceConfig.spId = 1 := rfl
@[simp] theorem referenceConfig_marId : referenceConfig.marId = 3 := rfl
@[simp] theorem referenceConfig_flagsId : referenceConfig.flagsId = 4 := rfl
@[simp] theorem referenceConfig_regAId : referenceConfig.regAId = 5 := rfl
@[simp] theorem referenceConfig_regBId : referenceConfig.regBId = 6 := rfl

/-- Register `i` of the reference map is byte `i` of the backing buffer (10_state.md R19). -/
theorem reference_descriptor {i : Nat} (hi : i < 8) :
    ∃ d, referenceConfig.regs[i]? = some d ∧ d.offset = i ∧ d.size = 1 := by
  have : i = 0 ∨ i = 1 ∨ i = 2 ∨ i = 3 ∨ i = 4 ∨ i = 5 ∨ i = 6 ∨ i = 7 := by omega
  rcases this with rfl | rfl | rfl | rfl | rfl | rfl | rfl | rfl <;> exact ⟨_, rfl, rfl, rfl⟩

theorem reference_regSize {i : Nat} (hi : i < 8) : referenceConfig.regSize i = 1 := by
  obtain ⟨d, hd, -, hs⟩ := reference_descriptor hi
  rw [regSize_of_getElem? hd, hs]

/-- The memory after reset is in its canonical form. -/
theorem reset_mem_wf : Memory.wf State.reset.mem = true := rfl

/-- The storage after reset is in its canonical form. -/
theorem reset_storage_wf : Memory.wf State.reset.storage = true := rfl

variable {s : State}

theorem reference_regVal (hc : s.cfg = referenceConfig) {i : Nat} (hi : i < 8) :
    s.regVal i = (s.rf.getD i 0).toNat := by
  obtain ⟨d, hd, ho, hs⟩ := reference_descriptor hi
  simp [State.regVal, hc, hd, ho, hs]

theorem reference_regVal_unknown (hc : s.cfg = referenceConfig) {i : Nat} (hi : 8 ≤ i) :
    s.regVal i = 0 := by
  have : referenceConfig.regs[i]? = none := List.getElem?_eq_none (by simpa using hi)
  simp [State.regVal, hc, this]

theorem reference_regPut (hc : s.cfg = referenceConfig) {i : Nat} (hi : i < 8) (v : Nat) :
    s.regPut i v = s.setRf (s.rf.set i (BitVec.ofNat 8 v)) := by
  obtain ⟨d, hd, ho, hs⟩ := reference_descriptor hi
  simp [State.regPut, hc, hd, ho, hs]

theorem reference_regVal_le (hc : s.cfg = referenceConfig) (i : Nat) : s.regVal i ≤ 255 := by
  by_cases hi : i < 8
  · have := regVal_lt s i
    rw [hc, reference_regSize hi] at this
    omega
  · simp [reference_regVal_unknown hc (Nat.le_of_not_lt hi)]

theorem reference_pc_le (hc : s.cfg = referenceConfig) : s.pc ≤ 255 := reference_regVal_le hc _

theorem reference_sp_le (hc : s.cfg = referenceConfig) : s.sp ≤ 255 := reference_regVal_le hc _

/-- No register of the reference map is wider than a byte: Compare is the one-byte one. -/
theorem reference_compareIsWide (hc : s.cfg = referenceConfig) : s.compareIsWide = false := by
  rw [State.compareIsWide, hc]; rfl

/-- What an instruction that stands at the program counter gives. -/
theorem stands_facts {i : Instr} (h : Stands i s) :
    i.isReference = true ∧ s.cfg = referenceConfig ∧ s.rf.length = 8 ∧ Memory.wf s.mem = true ∧
      s.fatal = none ∧ s.halted = false ∧ s.currentOpcode = none ∧
      s.pc + (encode i).length ≤ 256 ∧
      (∀ k, k < (encode i).length → s.memByte (s.pc + k) = (encode i).getD k 0) ∧
      exec i s = runMicroOps (referenceMicroOps i) (latched s ((encode i).headD 0)) := by
  obtain ⟨⟨hc, hl, hw⟩, hi, hd⟩ := h
  obtain ⟨hf, hh, ho⟩ := (condition_idle_iff s).1 hi
  obtain ⟨hr, -, hm, hb, -, -⟩ := decodeAt_some hd
  refine ⟨hr, hc, hl, hw, hf, hh, ho, by rwa [hc] at hm, fun k hk => ?_, exec_decodeAt hd⟩
  have := Memory.readBytes_getElem? s.mem s.pc (encode i).length k hk
  rw [hb] at this
  simp [List.getD, this, State.memByte]

end Sys2Proof.Machine
end

