-- ==== Sys2Proof/Tests/Slice0.lean ====
section
/-! SUPPORT. The model's own tests: the checks of WellFormed refuse an ill-formed term each, every
constructor decodes from a word written out from 30_encoding.md R65 and R66, single steps give what
the vectors of 95_test_vectors.md state (their numbers in the docstrings), and every statement with
hypotheses has a witness that meets them. -/

namespace Sys2Proof.Tests

open Sys2Proof.Machine

/-! ### Small states -/

/-- The outcome is a next state with property `p`. -/
def after (o : Host.Outcome State Fault Refusal) (p : State → Bool) : Bool :=
  match o with
  | .next t => p t
  | .fault _ => false
  | .refused _ => false

/-- The reset register file with some registers set. -/
def regsWith (l : List (Nat × Byte)) : List Byte :=
  l.foldl (fun rf p => rf.set p.1 p.2) State.reset.rf

/-- An Idle state of the reference configuration: registers, memory, accumulator. -/
def ref (l : List (Nat × Byte)) (mem : Memory) (acc : Nat) : State :=
  { State.reset with rf := regsWith l, mem := mem, acc := acc }

/-- Bytes placed at the program counter. -/
def place (bytes : List Byte) (s : State) : State :=
  s.setMem (Memory.writeBytes s.mem s.pc bytes)

/-- An instruction's bytes at 0x10, the start of every vector of part 3. -/
def vec (bytes : List Byte) (l : List (Nat × Byte)) (mem : Memory) (acc : Nat) : State :=
  place bytes (ref ((0, 0x10) :: l) mem acc)

/-- A state in the middle of an instruction, the start of every vector of part 2. -/
def mid (l : List (Nat × Byte)) (mem : Memory) (acc : Nat) : State :=
  (ref l mem acc).setCurrentOpcode (some 0x13)

/-- The registers `l` and the bytes `m`, as a state has them. -/
def has (l : List (Nat × Nat)) (m : List (Nat × Nat)) (t : State) : Bool :=
  l.all (fun p => t.regVal p.1 == p.2) && m.all (fun p => (t.memByte p.1).toNat == p.2)

/-! ### WellFormed refuses -/

theorem test_data_size_refused :
    ({ referenceConfig with dataSize := 0 } : Config).dataSizeOk = false ∧
      ({ referenceConfig with dataSize := 0 } : Config).wellFormed = false :=
  by decide
theorem test_empty_memory_refused :
    ({ referenceConfig with memSize := 0 } : Config).memSizeOk = false ∧
      ({ referenceConfig with memSize := 0 } : Config).wellFormed = false :=
  by decide
theorem test_large_memory_refused :
    ({ referenceConfig with memSize := 257 } : Config).memSizeOk = false ∧
      ({ referenceConfig with memSize := 257 } : Config).wellFormed = false :=
  by decide
theorem test_repeated_name_refused :
    ({ referenceConfig with regs := ⟨"pc", 1, 8⟩ :: referenceRegs 1 } : Config).regsOk = false ∧
      ({ referenceConfig with regs := ⟨"pc", 1, 8⟩ :: referenceRegs 1 } : Config).wellFormed = false :=
  by decide
theorem test_empty_register_refused :
    ({ referenceConfig with regs := referenceRegs 1 ++ [⟨"x", 0, 8⟩] } : Config).regsOk = false ∧
      ({ referenceConfig with regs := referenceRegs 1 ++ [⟨"x", 0, 8⟩] } : Config).wellFormed = false :=
  by decide
theorem test_too_many_registers_refused :
    ({ referenceConfig with
        regs := (List.range 257).map (fun k => ⟨String.ofList (List.replicate k 'x'), 1, k⟩) } :
      Config).regsOk = false := by
  simp [Config.regsOk]
theorem test_unknown_role_refused :
    ({ referenceConfig with regBId := 8 } : Config).rolesOk = false ∧
      ({ referenceConfig with regBId := 8 } : Config).wellFormed = false :=
  by decide
theorem test_shared_role_refused :
    ({ referenceConfig with regBId := 5 } : Config).rolesOk = false ∧
      ({ referenceConfig with regBId := 5 } : Config).wellFormed = false :=
  by decide
theorem test_sp_reset_above_memory_refused :
    ({ referenceConfig with memSize := 128 } : Config).resetsOk = false ∧
      ({ referenceConfig with memSize := 128 } : Config).wellFormed = false :=
  by decide
theorem test_wide_sp_reset_refused :
    ({ referenceConfig with spReset := 256 } : Config).resetsOk = false ∧
      ({ referenceConfig with spReset := 256 } : Config).wellFormed = false :=
  by decide
theorem test_wide_pc_reset_refused :
    ({ referenceConfig with pcReset := 256 } : Config).resetsOk = false ∧
      ({ referenceConfig with pcReset := 256 } : Config).wellFormed = false :=
  by decide
theorem test_repeated_opcode_refused :
    ITable.wellFormed 8 [(0x02, ⟨[], 0⟩), (0x02, ⟨[.halt], 0⟩)] = false := by decide
theorem test_unknown_literal_id_refused :
    MicroOp.wellFormed 8 (.loadFromRegisterInternal 8) = false ∧
      MicroOp.wellFormed 8 (.storeToRegisterInternal 8) = false := by decide
theorem test_literal_id_7_accepted :
    MicroOp.wellFormed 8 (.storeToRegisterInternal 7) = true := by decide
theorem test_ill_formed_instruction_refused :
    Instr.wellFormed referenceConfig (.uStoreToRegisterInternal 8) = false := by decide
theorem test_ill_formed_entry_refused :
    Entry.wellFormed 8 ⟨[.add, .loadFromRegisterInternal 9], 0⟩ = false ∧
      ITable.wellFormed 8 [(0x02, ⟨[.loadFromRegisterInternal 9], 0⟩)] = false := by decide
theorem test_wrong_length_refused :
    Entry.lengthConsistent ⟨[.loadImmediate 1], 1⟩ = false := by decide
theorem test_overlap_refused :
    ({ referenceConfig with regs := referenceRegs 1 ++ [⟨"x", 2, 6⟩] } : Config).noOverlap = false :=
  by decide
theorem test_ill_formed_micro_words_refused :
    decodeMicroWord 0x140000 = .error (.unknownKind 0x14) ∧
      decodeMicroWord 0x0C0001 = .error (.unusedFieldNotZero 0x0C) ∧
      decodeMicroWord 0x020101 = .error (.unusedFieldNotZero 0x02) := ⟨rfl, rfl, rfl⟩
theorem test_unsorted_memory_refused :
    Memory.wf [(5, 1), (4, 1)] = false ∧ Memory.wf [(4, 0)] = false := by decide
theorem test_reference_config_accepted :
    referenceConfig.wellFormed = true ∧ referenceConfig.noOverlap = true := by decide

/-! ### Decoding: the words of 30_encoding.md R66, one per instruction -/

theorem test_decode_nop : decode [0x00] = .ok (.nop, []) := rfl
theorem test_decode_hlt : decode [0x01] = .ok (.hlt, []) := rfl
theorem test_decode_ldi : decode [0x10, 0x2A] = .ok (.ldi 0x2A, []) := rfl
theorem test_decode_ldr : decode [0x11, 0x05] = .ok (.ldr 0x05, []) := rfl
theorem test_decode_str : decode [0x12, 0x07] = .ok (.str 0x07, []) := rfl
theorem test_decode_mvi : decode [0x13, 0x05, 0x2A] = .ok (.mvi 0x05 0x2A, []) := rfl
theorem test_decode_mov : decode [0x14, 0x07, 0x05] = .ok (.mov 0x07 0x05, []) := rfl
theorem test_decode_ldm : decode [0x20, 0x07, 0x80] = .ok (.ldm 0x07 0x80, []) := rfl
theorem test_decode_stm : decode [0x21, 0x80, 0x05] = .ok (.stm 0x80 0x05, []) := rfl
theorem test_decode_ldx : decode [0x22, 0x07, 0x06] = .ok (.ldx 0x07 0x06, []) := rfl
theorem test_decode_stx : decode [0x23, 0x05, 0x07] = .ok (.stx 0x05 0x07, []) := rfl
theorem test_decode_add : decode [0x30] = .ok (.add, []) := rfl
theorem test_decode_sub : decode [0x31] = .ok (.sub, []) := rfl
theorem test_decode_cmp : decode [0x32] = .ok (.cmp, []) := rfl
theorem test_decode_push : decode [0x40] = .ok (.push, []) := rfl
theorem test_decode_pshi : decode [0x41, 0x07] = .ok (.pshi 0x07, []) := rfl
theorem test_decode_pshr : decode [0x42, 0x05] = .ok (.pshr 0x05, []) := rfl
theorem test_decode_pop : decode [0x43] = .ok (.pop, []) := rfl
theorem test_decode_popr : decode [0x44, 0x07] = .ok (.popr 0x07, []) := rfl
theorem test_decode_jmp : decode [0x50, 0x40] = .ok (.jmp 0x40, []) := rfl
theorem test_decode_jpa : decode [0x51] = .ok (.jpa, []) := rfl
theorem test_decode_jeq : decode [0x52, 0x41] = .ok (.jeq 0x41, []) := rfl
theorem test_decode_jne : decode [0x53, 0x42] = .ok (.jne 0x42, []) := rfl
theorem test_decode_jgt : decode [0x54, 0x43] = .ok (.jgt 0x43, []) := rfl
theorem test_decode_jlt : decode [0x55, 0x44] = .ok (.jlt 0x44, []) := rfl
theorem test_decode_jle : decode [0x56, 0x45] = .ok (.jle 0x45, []) := rfl
theorem test_decode_jge : decode [0x57, 0x46] = .ok (.jge 0x46, []) := rfl
theorem test_decode_jnl : decode [0x58, 0x47] = .ok (.jnl 0x47, []) := rfl
theorem test_decode_call : decode [0x60, 0x09] = .ok (.call 0x09, []) := rfl
theorem test_decode_ret : decode [0x61] = .ok (.ret, []) := rfl

/-! ### Decoding: the micro-words of 30_encoding.md R65, one per micro-operation -/

theorem test_decode_no_operation : decodeMicroWord 0x000000 = .ok .noOperation := rfl
theorem test_decode_halt : decodeMicroWord 0x010000 = .ok .halt := rfl
theorem test_decode_load_immediate : decodeMicroWord 0x020100 = .ok (.loadImmediate 1) := rfl
theorem test_decode_load_immediate_internal :
    decodeMicroWord 0x03FF00 = .ok (.loadImmediateInternal 0xFF) := rfl
theorem test_decode_load_from_memory : decodeMicroWord 0x040000 = .ok .loadFromMemory := rfl
theorem test_decode_load_from_register : decodeMicroWord 0x050200 = .ok (.loadFromRegister 2) := rfl
theorem test_decode_load_from_register_internal :
    decodeMicroWord 0x060300 = .ok (.loadFromRegisterInternal 3) := rfl
theorem test_decode_set_memory_address : decodeMicroWord 0x070000 = .ok .setMemoryAddress := rfl
theorem test_decode_store_to_memory : decodeMicroWord 0x080000 = .ok .storeToMemory := rfl
theorem test_decode_store_to_register : decodeMicroWord 0x090100 = .ok (.storeToRegister 1) := rfl
theorem test_decode_store_to_register_internal :
    decodeMicroWord 0x0A0600 = .ok (.storeToRegisterInternal 6) := rfl
theorem test_decode_step_program_memory :
    decodeMicroWord 0x0B0200 = .ok (.stepProgramMemory 2) := rfl
theorem test_decode_add_micro_op : decodeMicroWord 0x0C0000 = .ok .add := rfl
theorem test_decode_sub_micro_op : decodeMicroWord 0x0D0000 = .ok .sub := rfl
theorem test_decode_push_to_stack : decodeMicroWord 0x0E0000 = .ok .pushToStack := rfl
theorem test_decode_pop_from_stack : decodeMicroWord 0x0F0000 = .ok .popFromStack := rfl
theorem test_decode_jump : decodeMicroWord 0x100000 = .ok .jump := rfl
theorem test_decode_compare : decodeMicroWord 0x110000 = .ok .compare := rfl
theorem test_decode_jump_if_flag : decodeMicroWord 0x120102 = .ok (.jumpIfFlag 0x01 0x02) := rfl
theorem test_decode_jump_if_not_flag :
    decodeMicroWord 0x130003 = .ok (.jumpIfNotFlag 0x00 0x03) := rfl

/-! ### The numbering of table words -/

theorem test_table_word_opcode_high :
    decodeTableWord 16 0x102A = some (.ldi 0x2A) ∧
      decodeTableWord 24 0x218005 = some (.stm 0x80 0x05) ∧
      decodeTableWord 8 0x61 = some .ret := by decide
theorem test_table_word_micro_words :
    decodeTableWord 24 0x0C0000 = some .uAdd ∧
      decodeTableWord 24 0x120102 = some (.uJumpIfFlag 1 2) ∧
      decodeTableWord 24 0x000000 = some .uNoOperation := by decide
/-- The 24-bit words 0x13xxxx are both an `MVI` image and a JumpIfNotFlag micro-word (log 8). -/
theorem test_table_word_shared : decodeTableWord 24 0x130003 = some (.mvi 0x00 0x03) := by decide
theorem test_table_word_refused :
    decodeTableWord 8 0x02 = none ∧ decodeTableWord 24 0x0C0001 = none := by decide
theorem test_fetch_word_instruction :
    after (step (State.reset.withFetchWord 16 0x102A))
      (fun t => has [(0, 2)] [(0, 0x10), (1, 0x2A)] t && t.acc == 0x2A) = true := by decide
theorem test_fetch_word_micro_word :
    after (step (State.reset.withFetchWord 24 0x03FF00)) (fun t => t.acc == 0xFF) = true :=
  by decide

/-! ### One execute tick (95_test_vectors.md part 2) -/

/-- V1. -/
theorem test_no_operation :
    after (exec .uNoOperation (mid [] [] 9))
      (fun t => has [(0, 0), (1, 255)] [] t &&
        t.acc == 9 && t.currentOpcode == some 0x13 && t.currentStep == 1) = true := by decide
/-- V2. -/
theorem test_load_immediate :
    after (exec (.uLoadImmediate 2) (mid [] [(2, 5)] 0))
      (fun t => has [] [] t &&
        t.acc == 5 && t.currentOpcode == some 0x13 && t.currentStep == 1) = true := by decide
/-- V3. -/
theorem test_load_immediate_range :
    FaultsWith (exec (.uLoadImmediate 1) (mid [(0, 255)] [] 0)) .memRange := by decide
/-- V4. -/
theorem test_load_immediate_internal :
    after (exec (.uLoadImmediateInternal 2) (mid [] [] 77))
      (fun t => has [] [] t && t.acc == 2) = true := by decide
/-- V5. -/
theorem test_load_from_memory :
    after (exec .uLoadFromMemory (mid [(3, 0x80)] [(0x80, 0x2A)] 0))
      (fun t => has [] [] t && t.acc == 42) = true := by decide
/-- V6. -/
theorem test_load_from_register :
    after (exec (.uLoadFromRegister 1) (mid [(5, 9)] [(1, 5)] 0))
      (fun t => has [] [] t && t.acc == 9) = true := by decide
/-- V7. -/
theorem test_load_from_register_unknown :
    FaultsWith (exec (.uLoadFromRegister 1) (mid [] [(1, 8)] 0)) .unknownRegister := by decide
/-- V8. -/
theorem test_load_from_register_internal :
    after (exec (.uLoadFromRegisterInternal 0) (mid [(0, 6)] [] 0))
      (fun t => has [] [] t && t.acc == 6) = true := by decide
/-- V9. -/
theorem test_load_from_register_internal_unknown :
    FaultsWith (exec (.uLoadFromRegisterInternal 8) (mid [] [] 0)) .unknownRegister := by decide
/-- V10. -/
theorem test_set_memory_address :
    after (exec .uSetMemoryAddress (mid [] [] 0x80))
      (fun t => has [(3, 0x80)] [] t && t.acc == 0x80) = true := by decide
/-- V11. -/
theorem test_set_memory_address_wide :
    FaultsWith (exec .uSetMemoryAddress (mid [] [] 300)) .valueTooWide := by decide
/-- V12. -/
theorem test_store_to_memory :
    after (exec .uStoreToMemory (mid [(3, 0x80)] [] 0x2A))
      (fun t => has [] [(0x80, 0x2A), (0x81, 0), (0x7F, 0)] t) = true := by decide
/-- V13. -/
theorem test_store_to_memory_wide :
    FaultsWith (exec .uStoreToMemory (mid [(3, 0x80)] [] 256)) .valueTooWide := by decide
/-- V14. -/
theorem test_store_to_register :
    after (exec (.uStoreToRegister 1) (mid [] [(1, 7)] 12))
      (fun t => has [(7, 12)] [] t) = true := by decide
/-- V15. -/
theorem test_store_to_register_pc :
    after (exec (.uStoreToRegister 1) (mid [] [] 0x20))
      (fun t => has [(0, 0x20)] [] t &&
        t.currentOpcode == some 0x13 && t.currentStep == 1) = true := by decide
/-- V16. -/
theorem test_store_to_register_internal :
    after (exec (.uStoreToRegisterInternal 4) (mid [] [] 3))
      (fun t => has [(4, 3)] [] t) = true := by decide
/-- V17. -/
theorem test_store_to_register_internal_wide :
    FaultsWith (exec (.uStoreToRegisterInternal 7) (mid [] [] 256)) .valueTooWide := by decide
/-- V18. -/
theorem test_step_program_memory :
    after (exec (.uStepProgramMemory 2) (mid [] [] 0)) (fun t => has [(0, 2)] [] t) = true :=
  by decide
/-- V19. -/
theorem test_step_program_memory_wide :
    FaultsWith (exec (.uStepProgramMemory 2) (mid [(0, 254)] [] 0)) .valueTooWide := by decide
/-- V23. -/
theorem test_add_wide_sum :
    after (exec .uAdd (mid [(5, 255), (6, 255)] [] 0))
      (fun t => has [] [] t && t.acc == 510) = true := by decide
/-- V25. -/
theorem test_sub :
    after (exec .uSub (mid [(5, 9), (6, 4)] [] 0))
      (fun t => has [(5, 9), (6, 4)] [] t && t.acc == 5) = true := by decide
/-- V27: nothing changes but the latch. -/
theorem test_sub_underflow :
    exec .uSub (mid [(5, 4), (6, 9)] [] 99) =
      .fault (.fatal .subUnderflow ((mid [(5, 4), (6, 9)] [] 99).setFatal (some .subUnderflow))) := rfl
/-- V29. -/
theorem test_compare_equal :
    after (exec .uCompare (mid [(5, 2), (6, 2), (4, 0xFC)] [] 7))
      (fun t => has [(4, 1), (5, 2), (6, 2)] [] t && t.acc == 7) = true := by decide
/-- V32. -/
theorem test_compare_unsigned :
    after (exec .uCompare (mid [(5, 255)] [] 0)) (fun t => has [(4, 2)] [] t) = true := by decide
/-- V33. -/
theorem test_push :
    after (exec .uPushToStack (mid [] [] 3))
      (fun t => has [(1, 254)] [(254, 3), (255, 0)] t) = true := by decide
/-- V35. -/
theorem test_push_underflow :
    FaultsWith (exec .uPushToStack (mid [(1, 0)] [] 9)) .subUnderflow := by decide
/-- V37. -/
theorem test_pop :
    after (exec .uPopFromStack (mid [(1, 254)] [(254, 3)] 50))
      (fun t => has [(1, 255)] [(254, 0)] t && t.acc == 3) = true := by decide
/-- V39. -/
theorem test_pop_wide :
    FaultsWith (exec .uPopFromStack (mid [] [(255, 6)] 50)) .valueTooWide := by decide
/-- V41. -/
theorem test_halt :
    after (exec .uHalt (mid [] [] 0))
      (fun t => has [] [] t &&
        t.halted && t.currentOpcode == some 0x13 && t.currentStep == 1) = true := by decide
/-- V42. -/
theorem test_jump :
    after (exec .uJump (mid [] [] 0x40))
      (fun t => has [(0, 0x40)] [] t &&
        t.currentOpcode == none && t.currentStep == 1) = true := by decide
/-- V43. -/
theorem test_jump_wide : FaultsWith (exec .uJump (mid [] [] 256)) .valueTooWide := by decide
/-- V44. -/
theorem test_jump_if_flag :
    ([0x01, 0x02, 0x03] : List Byte).map (fun f =>
      after (exec (.uJumpIfFlag 0x01 0x02) (mid [(4, f)] [] 0x30))
        (fun t => t.pc == 0x30 && t.currentOpcode == none)) = [true, false, false] := by decide
/-- V50. -/
theorem test_jump_if_flag_ignores_other_bits :
    after (exec (.uJumpIfFlag 0x00 0x02) (mid [(4, 0x80)] [] 0x30))
      (fun t => has [(0, 0x30)] [] t) = true := by decide
/-- V49. -/
theorem test_jump_if_not_flag :
    after (exec (.uJumpIfNotFlag 0x00 0x03) (mid [] [] 0x30))
      (fun t => has [(0, 0)] [] t &&
        t.currentOpcode == some 0x13 && t.currentStep == 1) = true := by decide
/-- V49. -/
theorem test_jump_if_not_flag_taken :
    after (exec (.uJumpIfNotFlag 0x00 0x03) (mid [(4, 1)] [] 0x30))
      (fun t => has [(0, 0x30)] [] t &&
        t.currentOpcode == none && t.currentStep == 1) = true := by decide

/-- 41_microops_alu.md R99: registers of two bytes, 0x0102 against 0x0002, equal in the low byte. -/
def wideState (w : CompareWide) : State :=
  { State.reset with
    cfg := { referenceConfig with dataSize := 2, regs := referenceRegs 2, compareWide := w }
    rf := [0, 0, 0, 0, 0, 0, 0, 0, 0xFF, 1, 2, 0, 2, 0, 0] }

theorem test_compare_wide_refused :
    FaultsWith (exec .uCompare (wideState .refuse)) .compareWidth := by decide
theorem test_compare_low_byte :
    after (exec .uCompare (wideState .lowByte)) (fun t => has [(4, 1)] [] t) = true := by decide

/-! ### Fetch and retire ticks (95_test_vectors.md V51 to V59) -/

/-- V51. -/
theorem test_fetch_tick :
    after (clock (ref [] [(0, 0x13)] 0))
      (fun t => t == (ref [] [(0, 0x13)] 0).setCurrentOpcode (some 0x13)) = true := by decide
/-- V52. -/
theorem test_fetch_illegal : FaultsWith (clock (vec [0xFF] [] [] 0)) .unknownOpcode := by decide
/-- V53. -/
theorem test_retire_tick :
    after (clock ((mid [(0, 2)] [] 0).setCurrentStep 3))
      (fun t => t == (ref [(0, 3)] [] 0).setCurrentStep 3) = true := by decide
/-- V55. -/
theorem test_retire_wide :
    FaultsWith (clock ((mid [(0, 255)] [] 0).setCurrentStep 3)) .valueTooWide := by decide
/-- V56. -/
theorem test_halted_tick :
    after (clock (State.reset.setHalted true))
      (fun t => t == State.reset.setHalted true) = true := by decide
/-- V59. -/
theorem test_empty_list_step :
    after (step ((ref [] [(0, 2)] 0).setCfg { referenceConfig with itable := [(0x02, ⟨[], 0⟩)] }))
      (fun t => has [(0, 1)] [(0, 2)] t && t.currentOpcode == none) = true := by decide

/-! ### One step, one instruction (95_test_vectors.md part 3) -/

/-- V62. -/
theorem test_step_nop :
    after (step (vec [0x00] [] [] 0)) (fun t => has [(0, 0x11)] [] t) = true := by decide
/-- V125. -/
theorem test_step_nop_at_255 :
    FaultsWith (step (vec [0x00] [(0, 255)] [] 0)) .valueTooWide := by decide
/-- V63. -/
theorem test_step_hlt :
    after (step (vec [0x01] [] [] 0))
      (fun t => has [(0, 0x10)] [] t &&
        t.halted && t.currentOpcode == some 0x01 && t.currentStep == 1) = true := by decide
/-- V64. -/
theorem test_step_ldi :
    after (step (vec [0x10, 0x2A] [] [] 0))
      (fun t => has [(0, 0x12)] [] t && t.acc == 42) = true := by decide
/-- V65. -/
theorem test_step_ldi_truncated :
    FaultsWith (step (vec [0x10] [(0, 255)] [] 0)) .memRange := by decide
/-- V68. -/
theorem test_step_ldr_pc :
    after (step (vec [0x11, 0x00] [] [] 0))
      (fun t => has [(0, 0x12)] [] t && t.acc == 0x10) = true := by decide
/-- V67. -/
theorem test_step_ldr_unknown :
    FaultsWith (step (vec [0x11, 0x08] [] [] 0)) .unknownRegister := by decide
/-- V69. -/
theorem test_step_str :
    after (step (vec [0x12, 0x07] [] [] 12))
      (fun t => has [(7, 12), (0, 0x12)] [] t) = true := by decide
/-- V91. -/
theorem test_step_str_pc :
    after (step (vec [0x12, 0x00] [] [] 0x40)) (fun t => has [(0, 0x42)] [] t) = true := by decide
/-- V93. -/
theorem test_step_mvi :
    after (step (vec [0x13, 0x05, 0x05] [] [] 0))
      (fun t => has [(5, 5), (0, 0x13)] [] t && t.acc == 5) = true := by decide
/-- V94. -/
theorem test_step_mvi_flags :
    after (step (vec [0x13, 0x04, 0x03] [] [] 0))
      (fun t => has [(4, 3), (0, 0x13)] [] t && t.acc == 3) = true := by decide
/-- V96. -/
theorem test_step_mov :
    after (step (vec [0x14, 0x07, 0x05] [(5, 9)] [] 0))
      (fun t => has [(5, 9), (7, 9), (0, 0x13)] [] t && t.acc == 9) = true := by decide
/-- V98. -/
theorem test_step_ldm :
    after (step (vec [0x20, 0x07, 0x80] [] [(0x80, 0x2A)] 0))
      (fun t => has [(3, 0x80), (7, 0x2A), (0, 0x13)] [(0x80, 0x2A)] t &&
        t.acc == 0x2A) = true := by decide
/-- V99. -/
theorem test_step_ldm_own_opcode :
    after (step (vec [0x20, 0x07, 0x10] [] [] 0))
      (fun t => has [(3, 0x10), (7, 0x20), (0, 0x13)] [] t && t.acc == 0x20) = true := by decide
/-- V100. -/
theorem test_step_stm :
    after (step (vec [0x21, 0x80, 0x05] [(5, 0x2A)] [] 0))
      (fun t => has [(3, 0x80), (0, 0x13)] [(0x80, 0x2A)] t && t.acc == 0x2A) = true := by decide
/-- V101. -/
theorem test_step_stm_own_operand :
    after (step (vec [0x21, 0x12, 0x05] [(5, 7)] [] 0))
      (fun t => has [(3, 0x12), (0, 0x13)] [(0x12, 7)] t && t.acc == 7) = true := by decide
/-- V102. -/
theorem test_step_ldx :
    after (step (vec [0x22, 0x07, 0x06] [(6, 0x80)] [(0x80, 0x2A)] 0))
      (fun t => has [(3, 0x80), (7, 0x2A), (0, 0x13)] [] t && t.acc == 0x2A) = true := by decide
/-- V103. -/
theorem test_step_stx :
    after (step (vec [0x23, 0x05, 0x07] [(5, 0x81), (7, 0x2A)] [] 0))
      (fun t => has [(3, 0x81), (0, 0x13)] [(0x81, 0x2A)] t && t.acc == 0x2A) = true := by decide
/-- V105. -/
theorem test_step_add :
    after (step (vec [0x30] [(5, 200), (6, 100)] [] 0))
      (fun t => has [(0, 0x11)] [] t && t.acc == 300) = true := by decide
/-- V106. -/
theorem test_step_sub :
    after (step (vec [0x31] [(5, 9), (6, 4)] [] 0))
      (fun t => has [(0, 0x11)] [] t && t.acc == 5) = true := by decide
/-- V107. -/
theorem test_step_sub_underflow :
    FaultsWith (step (vec [0x31] [(5, 4), (6, 9)] [] 0)) .subUnderflow := by decide
/-- V108. -/
theorem test_step_cmp :
    after (step (vec [0x32] [(5, 2), (6, 2), (4, 0xFC)] [] 0))
      (fun t => has [(4, 1), (0, 0x11)] [] t) = true := by decide
/-- V109. -/
theorem test_step_push :
    after (step (vec [0x40] [] [] 3))
      (fun t => has [(1, 254), (0, 0x11)] [(254, 3)] t) = true := by decide
/-- V111. -/
theorem test_step_push_wide : FaultsWith (step (vec [0x40] [] [] 256)) .valueTooWide := by decide
/-- V112. -/
theorem test_step_pshi :
    after (step (vec [0x41, 0x07] [] [] 0))
      (fun t => has [(1, 254), (0, 0x12)] [(254, 7)] t && t.acc == 7) = true := by decide
/-- V113. -/
theorem test_step_pshr :
    after (step (vec [0x42, 0x05] [(5, 9)] [] 0))
      (fun t => has [(1, 254), (0, 0x12)] [(254, 9)] t && t.acc == 9) = true := by decide
/-- V114. -/
theorem test_step_pop :
    after (step (vec [0x43] [(1, 252)] [(252, 3)] 0))
      (fun t => has [(1, 253), (0, 0x11)] [(252, 0)] t && t.acc == 3) = true := by decide
/-- V115. -/
theorem test_step_pop_empty : FaultsWith (step (vec [0x43] [] [] 0)) .valueTooWide := by decide
/-- V116. -/
theorem test_step_popr :
    after (step (vec [0x44, 0x07] [(1, 254)] [(254, 9)] 0))
      (fun t => has [(1, 255), (7, 9), (0, 0x12)] [(254, 0)] t && t.acc == 9) = true := by decide
/-- V117. -/
theorem test_step_jmp :
    after (step (vec [0x50, 0x40] [] [] 0))
      (fun t => has [(0, 0x40)] [] t && t.acc == 0x40) = true := by decide
/-- V119. -/
theorem test_step_jpa :
    after (step (vec [0x51] [] [] 0x40)) (fun t => has [(0, 0x40)] [] t) = true := by decide
/-- V120. -/
theorem test_step_jpa_wide : FaultsWith (step (vec [0x51] [] [] 256)) .valueTooWide := by decide

/-- Where a conditional jump to 0x40 goes on `(reg_a, reg_b)` = (2, 3), (2, 2) and (3, 2). -/
def jumpTargets (op : Byte) : List Nat :=
  ([(2, 3), (2, 2), (3, 2)] : List (Byte × Byte)).map (fun p =>
    match step (vec [op, 0x40] [(5, p.1), (6, p.2)] [] 0) with
    | .next t => t.pc
    | _ => 0)

/-- V70 to V72. -/
theorem test_step_jeq : jumpTargets 0x52 = [0x12, 0x40, 0x12] := by decide
/-- V73 to V75. -/
theorem test_step_jne : jumpTargets 0x53 = [0x40, 0x12, 0x40] := by decide
/-- V76 to V78. -/
theorem test_step_jgt : jumpTargets 0x54 = [0x12, 0x12, 0x40] := by decide
/-- V79 to V81. -/
theorem test_step_jlt : jumpTargets 0x55 = [0x40, 0x12, 0x12] := by decide
/-- V82 to V84. -/
theorem test_step_jle : jumpTargets 0x56 = [0x40, 0x40, 0x12] := by decide
/-- V85 to V87. -/
theorem test_step_jnl : jumpTargets 0x58 = [0x12, 0x40, 0x40] := by decide
/-- V88 to V90. -/
theorem test_step_jge : jumpTargets 0x57 = [0x40, 0x40, 0x12] := by decide
/-- V45. -/
theorem test_step_jge_context :
    after (step (vec [0x57, 0x40] [(5, 2), (6, 3)] [] 0))
      (fun t => has [(0, 0x40), (1, 253), (3, 0x12), (4, 0), (5, 0x10), (6, 2)]
        [(254, 0), (253, 0x12)] t &&
        t.acc == 0x40) = true := by decide
/-- V121. -/
theorem test_step_call :
    after (step (vec [0x60, 0x40] [(2, 0x11), (4, 2), (5, 1), (6, 1)] [] 0))
      (fun t => has [(0, 0x40), (1, 253), (2, 0x11), (3, 0x12), (4, 2), (5, 0x10), (6, 2)]
        [(254, 0x11), (253, 0x12)] t &&
        t.acc == 0x40) = true := by decide
/-- V122. -/
theorem test_step_ret :
    after (step (vec [0x61] [(1, 253), (2, 0x22)] [(253, 0x12), (254, 0x11)] 0))
      (fun t => has [(0, 0x12), (1, 255), (2, 0x11), (3, 0x12)] [(253, 0), (254, 0)] t &&
        t.acc == 0x12) = true := by decide
/-- V123. -/
theorem test_step_ret_empty : FaultsWith (step (vec [0x61] [] [] 0)) .valueTooWide := by decide
/-- V124. -/
theorem test_step_illegal : FaultsWith (step (vec [0xFF] [] [] 0)) .unknownOpcode := by decide

/-! ### The host interface -/

/-- The configuration with memory half as large. -/
def smallConfig : Config := { referenceConfig with memSize := 128, spReset := 127 }

/-- The descriptor list of the reference map (10_state.md R19) comes from seven `add`s and one more. -/
theorem test_add_register :
    (["pc", "sp", "bp", "mar", "flags", "reg_a", "reg_b", "reg_c"].foldl
      (fun regs name => addRegister regs name 1 regs.length) newRegisterFile) = referenceRegs 1 := by
  decide
/-- 70_reset_and_hazards.md R188: the table is installed before the first tick, and not after it. -/
theorem test_set_instruction_set :
    (Session.construct referenceConfig).perform (.setInstructionSet []) =
      .ok ⟨State.reset.setCfg { referenceConfig with itable := [] }, false⟩ ∧
    ((Session.construct referenceConfig).perform .clock).bind
      (fun h => h.perform (.setInstructionSet [])) = .error .tableFixed := by decide
/-- 70_reset_and_hazards.md R180: a construction with `sp` and `pc` resets of its own. -/
theorem test_construct :
    has [(0, 0x20), (1, 0x7F), (2, 0), (7, 0)] []
      (State.construct { smallConfig with pcReset := 0x20 }) = true := by decide

/-! ### Witnesses: states that meet the hypotheses of each statement, at the edges of its clauses -/

/-- An Idle reference state with `bytes` at program counter `pc`. -/
def stand (pc : Byte) (bytes : List Byte) (l : List (Nat × Byte)) (acc : Nat) : State :=
  place bytes (ref ((0, pc) :: l) [] acc)

/-- V61: an entry with a Halt in mid-list. -/
def haltEntry : Entry := ⟨[.loadImmediateInternal 7, .halt, .storeToRegisterInternal 7], 0⟩

/-- A table with one more entry. -/
def tableWith (e : Entry) : Config := { referenceConfig with itable := (0x02, e) :: rcsRef1 }

/-- A configuration without a program counter. -/
def noPcConfig : Config := { referenceConfig with pcId := 8 }

/-- An entry with a conditional jump and a register store. -/
def jumpEntry : Entry := ⟨[.jumpIfFlag 1 0, .storeToRegister 1, .stepProgramMemory 1], 1⟩

/-- `jumpEntry` at program counter 0x10, the register named being `reg_c`. -/
def jumpState (flags : Byte) : State :=
  (stand 0x10 [0x02, 0x07] [(4, flags)] 9).setCfg (tableWith jumpEntry)

theorem witness_DecodedBytesAreTheEncoding :
    decode [0x13, 0x05, 0xFF, 0x01] = .ok (.mvi 0x05 0xFF, [0x01]) :=
  rfl

theorem witness_ProgramDecodesToItself :
    ∀ i ∈ [Instr.nop, .ldi 0xFF, .mvi 0x00 0x80, .ret], i.isReference = true :=
  by decide

theorem witness_RomEntryDecodesToItself :
    (∃ image, encodeEntry ⟨[.jumpIfFlag 1 2, .add], 1⟩ = some image) ∧
    (∃ image, encodeEntry ⟨List.replicate 255 .add, 1⟩ = some image) :=
  ⟨⟨_, rfl⟩,
   ⟨_, if_pos (lt_of_eq_of_lt List.length_replicate (by decide))⟩⟩

theorem witness_IllegalOpcodesStopTheFetch :
    ∃ s : State, Idle s ∧ s.cfg.pcId < s.cfg.regs.length ∧ s.pc = 255 ∧ s.pc < s.cfg.memSize ∧
      lookupEntry s.cfg.itable (s.memByte s.pc) = none :=
  ⟨ref [(0, 255)] [(255, 0x62)] 0, by decide⟩

theorem witness_TableLengthsAgree :
    Instr.isReference (.jge 0x40) = true :=
  rfl

theorem witness_ValueCellConversion :
    65535 < 256 ^ 2 ∧ ([0xFF, 0xFE] : List Byte).length = 2 ∧ val [0xFF, 0xFE] = 65534 :=
  by decide

theorem witness_RegisterRead :
    ∃ s : State, s.cfg.regs.length ≤ 8 ∧ (∀ d ∈ s.cfg.regs, d.name ≠ "reg_d") ∧
      s.cfg.regs[7]? = some ⟨"reg_c", 1, 7⟩ ∧ s.cfg.regsOk = true :=
  ⟨State.reset, by decide⟩

theorem witness_MemoryReadAndZero :
    (∃ s : State, Memory.wf s.mem = true ∧ s.cfg.memSize < 255 + 2) ∧
    (∃ s : State, Memory.wf s.mem = true ∧ 254 + 2 ≤ s.cfg.memSize ∧ s.memByte 253 = 7) :=
  ⟨⟨ref [] [(255, 9)] 0, by decide⟩,
   ⟨ref [] [(253, 7), (255, 9)] 0, by decide⟩⟩

theorem witness_RegisterAndMemoryWrite :
    (∃ s : State, s.cfg.regs.length ≤ 8 ∧ s.cfg.regs[7]? = some ⟨"reg_c", 1, 7⟩ ∧
      256 ^ 1 ≤ 256 ∧ 255 < 256 ^ 1 ∧ s.cfg.rfLen ≤ s.rf.length) ∧
    (∃ s : State, Memory.wf s.mem = true ∧ s.cfg.memSize < 255 + 2) ∧
    (∃ s : State, Memory.wf s.mem = true ∧ 254 + 2 ≤ s.cfg.memSize ∧ 256 ^ 2 ≤ 65536 ∧
      65535 < 256 ^ 2) :=
  ⟨⟨State.reset, by decide⟩,
   ⟨ref [] [(255, 9)] 0, by decide⟩,
   ⟨ref [] [(253, 7), (255, 9)] 0, by decide⟩⟩

theorem witness_LoadMicroOps :
    (∃ s : State, s.cfg.regs.length = s.cfg.pcId) ∧
    (∃ s : State, s.cfg.pcId < s.cfg.regs.length ∧ s.pc + (1 : Byte).toNat < s.cfg.memSize) ∧
    (∃ s : State, s.cfg.pcId < s.cfg.regs.length ∧ s.cfg.memSize ≤ s.pc + (1 : Byte).toNat) ∧
    (∃ s : State, s.cfg.pcId < s.cfg.regs.length ∧ s.cfg.regs.length ≤ s.cfg.marId) ∧
    (∃ s : State, s.cfg.pcId < s.cfg.regs.length ∧ s.cfg.marId < s.cfg.regs.length ∧
      s.cfg.memSize < s.mar + s.cfg.dataSize) ∧
    (∃ s : State, s.cfg.pcId < s.cfg.regs.length ∧ s.cfg.marId < s.cfg.regs.length ∧
      s.mar + s.cfg.dataSize ≤ s.cfg.memSize) ∧
    (∃ s : State, s.cfg.pcId < s.cfg.regs.length ∧ s.pc + (1 : Byte).toNat < s.cfg.memSize ∧
      s.cfg.regs.length ≤ (s.memByte (s.pc + (1 : Byte).toNat)).toNat) ∧
    (∃ s : State, s.cfg.pcId < s.cfg.regs.length ∧ s.pc + (1 : Byte).toNat < s.cfg.memSize ∧
      (s.memByte (s.pc + (1 : Byte).toNat)).toNat < s.cfg.regs.length) ∧
    (∃ s : State, s.cfg.pcId < s.cfg.regs.length ∧ s.cfg.regs.length ≤ (8 : Byte).toNat ∧
      (7 : Byte).toNat < s.cfg.regs.length) :=
  ⟨⟨(mid [] [] 0).setCfg noPcConfig, by decide⟩,
   ⟨mid [(0, 254)] [] 0, by decide⟩,
   ⟨mid [(0, 255)] [] 0, by decide⟩,
   ⟨(mid [] [] 0).setCfg { referenceConfig with marId := 8 }, by decide⟩,
   ⟨(mid [(3, 128)] [] 0).setCfg smallConfig, by decide⟩,
   ⟨(mid [(3, 127)] [] 0).setCfg smallConfig, by decide⟩,
   ⟨mid [] [(1, 8)] 0, by decide⟩,
   ⟨mid [] [(1, 7)] 0, by decide⟩,
   ⟨mid [] [] 0, by decide⟩⟩

theorem witness_StoreMicroOps :
    (∃ s : State, s.cfg.regs.length = s.cfg.pcId) ∧
    (∃ s : State, s.cfg.pcId < s.cfg.regs.length ∧ s.cfg.regs.length ≤ s.cfg.marId) ∧
    (∃ s : State, s.cfg.pcId < s.cfg.regs.length ∧ s.cfg.marId < s.cfg.regs.length ∧
      256 ^ s.cfg.regSize s.cfg.marId ≤ s.acc) ∧
    (∃ s : State, s.cfg.pcId < s.cfg.regs.length ∧ s.cfg.marId < s.cfg.regs.length ∧
      s.acc < 256 ^ s.cfg.regSize s.cfg.marId) ∧
    (∃ s : State, s.cfg.pcId < s.cfg.regs.length ∧ s.cfg.memSize ≤ s.pc + (1 : Byte).toNat) ∧
    (∃ s : State, s.cfg.pcId < s.cfg.regs.length ∧ s.pc + (1 : Byte).toNat < s.cfg.memSize ∧
      s.cfg.regs.length ≤ (s.memByte (s.pc + (1 : Byte).toNat)).toNat) ∧
    (∃ s : State, s.cfg.pcId < s.cfg.regs.length ∧ s.pc + (1 : Byte).toNat < s.cfg.memSize ∧
      (s.memByte (s.pc + (1 : Byte).toNat)).toNat < s.cfg.regs.length ∧
      256 ^ s.cfg.regSize (s.memByte (s.pc + (1 : Byte).toNat)).toNat ≤ s.acc) ∧
    (∃ s : State, s.cfg.pcId < s.cfg.regs.length ∧ s.pc + (1 : Byte).toNat < s.cfg.memSize ∧
      (s.memByte (s.pc + (1 : Byte).toNat)).toNat < s.cfg.regs.length ∧
      s.acc < 256 ^ s.cfg.regSize (s.memByte (s.pc + (1 : Byte).toNat)).toNat) ∧
    (∃ s : State, s.cfg.pcId < s.cfg.regs.length ∧ s.cfg.regs.length ≤ (8 : Byte).toNat ∧
      (7 : Byte).toNat < s.cfg.regs.length ∧ s.acc < 256 ^ s.cfg.regSize (7 : Byte).toNat) ∧
    (∃ s : State, s.cfg.pcId < s.cfg.regs.length ∧ (0 : Byte).toNat < s.cfg.regs.length ∧
      256 ^ s.cfg.regSize (0 : Byte).toNat ≤ s.acc) ∧
    (∃ s : State, s.cfg.pcId < s.cfg.regs.length ∧
      s.pc + (2 : Byte).toNat < 256 ^ s.cfg.regSize s.cfg.pcId) ∧
    (∃ s : State, s.cfg.pcId < s.cfg.regs.length ∧
      256 ^ s.cfg.regSize s.cfg.pcId ≤ s.pc + (2 : Byte).toNat) :=
  ⟨⟨(mid [] [] 0).setCfg noPcConfig, by decide⟩,
   ⟨(mid [] [] 0).setCfg { referenceConfig with marId := 8 }, by decide⟩,
   ⟨mid [] [] 256, by decide⟩,
   ⟨mid [] [] 255, by decide⟩,
   ⟨mid [(0, 255)] [] 0, by decide⟩,
   ⟨mid [] [(1, 8)] 0, by decide⟩,
   ⟨mid [] [(1, 7)] 256, by decide⟩,
   ⟨mid [(0, 254)] [(255, 7)] 255, by decide⟩,
   ⟨mid [] [] 255, by decide⟩,
   ⟨mid [] [] 256, by decide⟩,
   ⟨mid [(0, 253)] [] 0, by decide⟩,
   ⟨mid [(0, 254)] [] 0, by decide⟩⟩

theorem witness_AddAndSubMicroOps :
    (∃ s : State, s.cfg.regs.length ≤ s.cfg.regAId ∨ s.cfg.regs.length ≤ s.cfg.regBId) ∧
    (∃ s : State, s.cfg.regAId < s.cfg.regs.length ∧ s.cfg.regBId < s.cfg.regs.length ∧
      s.regA < s.regB) ∧
    (∃ s : State, s.cfg.regAId < s.cfg.regs.length ∧ s.cfg.regBId < s.cfg.regs.length ∧
      s.regB ≤ s.regA) ∧
    (∃ s t u : State, Inv s ∧ s.cfg.noOverlap = true ∧ exec .uSub s = .next t ∧
      exec .uAdd (t.regPut t.cfg.regAId t.acc) = .next u) :=
  ⟨⟨(mid [] [] 0).setCfg { referenceConfig with regBId := 8 }, by decide⟩,
   ⟨mid [(5, 4), (6, 5)] [] 0, by decide⟩,
   ⟨mid [(5, 4), (6, 4)] [] 0, by decide⟩,
   ⟨mid [(5, 9), (6, 4)] [] 0, _, _, by decide, by decide, rfl, rfl⟩⟩

theorem witness_CompareMicroOp :
    (∃ s : State, s.cfg.regsOk = true ∧ s.compareIsWide = false ∧
      s.cfg.regs.length ≤ s.cfg.flagsId) ∧
    (∃ s : State, s.cfg.regsOk = true ∧ s.cfg.regAId < s.cfg.regs.length ∧
      s.cfg.regBId < s.cfg.regs.length ∧ s.cfg.flagsId < s.cfg.regs.length ∧
      s.compareIsWide = false ∧ s.regA = s.regB) ∧
    (∃ s : State, s.cfg.regsOk = true ∧ s.cfg.regAId < s.cfg.regs.length ∧
      s.cfg.regBId < s.cfg.regs.length ∧ s.cfg.flagsId < s.cfg.regs.length ∧
      s.compareIsWide = true ∧ s.cfg.compareWide = .refuse) ∧
    (∃ s : State, s.cfg.regsOk = true ∧ s.cfg.regAId < s.cfg.regs.length ∧
      s.cfg.regBId < s.cfg.regs.length ∧ s.cfg.flagsId < s.cfg.regs.length ∧
      s.compareIsWide = true ∧ s.cfg.compareWide = .lowByte ∧ s.regA ≠ s.regB ∧
      s.regA % 256 = s.regB % 256) :=
  ⟨⟨(mid [] [] 0).setCfg { referenceConfig with flagsId := 8 }, by decide⟩,
   ⟨mid [(5, 255), (6, 255)] [] 0, by decide⟩,
   ⟨wideState .refuse, by decide⟩,
   ⟨wideState .lowByte, by decide⟩⟩

theorem witness_StoreToMemoryAndPush :
    (∃ s : State, s.cfg.regs.length ≤ s.cfg.marId) ∧
    (∃ s : State, s.cfg.marId < s.cfg.regs.length ∧
      s.cfg.memSize < s.mar + s.cfg.dataSize) ∧
    (∃ s : State, s.cfg.marId < s.cfg.regs.length ∧
      s.mar + s.cfg.dataSize ≤ s.cfg.memSize ∧ 256 ^ s.cfg.dataSize ≤ s.acc) ∧
    (∃ s : State, s.cfg.marId < s.cfg.regs.length ∧
      s.mar + s.cfg.dataSize ≤ s.cfg.memSize ∧ s.acc < 256 ^ s.cfg.dataSize) ∧
    (∃ s : State, s.cfg.regs.length ≤ s.cfg.spId) ∧
    (∃ s : State, s.cfg.spId < s.cfg.regs.length ∧ s.sp < s.cfg.dataSize) ∧
    (∃ s : State, s.cfg.spId < s.cfg.regs.length ∧ s.cfg.dataSize ≤ s.sp ∧ s.cfg.memSize < s.sp) ∧
    (∃ s : State, s.cfg.spId < s.cfg.regs.length ∧ s.cfg.dataSize ≤ s.sp ∧ s.sp ≤ s.cfg.memSize ∧
      256 ^ s.cfg.dataSize ≤ s.acc) ∧
    (∃ s : State, s.cfg.spId < s.cfg.regs.length ∧ s.cfg.dataSize ≤ s.sp ∧ s.sp ≤ s.cfg.memSize ∧
      s.acc < 256 ^ s.cfg.dataSize) ∧
    (∃ s : State, s.cfg.spId < s.cfg.regs.length ∧ s.cfg.dataSize ≤ s.sp ∧ s.sp = s.cfg.memSize ∧
      s.acc < 256 ^ s.cfg.dataSize) :=
  ⟨⟨(mid [] [] 0).setCfg { referenceConfig with marId := 8 }, by decide⟩,
   ⟨(mid [(3, 128)] [] 0).setCfg smallConfig, by decide⟩,
   ⟨mid [(3, 255)] [] 256, by decide⟩,
   ⟨mid [(3, 255)] [] 255, by decide⟩,
   ⟨(mid [] [] 0).setCfg { referenceConfig with spId := 8 }, by decide⟩,
   ⟨mid [(1, 0)] [] 0, by decide⟩,
   ⟨(mid [(1, 129)] [] 0).setCfg smallConfig, by decide⟩,
   ⟨mid [] [] 256, by decide⟩,
   ⟨mid [(1, 1)] [] 255, by decide⟩,
   ⟨(mid [(1, 128)] [] 0).setCfg smallConfig, by decide⟩⟩

theorem witness_PopMicroOp :
    (∃ s : State, s.cfg.regs.length ≤ s.cfg.spId) ∧
    (∃ s : State, s.cfg.spId < s.cfg.regs.length ∧ s.cfg.memSize < s.sp + s.cfg.dataSize) ∧
    (∃ s : State, s.cfg.spId < s.cfg.regs.length ∧ s.sp + s.cfg.dataSize ≤ s.cfg.memSize ∧
      256 ^ s.cfg.regSize s.cfg.spId ≤ s.sp + s.cfg.dataSize) ∧
    (∃ s : State, s.cfg.spId < s.cfg.regs.length ∧ s.sp + s.cfg.dataSize ≤ s.cfg.memSize ∧
      s.sp + s.cfg.dataSize < 256 ^ s.cfg.regSize s.cfg.spId) :=
  ⟨⟨(mid [] [] 0).setCfg { referenceConfig with spId := 8 }, by decide⟩,
   ⟨(mid [(1, 128)] [] 0).setCfg smallConfig, by decide⟩,
   ⟨mid [(1, 255)] [] 0, by decide⟩,
   ⟨mid [(1, 254)] [] 0, by decide⟩⟩

theorem witness_PopAfterPush :
    (∃ s t m : State, Inv s ∧ Inv m ∧ exec .uPushToStack s = .next t ∧ m.cfg = t.cfg ∧
      m.sp = t.sp ∧ (∀ a, t.sp ≤ a → a < s.sp → m.memByte a = t.memByte a)) ∧
    (∃ s t w : State, Inv s ∧ exec .uPushToStack s = .next t ∧
      exec .uPushToStack (t.setAcc 8) = .next w) :=
  ⟨⟨mid [(1, 1)] [] 255, _, (mid [(1, 0)] [(0, 255), (9, 9)] 7), by decide, by decide, rfl, rfl, rfl,
    fun a h h' => by
      have hs : State.sp (mid [(1, 1)] [] 255) = 1 := by decide
      obtain rfl : a = 0 := by omega
      rfl⟩,
   ⟨mid [(1, 2)] [] 7, _, _, by decide, rfl, rfl⟩⟩

theorem witness_JumpMicroOps :
    (∃ s : State, s.cfg.flagsId < s.cfg.regs.length ∧ flagCond s.flags 1 2 = true ∧
      s.cfg.regs.length = s.cfg.pcId) ∧
    (∃ s : State, s.cfg.flagsId < s.cfg.regs.length ∧ flagCond s.flags 1 2 = false ∧
      s.cfg.regs.length = s.cfg.pcId) ∧
    (∃ s : State, s.cfg.pcId < s.cfg.regs.length ∧ 256 ^ s.cfg.regSize s.cfg.pcId ≤ s.acc) ∧
    (∃ s t : State, s.cfg.pcId < s.cfg.regs.length ∧ s.acc < 256 ^ s.cfg.regSize s.cfg.pcId ∧
      Executing s ∧ s.cfg.rfLen ≤ s.rf.length ∧ exec .uJump s = .next t) ∧
    (∃ s : State, s.cfg.regs.length ≤ s.cfg.flagsId) ∧
    (∃ s : State, s.cfg.flagsId < s.cfg.regs.length ∧ s.cfg.pcId < s.cfg.regs.length ∧
      flagCond s.flags 1 2 = true ∧ s.acc < 256 ^ s.cfg.regSize s.cfg.pcId) ∧
    (∃ s : State, s.cfg.flagsId < s.cfg.regs.length ∧ s.cfg.pcId < s.cfg.regs.length ∧
      flagCond s.flags 1 2 = true ∧ 256 ^ s.cfg.regSize s.cfg.pcId ≤ s.acc) ∧
    (∃ s : State, s.cfg.flagsId < s.cfg.regs.length ∧ s.cfg.pcId < s.cfg.regs.length ∧
      flagCond s.flags 1 2 = false ∧ s.acc < 256 ^ s.cfg.regSize s.cfg.pcId) ∧
    (∃ s : State, s.cfg.flagsId < s.cfg.regs.length ∧ s.cfg.pcId < s.cfg.regs.length ∧
      flagCond s.flags 1 2 = false ∧ 256 ^ s.cfg.regSize s.cfg.pcId ≤ s.acc) :=
  ⟨⟨(mid [(4, 1)] [] 0).setCfg noPcConfig, by decide⟩,
   ⟨(mid [] [] 0).setCfg noPcConfig, by decide⟩,
   ⟨mid [] [] 256, by decide⟩,
   ⟨mid [] [] 255, _, by decide, by decide, ⟨0x13, rfl⟩, by decide, rfl⟩,
   ⟨(mid [] [] 0).setCfg { referenceConfig with flagsId := 8 }, by decide⟩,
   ⟨mid [(4, 1)] [] 255, by decide⟩,
   ⟨mid [(4, 1)] [] 256, by decide⟩,
   ⟨mid [(4, 2)] [] 255, by decide⟩,
   ⟨mid [(4, 2)] [] 256, by decide⟩⟩

theorem witness_FlagCondition :
    (0x81 : Byte).toNat.testBit 7 = true ∧ (0x80 : Byte).toNat.testBit 7 = true :=
  by decide

theorem witness_MicroOpFrame :
    (∃ s t : State, exec (MicroOp.toInstr .storeToMemory) s = .next t ∧
      (∀ b, microStoreAddress .storeToMemory s = some b → 0x81 < b ∨ b + s.cfg.dataSize ≤ 0x81) ∧
      MicroOp.setsAcc .storeToMemory = false) ∧
    (∃ s t : State, exec (MicroOp.toInstr .halt) s = .next t ∧ MicroOp.isJump .halt = false) ∧
    (∃ s t : State, exec (MicroOp.toInstr (.jumpIfFlag 1 0)) s = .next t ∧
      MicroOp.taken (.jumpIfFlag 1 0) s = false) ∧
    (∃ s t : State, exec (MicroOp.toInstr (.jumpIfFlag 1 0)) s = .next t ∧
      MicroOp.taken (.jumpIfFlag 1 0) s = true ∧ s.cfg.rfLen ≤ s.rf.length) :=
  ⟨⟨mid [(3, 0x80)] [] 255, _, rfl, fun b h => by
    obtain rfl : 0x80 = b := Option.some.inj h
    exact Or.inr (by decide), rfl⟩,
   ⟨mid [] [] 0, _, rfl, rfl⟩,
   ⟨mid [] [] 0, _, rfl, by decide⟩,
   ⟨mid [(4, 1)] [] 255, _, rfl, by decide, by decide⟩⟩

theorem witness_MicroOpRegisterFrame :
    ∃ s t : State, s.cfg.noOverlap = true ∧ exec (MicroOp.toInstr .popFromStack) s = .next t ∧
      microWrittenReg .popFromStack s ≠ some 0 :=
  ⟨mid [(1, 254)] [] 0, _, by decide, rfl, by decide⟩

theorem witness_ClockDispatch :
    (∃ s : State, s.fatal ≠ none) ∧
    (∃ s : State, s.fatal = none ∧ s.halted = true) ∧
    (∃ s : State, s.fatal = none ∧ s.halted = false ∧ s.currentOpcode = none) ∧
    (∃ s : State, s.fatal = none ∧ s.halted = false ∧ s.currentOpcode = some 0x13 ∧
      lookupEntry s.cfg.itable 0x13 = some ⟨microOpsMvi, 2⟩ ∧ s.currentStep < microOpsMvi.length) ∧
    (∃ s : State, s.fatal = none ∧ s.halted = false ∧ s.currentOpcode = some 0x13 ∧
      lookupEntry s.cfg.itable 0x13 = some ⟨microOpsMvi, 2⟩ ∧ microOpsMvi.length ≤ s.currentStep) :=
  ⟨⟨(mid [] [] 0).setFatal (some .memRange), by decide⟩,
   ⟨(mid [] [] 0).setHalted true, by decide⟩,
   ⟨State.reset, by decide⟩,
   ⟨(mid [] [] 0).setCurrentStep 2, by decide⟩,
   ⟨(mid [] [] 0).setCurrentStep 3, by decide⟩⟩

theorem witness_FetchTick :
    (∃ s : State, Idle s ∧ s.cfg.regs.length ≤ s.cfg.pcId) ∧
    (∃ s : State, Idle s ∧ s.cfg.pcId < s.cfg.regs.length ∧ s.cfg.memSize ≤ s.pc) ∧
    (∃ s : State, Idle s ∧ s.cfg.pcId < s.cfg.regs.length ∧ s.pc < s.cfg.memSize ∧
      lookupEntry s.cfg.itable (s.memByte s.pc) = none) ∧
    (∃ s : State, Idle s ∧ s.cfg.pcId < s.cfg.regs.length ∧ s.pc < s.cfg.memSize ∧
      lookupEntry s.cfg.itable (s.memByte s.pc) = some ⟨microOpsRet, 0⟩) :=
  ⟨⟨State.reset.setCfg { referenceConfig with pcId := 8 }, by decide⟩,
   ⟨(ref [(0, 128)] [] 0).setCfg smallConfig, by decide⟩,
   ⟨ref [(0, 255)] [(255, 0x02)] 0, by decide⟩,
   ⟨ref [(0, 255)] [(255, 0x61)] 0, by decide⟩⟩

theorem witness_RetireTick :
    (∃ s : State, s.condition = .executing 0x13 ∧
      lookupEntry s.cfg.itable 0x13 = some ⟨microOpsMvi, 2⟩ ∧
      microOpsMvi.length ≤ s.currentStep ∧ s.cfg.regs.length = s.cfg.pcId) ∧
    (∃ s : State, s.condition = .executing 0x13 ∧
      lookupEntry s.cfg.itable 0x13 = some ⟨microOpsMvi, 2⟩ ∧
      microOpsMvi.length ≤ s.currentStep ∧ s.cfg.pcId < s.cfg.regs.length ∧
      s.pc + 1 < 256 ^ s.cfg.regSize s.cfg.pcId) ∧
    (∃ s : State, s.condition = .executing 0x13 ∧
      lookupEntry s.cfg.itable 0x13 = some ⟨microOpsMvi, 2⟩ ∧
      microOpsMvi.length ≤ s.currentStep ∧ s.cfg.pcId < s.cfg.regs.length ∧
      256 ^ s.cfg.regSize s.cfg.pcId ≤ s.pc + 1) :=
  ⟨⟨((mid [] [] 0).setCfg noPcConfig).setCurrentStep 3, by decide⟩,
   ⟨(mid [(0, 254)] [] 0).setCurrentStep 3, by decide⟩,
   ⟨(mid [(0, 255)] [] 0).setCurrentStep 3, by decide⟩⟩

theorem witness_HaltAndResume :
    (∃ s : State, s.condition = .executing 0x02 ∧
      lookupEntry s.cfg.itable 0x02 = some haltEntry ∧
      haltEntry.microOps[s.currentStep]? = some .halt ∧
      haltEntry.microOps[s.currentStep + 1]? = some (.storeToRegisterInternal 7)) ∧
    (∃ s : State, s.condition = .executing 0x01 ∧
      lookupEntry s.cfg.itable 0x01 = some ⟨microOpsHlt, 0⟩ ∧
      microOpsHlt[s.currentStep]? = some .halt ∧ microOpsHlt.length = s.currentStep + 1) :=
  ⟨⟨{ State.reset with cfg := tableWith haltEntry, currentOpcode := some 0x02, currentStep := 1 },
    by decide⟩,
   ⟨State.reset.setCurrentOpcode (some 0x01), by decide⟩⟩

theorem witness_StepRunsTheDecodedInstruction :
    (∃ s : State, Idle s ∧ (Instr.mvi 7 9).isReference = true ∧ s.cfg.pcId < s.cfg.regs.length ∧
      BytesAt (.mvi 7 9) s ∧ s.usesReference ((encode (.mvi 7 9)).headD 0) = true) ∧
    (∃ s : State, ¬ Idle s) :=
  ⟨⟨stand 253 [0x13, 0x07, 0x09] [] 0, by decide⟩,
   ⟨mid [] [] 0, by decide⟩⟩

theorem witness_StepIsARunOfTicks :
    ∃ s : State, Idle s ∧ after (step s) (fun t => t.pc == 0x12) = true :=
  ⟨stand 0x10 [0x10, 0x2A] [] 0, by decide⟩

theorem witness_ProgramCounterDisplacement :
    (∃ s t : State, Inv s ∧ s.cfg.noOverlap = true ∧ Idle s ∧
      lookupEntry s.cfg.itable (s.memByte s.pc) = some ⟨microOpsLdi, 1⟩ ∧ step s = .next t ∧
      ∀ u ∈ microOpsLdi, u.isStraight = true ∧ u.storesRegister = false) ∧
    (∃ s t : State, Inv s ∧ s.cfg.noOverlap = true ∧ Idle s ∧
      lookupEntry s.cfg.itable (s.memByte s.pc) = some jumpEntry ∧ step s = .next t ∧
      t.halted = false ∧
      ∀ (k : Nat) (u : MicroOp) (m : State), jumpEntry.microOps[k]? = some u → BeforeMicroOp s k m →
        u.taken m = false ∧ (u.storesRegister = true → microWrittenReg u m ≠ some s.cfg.pcId)) ∧
    (∃ s t m : State, Inv s ∧ s.cfg.noOverlap = true ∧ Idle s ∧
      lookupEntry s.cfg.itable (s.memByte s.pc) = some jumpEntry ∧ step s = .next t ∧
      jumpEntry.microOps[0]? = some (.jumpIfFlag 1 0) ∧ BeforeMicroOp s 0 m ∧
      MicroOp.taken (.jumpIfFlag 1 0) m = true) ∧
    (∃ s t : State, Inv s ∧ s.cfg.noOverlap = true ∧ Idle s ∧
      lookupEntry s.cfg.itable (s.memByte s.pc) = some ⟨microOpsJmp, 1⟩ ∧ step s = .next t ∧
      microOpsJmp = [.loadImmediate 1] ++ MicroOp.jump :: [] ∧
      ∀ u ∈ [MicroOp.loadImmediate 1], u.isStraight = true) :=
  ⟨⟨stand 253 [0x10, 0x2A] [] 0, _, by decide, by decide, by decide, by decide, rfl, by decide⟩,
   ⟨jumpState 0, _, by decide, by decide, by decide, by decide, rfl, by decide, fun k u m hu h => by
    obtain ⟨h, -⟩ := h
    match k, hu with
    | 0, hu => cases hu; cases h; decide
    | 1, hu => cases hu; cases h; decide
    | 2, hu => cases hu; exact ⟨rfl, fun h => by cases h⟩⟩,
   ⟨jumpState 1, _, _, by decide, by decide, by decide, by decide, rfl, rfl,
    ⟨rfl, ⟨0x02, rfl⟩, rfl⟩, by decide⟩,
   ⟨stand 254 [0x50, 0x40] [] 0, _, by decide, by decide, by decide, by decide, rfl, rfl, by decide⟩⟩

theorem witness_TicksPerInstruction :
    (∃ s t : State, Inv s ∧ Idle s ∧
      lookupEntry s.cfg.itable (s.memByte s.pc) = some ⟨microOpsMvi, 2⟩ ∧ step s = .next t ∧
      ∀ u ∈ microOpsMvi, u.isStraight = true) ∧
    (∃ s t : State, Inv s ∧ Idle s ∧
      lookupEntry s.cfg.itable (s.memByte s.pc) = some ⟨microOpsJpa, 0⟩ ∧ step s = .next t ∧
      microOpsJpa = [] ++ MicroOp.jump :: []) ∧
    (∃ s t : State, Inv s ∧ Idle s ∧ lookupEntry s.cfg.itable (s.memByte s.pc) = some jumpEntry ∧
      step s = .next t ∧ t.halted = false ∧ ticks 5 s = .next t) ∧
    (∃ s t : State, Inv s ∧ Idle s ∧ lookupEntry s.cfg.itable (s.memByte s.pc) = some jumpEntry ∧
      step s = .next t ∧ t.halted = false ∧ ticks 2 s = .next t) :=
  ⟨⟨stand 252 [0x13, 0x05, 0x2A] [] 0, _, by decide, by decide, by decide, rfl, by decide⟩,
   ⟨stand 255 [0x51] [] 255, _, by decide, by decide, by decide, rfl, rfl⟩,
   ⟨jumpState 0, _, by decide, by decide, by decide, rfl, by decide, rfl⟩,
   ⟨jumpState 1, _, by decide, by decide, by decide, rfl, by decide, rfl⟩⟩

theorem witness_OnlyListedCausesAreRaised :
    (∃ s : State, s.cfg.regsOk = true ∧ s.cfg.pcId < s.cfg.regs.length ∧
      FaultsWith (exec (MicroOp.toInstr .jump) s) .valueTooWide ∧
      FaultsWith (fetchTick s) .unknownOpcode ∧ FaultsWith (retireTick s) .valueTooWide) ∧
    (∃ s : State, s.cfg.regs.length = s.cfg.pcId ∧ Idle s ∧
      MicroOp.readsPc (.stepProgramMemory 1) = true ∧ MicroOp.taken (.jumpIfNotFlag 1 0) s = true) :=
  ⟨⟨ref [(0, 255)] [(255, 0xFF)] 256, by decide⟩,
   ⟨State.reset.setCfg noPcConfig, by decide⟩⟩

theorem witness_FatalErrorIsFinal :
    ∃ s t : State, clock s = .fault (.fatal .unknownOpcode t) :=
  ⟨ref [] [(0, 0xFF)] 0, _, rfl⟩

theorem witness_OnlyResetClearsTheLatch :
    (∃ s t u v : State, s.fatal = some .memRange ∧ s.hostWrite (.byName "sp") [0x80] = .ok t ∧
      s.writeRange .memory 254 [1, 2] = .ok u ∧ s.clearRange .storage 0 256 = .ok v) ∧
    (∃ h h' : Session, h.state.fatal = some .memRange ∧
      h.perform (.setInstructionSet []) = .ok h') ∧
    (∃ h h' h'' : Session, h.state.fatal = some .memRange ∧ h.perform .clock = .ok h' ∧
      h'.perform .reset = .ok h'') :=
  ⟨⟨State.reset.setFatal (some .memRange), _, _, _, rfl, rfl, rfl, rfl⟩,
   ⟨⟨State.reset.setFatal (some .memRange), false⟩, _, rfl, rfl⟩,
   ⟨⟨State.reset.setFatal (some .memRange), true⟩, _, _, rfl, rfl, rfl⟩⟩

theorem witness_StepKeepsInv :
    (∃ s t : State, Inv s ∧ step s = .next t) ∧
    (∃ s t : State, Inv s ∧ Executing s ∧ step s = .next t) ∧
    (∃ s t : State, Inv s ∧ clock s = .next t ∧ Executing t) :=
  ⟨⟨stand 0x10 [0x60, 0x40] [] 0, _, by decide, rfl⟩,
   ⟨mid [(1, 1)] [(1, 0x07)] 5, _, by decide, ⟨_, rfl⟩, rfl⟩,
   ⟨stand 0x10 [0x60, 0x40] [] 0, _, by decide, rfl, ⟨_, rfl⟩⟩⟩

theorem witness_StepKeepsTheAccumulatorBound :
    (∃ s t : State, s.acc ≤ accLimit s.cfg ∧ step s = .next t ∧ t.acc = 510) ∧
    (∃ s t : State, s.acc ≤ accLimit s.cfg ∧ clock s = .next t ∧ t.acc = 510) :=
  ⟨⟨stand 0x10 [0x30] [(5, 255), (6, 255)] 510, _, by decide, rfl, by decide⟩,
   ⟨(mid [(5, 255), (6, 255)] [] 510).setCurrentOpcode (some 0x30), _, by decide, rfl, by decide⟩⟩

theorem witness_StorageIsInert :
    (∃ t u : State, step State.reset = .next t ∧ clock State.reset = .next u) ∧
    (∃ h h' : Session, h.ticked = true ∧ h.perform .reset = .ok h') ∧
    (∃ h h' : Session, h.ticked = false ∧ h.perform .clock = .ok h') :=
  ⟨⟨_, _, rfl, rfl⟩,
   ⟨⟨mid [] [] 0, true⟩, _, rfl, rfl⟩,
   ⟨Session.construct smallConfig, _, rfl, rfl⟩⟩

theorem witness_WritersOfProgramCounterAndFlags :
    (∃ s t : State, Inv s ∧ s.cfg.noOverlap = true ∧ clock s = .next t ∧ t.pc ≠ s.pc ∧
      nextMicroOp s = none) ∧
    (∃ s t : State, Inv s ∧ s.cfg.noOverlap = true ∧ clock s = .next t ∧ t.pc ≠ s.pc ∧
      nextMicroOp s = some (.storeToRegister 1)) ∧
    (∃ s t : State, Inv s ∧ s.cfg.noOverlap = true ∧ clock s = .next t ∧ t.flags ≠ s.flags ∧
      nextMicroOp s = some (.storeToRegister 1)) ∧
    (∃ s t : State, Inv s ∧ s.cfg.noOverlap = true ∧ clock s = .next t ∧ t.flags ≠ s.flags) :=
  ⟨⟨(mid [] [] 0).setCurrentStep 3, _, by decide, by decide, rfl, by decide, by decide⟩,
   ⟨(mid [] [] 9).setCurrentStep 1, _, by decide, by decide, rfl, by decide, by decide⟩,
   ⟨(mid [] [(1, 4)] 9).setCurrentStep 1, _, by decide, by decide, rfl, by decide, by decide⟩,
   ⟨(mid [] [] 0).setCurrentOpcode (some 0x32), _, by decide, by decide, rfl, by decide⟩⟩

theorem witness_NopAndHlt :
    (∃ s : State, Stands .nop s ∧ s.pc + 1 = 255) ∧
    (∃ s : State, Stands .nop s ∧ s.pc = 255) ∧
    (∃ s : State, Stands .hlt s ∧ s.pc + 1 = 255) ∧
    (∃ s : State, Stands .hlt s ∧ s.pc = 255) :=
  ⟨⟨stand 254 [0x00] [] 0, by decide⟩,
   ⟨stand 255 [0x00] [] 0, by decide⟩,
   ⟨stand 254 [0x01] [] 0, by decide⟩,
   ⟨stand 255 [0x01] [] 0, by decide⟩⟩

theorem witness_LdiLdrStr :
    (∃ s : State, Stands (.ldi 0xFF) s ∧ s.pc + 2 = 255) ∧
    (∃ s : State, Stands (.ldi 0xFF) s ∧ 255 < s.pc + 2) ∧
    (∃ s : State, Stands (.ldr 7) s ∧ (7 : Byte).toNat < 8 ∧ s.pc + 2 = 255) ∧
    (∃ s : State, Stands (.ldr 8) s ∧ 8 ≤ (8 : Byte).toNat) ∧
    (∃ s : State, Stands (.ldr 7) s ∧ (7 : Byte).toNat < 8 ∧ 255 < s.pc + 2) ∧
    (∃ s : State, Stands (.str 7) s ∧ s.acc = 255 ∧
      (if (7 : Byte) = 0 then s.acc else s.pc) + 2 = 255) ∧
    (∃ s : State, Stands (.str 0) s ∧ s.acc = 253 ∧
      (if (0 : Byte) = 0 then s.acc else s.pc) + 2 = 255) ∧
    (∃ s : State, Stands (.str 0) s ∧ s.acc ≤ 255 ∧
      255 < (if (0 : Byte) = 0 then s.acc else s.pc) + 2) ∧
    (∃ s : State, Stands (.str 7) s ∧ 255 < s.acc) ∧
    (∃ s : State, Stands (.str 8) s ∧ 8 ≤ (8 : Byte).toNat) :=
  ⟨⟨stand 253 [0x10, 0xFF] [] 0, by decide⟩,
   ⟨stand 254 [0x10, 0xFF] [] 0, by decide⟩,
   ⟨stand 253 [0x11, 0x07] [] 0, by decide⟩,
   ⟨stand 253 [0x11, 0x08] [] 0, by decide⟩,
   ⟨stand 254 [0x11, 0x07] [] 0, by decide⟩,
   ⟨stand 253 [0x12, 0x07] [] 255, by decide⟩,
   ⟨stand 0x10 [0x12, 0x00] [] 253, by decide⟩,
   ⟨stand 0x10 [0x12, 0x00] [] 254, by decide⟩,
   ⟨stand 0x10 [0x12, 0x07] [] 256, by decide⟩,
   ⟨stand 0x10 [0x12, 0x08] [] 0, by decide⟩⟩

theorem witness_MviMov :
    (∃ s : State, Stands (.mvi 7 9) s ∧
      (if (7 : Byte) = 0 then (9 : Byte).toNat else s.pc) + 3 = 255) ∧
    (∃ s : State, Stands (.mvi 0 253) s ∧
      255 < (if (0 : Byte) = 0 then (253 : Byte).toNat else s.pc) + 3) ∧
    (∃ s : State, Stands (.mvi 8 9) s ∧ 8 ≤ (8 : Byte).toNat) ∧
    (∃ s : State, Stands (.mov 7 6) s ∧ (6 : Byte).toNat < 8 ∧
      (if (7 : Byte) = 0 then s.regVal 6 else s.pc) + 3 = 255) ∧
    (∃ s : State, Stands (.mov 0 5) s ∧ 255 < (if (0 : Byte) = 0 then s.regVal 5 else s.pc) + 3) ∧
    (∃ s : State, Stands (.mov 7 8) s ∧ (8 ≤ (7 : Byte).toNat ∨ 8 ≤ (8 : Byte).toNat)) :=
  ⟨⟨stand 252 [0x13, 0x07, 0x09] [] 0, by decide⟩,
   ⟨stand 0x10 [0x13, 0x00, 0xFD] [] 0, by decide⟩,
   ⟨stand 0x10 [0x13, 0x08, 0x09] [] 0, by decide⟩,
   ⟨stand 252 [0x14, 0x07, 0x06] [] 0, by decide⟩,
   ⟨stand 0x10 [0x14, 0x00, 0x05] [(5, 253)] 0, by decide⟩,
   ⟨stand 0x10 [0x14, 0x07, 0x08] [] 0, by decide⟩⟩

theorem witness_LdmLdx :
    (∃ s : State, Stands (.ldm 7 255) s ∧ (7 : Byte).toNat < 8 ∧
      (if (7 : Byte) = 0 then (s.memByte 255).toNat else s.pc) + 3 = 255) ∧
    (∃ s : State, Stands (.ldm 7 255) s ∧
      255 < (if (7 : Byte) = 0 then (s.memByte 255).toNat else s.pc) + 3) ∧
    (∃ s : State, Stands (.ldm 8 0) s ∧ 8 ≤ (8 : Byte).toNat) ∧
    (∃ s : State, Stands (.ldx 7 6) s ∧ (6 : Byte).toNat < 8 ∧
      (if (7 : Byte) = 0 then (s.memByte (s.regVal 6)).toNat else s.pc) + 3 = 255) ∧
    (∃ s : State, Stands (.ldx 7 6) s ∧
      255 < (if (7 : Byte) = 0 then (s.memByte (s.regVal 6)).toNat else s.pc) + 3) ∧
    (∃ s : State, Stands (.ldx 7 8) s ∧ (8 ≤ (7 : Byte).toNat ∨ 8 ≤ (8 : Byte).toNat)) :=
  ⟨⟨stand 252 [0x20, 0x07, 0xFF] [] 0, by decide⟩,
   ⟨stand 253 [0x20, 0x07, 0xFF] [] 0, by decide⟩,
   ⟨stand 0x10 [0x20, 0x08, 0x00] [] 0, by decide⟩,
   ⟨stand 252 [0x22, 0x07, 0x06] [(6, 255)] 0, by decide⟩,
   ⟨stand 253 [0x22, 0x07, 0x06] [] 0, by decide⟩,
   ⟨stand 0x10 [0x22, 0x07, 0x08] [] 0, by decide⟩⟩

theorem witness_StmStx :
    (∃ s : State, Stands (.stm 0x80 3) s ∧ (3 : Byte).toNat < 8 ∧
      (s.regPut 3 0x80).regVal 3 = 0x80 ∧ s.pc + 3 = 255) ∧
    (∃ s : State, Stands (.stm 0x80 7) s ∧ (7 : Byte).toNat < 8 ∧ 255 < s.pc + 3) ∧
    (∃ s : State, Stands (.stm 0x80 8) s ∧ 8 ≤ (8 : Byte).toNat) ∧
    (∃ s : State, Stands (.stx 5 7) s ∧ (5 : Byte).toNat < 8 ∧ (7 : Byte).toNat < 8 ∧
      s.regVal 5 = 255 ∧ s.pc + 3 = 255) ∧
    (∃ s : State, Stands (.stx 5 7) s ∧ (5 : Byte).toNat < 8 ∧ (7 : Byte).toNat < 8 ∧
      255 < s.pc + 3) ∧
    (∃ s : State, Stands (.stx 8 7) s ∧ (8 ≤ (8 : Byte).toNat ∨ 8 ≤ (7 : Byte).toNat)) :=
  ⟨⟨stand 252 [0x21, 0x80, 0x03] [] 0, by decide⟩,
   ⟨stand 253 [0x21, 0x80, 0x07] [] 0, by decide⟩,
   ⟨stand 0x10 [0x21, 0x80, 0x08] [] 0, by decide⟩,
   ⟨stand 252 [0x23, 0x05, 0x07] [(5, 255)] 0, by decide⟩,
   ⟨stand 253 [0x23, 0x05, 0x07] [] 0, by decide⟩,
   ⟨stand 0x10 [0x23, 0x08, 0x07] [] 0, by decide⟩⟩

theorem witness_AddSubCmp :
    (∃ s : State, Stands .add s ∧ s.pc + 1 = 255) ∧
    (∃ s : State, Stands .add s ∧ s.pc = 255) ∧
    (∃ s : State, Stands .sub s ∧ s.regB = s.regA ∧ s.regB ≤ s.regA ∧ s.pc + 1 = 255) ∧
    (∃ s : State, Stands .sub s ∧ s.regA < s.regB) ∧
    (∃ s : State, Stands .sub s ∧ s.regB ≤ s.regA ∧ s.pc = 255) ∧
    (∃ s : State, Stands .cmp s ∧ s.pc + 1 = 255) ∧
    (∃ s : State, Stands .cmp s ∧ s.pc = 255) :=
  ⟨⟨stand 254 [0x30] [(5, 255), (6, 255)] 0, by decide⟩,
   ⟨stand 255 [0x30] [] 0, by decide⟩,
   ⟨stand 254 [0x31] [(5, 4), (6, 4)] 0, by decide⟩,
   ⟨stand 254 [0x31] [(5, 3), (6, 4)] 0, by decide⟩,
   ⟨stand 255 [0x31] [] 0, by decide⟩,
   ⟨stand 254 [0x32] [] 0, by decide⟩,
   ⟨stand 255 [0x32] [] 0, by decide⟩⟩

theorem witness_PushInstructions :
    (∃ s : State, Stands .push s ∧ s.sp = 1 ∧ s.acc = 255 ∧ s.pc + 1 = 255) ∧
    (∃ s : State, Stands .push s ∧ s.sp = 0) ∧
    (∃ s : State, Stands .push s ∧ 0 < s.sp ∧ s.acc = 256) ∧
    (∃ s : State, Stands .push s ∧ 0 < s.sp ∧ s.acc ≤ 255 ∧ s.pc = 255) ∧
    (∃ s : State, Stands (.pshi 7) s ∧ s.sp = 1 ∧ s.pc + 2 = 255) ∧
    (∃ s : State, Stands (.pshi 7) s ∧ s.sp = 0) ∧
    (∃ s : State, Stands (.pshi 7) s ∧ 0 < s.sp ∧ 255 < s.pc + 2) ∧
    (∃ s : State, Stands (.pshr 1) s ∧ (1 : Byte).toNat < 8 ∧ 0 < s.sp ∧ s.pc + 2 = 255) ∧
    (∃ s : State, Stands (.pshr 8) s ∧ 8 ≤ (8 : Byte).toNat) ∧
    (∃ s : State, Stands (.pshr 7) s ∧ (7 : Byte).toNat < 8 ∧ s.sp = 0) ∧
    (∃ s : State, Stands (.pshr 7) s ∧ (7 : Byte).toNat < 8 ∧ 0 < s.sp ∧ 255 < s.pc + 2) :=
  ⟨⟨stand 254 [0x40] [(1, 1)] 255, by decide⟩,
   ⟨stand 254 [0x40] [(1, 0)] 0, by decide⟩,
   ⟨stand 254 [0x40] [] 256, by decide⟩,
   ⟨stand 255 [0x40] [] 0, by decide⟩,
   ⟨stand 253 [0x41, 0x07] [(1, 1)] 0, by decide⟩,
   ⟨stand 253 [0x41, 0x07] [(1, 0)] 0, by decide⟩,
   ⟨stand 254 [0x41, 0x07] [] 0, by decide⟩,
   ⟨stand 253 [0x42, 0x01] [(1, 1)] 0, by decide⟩,
   ⟨stand 253 [0x42, 0x08] [] 0, by decide⟩,
   ⟨stand 253 [0x42, 0x07] [(1, 0)] 0, by decide⟩,
   ⟨stand 254 [0x42, 0x07] [] 0, by decide⟩⟩

theorem witness_PopInstructions :
    (∃ s : State, Stands .pop s ∧ s.sp = 254 ∧ s.pc + 1 = 255) ∧
    (∃ s : State, Stands .pop s ∧ s.sp = 255) ∧
    (∃ s : State, Stands .pop s ∧ s.sp < 255 ∧ s.pc = 255) ∧
    (∃ s : State, Stands (.popr 7) s ∧ s.sp < 255 ∧
      (if s.sp = s.pc + 1 then 0 else (7 : Byte).toNat) = 7 ∧ s.pc + 2 = 255) ∧
    (∃ s : State, Stands (.popr 7) s ∧ s.sp = 255) ∧
    (∃ s : State, Stands (.popr 7) s ∧ s.sp < 255 ∧
      (if s.sp = s.pc + 1 then 0 else (7 : Byte).toNat) = 0 ∧ (s.memByte s.sp).toNat + 2 ≤ 255) ∧
    (∃ s : State, Stands (.popr 8) s ∧ s.sp < 255 ∧
      8 ≤ (if s.sp = s.pc + 1 then 0 else (8 : Byte).toNat)) ∧
    (∃ s : State, Stands (.popr 7) s ∧ s.sp < 255 ∧
      (if s.sp = s.pc + 1 then 0 else (7 : Byte).toNat) < 8 ∧ 255 < s.pc + 2) :=
  ⟨⟨stand 254 [0x43] [(1, 254)] 0, by decide⟩,
   ⟨stand 254 [0x43] [] 0, by decide⟩,
   ⟨stand 255 [0x43] [(1, 254)] 0, by decide⟩,
   ⟨stand 253 [0x44, 0x07] [(1, 252)] 0, by decide⟩,
   ⟨stand 253 [0x44, 0x07] [] 0, by decide⟩,
   ⟨stand 0x10 [0x44, 0x07] [(1, 0x11)] 0, by decide⟩,
   ⟨stand 0x10 [0x44, 0x08] [(1, 254)] 0, by decide⟩,
   ⟨stand 254 [0x44, 0x07] [(1, 252)] 0, by decide⟩⟩

theorem witness_JmpJpa :
    (∃ s : State, Stands (.jmp 0xFF) s) ∧
    (∃ s : State, Stands .jpa s ∧ s.acc = 255) ∧
    (∃ s : State, Stands .jpa s ∧ s.acc = 256) :=
  ⟨⟨stand 254 [0x50, 0xFF] [] 0, by decide⟩,
   ⟨stand 255 [0x51] [] 255, by decide⟩,
   ⟨stand 255 [0x51] [] 256, by decide⟩⟩

theorem witness_PlainConditionalJumps :
    (∃ s : State, Stands (.jeq 0x40) s ∧ jumpFires (.jeq 0x40) s.regA s.regB = true) ∧
    (∃ s : State, Stands (.jeq 0x40) s ∧ jumpFires (.jeq 0x40) s.regA s.regB = false ∧
      s.pc + 2 = 255) ∧
    (∃ s : State, Stands (.jne 0x40) s ∧ jumpFires (.jne 0x40) s.regA s.regB = true) ∧
    (∃ s : State, Stands (.jne 0x40) s ∧ jumpFires (.jne 0x40) s.regA s.regB = false ∧
      s.pc + 2 = 255) ∧
    (∃ s : State, Stands (.jgt 0x40) s ∧ jumpFires (.jgt 0x40) s.regA s.regB = true) ∧
    (∃ s : State, Stands (.jgt 0x40) s ∧ jumpFires (.jgt 0x40) s.regA s.regB = false ∧
      s.pc + 2 = 255) ∧
    (∃ s : State, Stands (.jlt 0x40) s ∧ jumpFires (.jlt 0x40) s.regA s.regB = true) ∧
    (∃ s : State, Stands (.jlt 0x40) s ∧ jumpFires (.jlt 0x40) s.regA s.regB = false ∧
      s.pc + 2 = 255) ∧
    (∃ s : State, Stands (.jle 0x40) s ∧ jumpFires (.jle 0x40) s.regA s.regB = true) ∧
    (∃ s : State, Stands (.jle 0x40) s ∧ jumpFires (.jle 0x40) s.regA s.regB = false ∧
      s.pc + 2 = 255) ∧
    (∃ s : State, Stands (.jnl 0x40) s ∧ jumpFires (.jnl 0x40) s.regA s.regB = true) ∧
    (∃ s : State, Stands (.jnl 0x40) s ∧ jumpFires (.jnl 0x40) s.regA s.regB = false ∧
      s.pc + 2 = 255) ∧
    (∃ s : State, Stands (.jeq 0x40) s ∧ jumpFires (.jeq 0x40) s.regA s.regB = false ∧
      255 < s.pc + 2) :=
  ⟨⟨stand 254 [0x52, 0x40] [(5, 2), (6, 2)] 0, by decide⟩,
   ⟨stand 253 [0x52, 0x40] [(5, 2), (6, 3)] 0, by decide⟩,
   ⟨stand 254 [0x53, 0x40] [(5, 2), (6, 3)] 0, by decide⟩,
   ⟨stand 253 [0x53, 0x40] [(5, 2), (6, 2)] 0, by decide⟩,
   ⟨stand 254 [0x54, 0x40] [(5, 3), (6, 2)] 0, by decide⟩,
   ⟨stand 253 [0x54, 0x40] [(5, 2), (6, 2)] 0, by decide⟩,
   ⟨stand 254 [0x55, 0x40] [(5, 2), (6, 3)] 0, by decide⟩,
   ⟨stand 253 [0x55, 0x40] [(5, 2), (6, 2)] 0, by decide⟩,
   ⟨stand 254 [0x56, 0x40] [(5, 2), (6, 2)] 0, by decide⟩,
   ⟨stand 253 [0x56, 0x40] [(5, 3), (6, 2)] 0, by decide⟩,
   ⟨stand 254 [0x58, 0x40] [(5, 2), (6, 2)] 0, by decide⟩,
   ⟨stand 253 [0x58, 0x40] [(5, 2), (6, 3)] 0, by decide⟩,
   ⟨stand 254 [0x52, 0x40] [(5, 1)] 0, by decide⟩⟩

theorem witness_CallInstruction :
    (∃ s : State, Stands (.call 0x40) s ∧ s.sp = 2 ∧ s.pc + 2 = 255 ∧ s.sp ≠ s.pc + 2 ∧
      s.sp ≠ s.pc + 3) ∧
    (∃ s : State, Stands (.call 0x40) s ∧ s.sp < 2) ∧
    (∃ s : State, Stands (.call 0x40) s ∧ 2 ≤ s.sp ∧ 255 < s.pc + 2) ∧
    (∃ s : State, Stands (.call 0x40) s ∧ 2 ≤ s.sp ∧ s.pc + 2 ≤ 255 ∧ s.sp = s.pc + 2) :=
  ⟨⟨stand 253 [0x60, 0x40] [(1, 2)] 0, by decide⟩,
   ⟨stand 253 [0x60, 0x40] [(1, 1)] 0, by decide⟩,
   ⟨stand 254 [0x60, 0x40] [] 0, by decide⟩,
   ⟨stand 0x10 [0x60, 0x40] [(1, 0x12)] 0, by decide⟩⟩

theorem witness_JgeInstruction :
    (∃ s : State, Stands (.jge 0x40) s ∧ s.sp = 2 ∧ s.pc + 2 = 255 ∧ s.regA = s.regB) ∧
    (∃ s : State, Stands (.jge 0x40) s ∧ 2 ≤ s.sp ∧ s.pc + 2 ≤ 255 ∧ s.regB < s.regA) ∧
    (∃ s : State, Stands (.jge 0x40) s ∧ s.sp < 2) ∧
    (∃ s : State, Stands (.jge 0x40) s ∧ 2 ≤ s.sp ∧ 255 < s.pc + 2) :=
  ⟨⟨stand 253 [0x57, 0x40] [(1, 2)] 0, by decide⟩,
   ⟨stand 253 [0x57, 0x40] [(5, 1)] 0, by decide⟩,
   ⟨stand 253 [0x57, 0x40] [(1, 1)] 0, by decide⟩,
   ⟨stand 254 [0x57, 0x40] [] 0, by decide⟩⟩

theorem witness_RetInstruction :
    (∃ s : State, Stands .ret s ∧ s.sp + 2 = 255) ∧
    (∃ s : State, Stands .ret s ∧ 255 < s.sp + 2) :=
  ⟨⟨stand 255 [0x61] [(1, 253)] 0, by decide⟩,
   ⟨stand 255 [0x61] [(1, 254)] 0, by decide⟩⟩

theorem witness_ReturnAfterCall :
    ∃ s t m : State, Stands (.call 0x40) s ∧ exec (.call 0x40) s = .next t ∧ Stands .ret m ∧
      m.sp = t.sp ∧ m.memByte t.sp = t.memByte t.sp ∧ m.memByte (t.sp + 1) = t.memByte (t.sp + 1) :=
  ⟨stand 0x10 [0x60, 0x40] [(2, 0x11)] 0, _,
    place [0x61] (ref [(0, 0x48), (1, 253), (2, 0x22)] [(253, 0x12), (254, 0x11)] 9),
    by decide, rfl, by decide, rfl, rfl, rfl⟩

theorem witness_InstructionRegisterFrame :
    (∃ s t : State, (Instr.call 0x40).isReference = true ∧ Stands (.call 0x40) s ∧
      exec (.call 0x40) s = .next t ∧ 7 ∉ writtenRegs (.call 0x40) ∧
      4 ∉ writtenRegs (.call 0x40)) ∧
    (∃ s t : State, Stands .push s ∧ exec .push s = .next t ∧ keepsAcc .push = true) :=
  ⟨⟨stand 0x10 [0x60, 0x40] [] 0, _, by decide, by decide, rfl, by decide, by decide⟩,
   ⟨stand 0x10 [0x40] [] 0, _, by decide, rfl, rfl⟩⟩

theorem witness_InstructionMemoryFrame :
    ∃ s t : State, (Instr.stm 0x80 7).isReference = true ∧ Stands (.stm 0x80 7) s ∧
      exec (.stm 0x80 7) s = .next t ∧ 0x81 ∉ storedBytes (.stm 0x80 7) s ∧
      0x80 ∈ storedBytes (.stm 0x80 7) s :=
  ⟨stand 0x10 [0x21, 0x80, 0x07] [(7, 9)] 0, _, by decide, by decide, rfl, by decide, by decide⟩

theorem witness_TicksOfEachInstruction :
    ∃ s t : State, (Instr.jge 0x40).isReference = true ∧ Stands (.jge 0x40) s ∧
      exec (.jge 0x40) s = .next t ∧ tickCount (.jge 0x40) s = 20 :=
  ⟨stand 0x10 [0x57, 0x40] [(5, 1)] 0, _, by decide, by decide, rfl, by decide⟩

theorem witness_TruncatedInstructionFaults :
    (∃ s : State, InReference s ∧ Idle s ∧ s.pc = 255 ∧ (s.memByte 255).toNat = 0x13) ∧
    (∃ s : State, InReference s ∧ Idle s ∧ s.pc = 254 ∧ (s.memByte 254).toNat = 0x14) ∧
    (∃ s : State, InReference s ∧ Idle s ∧ s.pc = 254 ∧ s.memByte 254 = 0x23 ∧
      (s.memByte 255).toNat = 8) ∧
    (∃ s : State, InReference s ∧ Idle s ∧ s.pc = 254 ∧ s.memByte 254 = 0x23 ∧
      (s.memByte 255).toNat = 7) ∧
    (∃ s : State, InReference s ∧ Idle s ∧ s.pc = 255 ∧ s.memByte 255 = 0x44 ∧ s.sp = 255) ∧
    (∃ s : State, InReference s ∧ Idle s ∧ s.pc = 255 ∧ s.memByte 255 = 0x44 ∧ s.sp = 254) ∧
    (∃ s : State, InReference s ∧ Idle s ∧ s.pc = 255 ∧ s.memByte 255 = 0x57 ∧ s.sp = 1) ∧
    (∃ s : State, InReference s ∧ Idle s ∧ s.pc = 255 ∧ s.memByte 255 = 0x60 ∧ s.sp = 2) :=
  ⟨⟨stand 255 [0x13] [] 0, by decide⟩,
   ⟨stand 254 [0x14, 0x00] [] 0, by decide⟩,
   ⟨stand 254 [0x23, 0x08] [] 0, by decide⟩,
   ⟨stand 254 [0x23, 0x07] [] 0, by decide⟩,
   ⟨stand 255 [0x44] [] 0, by decide⟩,
   ⟨stand 255 [0x44] [(1, 254)] 0, by decide⟩,
   ⟨stand 255 [0x57] [(1, 1)] 0, by decide⟩,
   ⟨stand 255 [0x60] [(1, 2)] 0, by decide⟩⟩

/-- The forms of the statement above that raise before the missing byte, and at its edges. -/
theorem test_truncated_stack_forms :
    FaultsWith (step (stand 254 [0x23, 0x08] [] 0)) .unknownRegister ∧
      FaultsWith (step (stand 254 [0x23, 0x07] [] 0)) .memRange ∧
      FaultsWith (step (stand 255 [0x44] [] 0)) .valueTooWide ∧
      FaultsWith (step (stand 255 [0x44] [(1, 254)] 0)) .memRange ∧
      FaultsWith (step (stand 255 [0x57] [(1, 1)] 0)) .subUnderflow ∧
      FaultsWith (step (stand 255 [0x60] [(1, 2)] 0)) .valueTooWide := by decide

theorem witness_ResetState :
    State.cfg (mid [(1, 0)] [(9, 9)] 300) = referenceConfig ∧
    (∃ (c : Config) (dp ds : RegDescriptor), c.wellFormed = true ∧ c.regs[c.pcId]? = some dp ∧
      c.regs[c.spId]? = some ds ∧ dp.disjoint ds = true ∧ c.noOverlap = true ∧ c.pcReset = 255 ∧
      c.spReset = 128 ∧ c.memSize = 128) :=
  ⟨rfl, { smallConfig with pcReset := 255, spReset := 128 }, ⟨"pc", 1, 0⟩, ⟨"sp", 1, 1⟩, by decide⟩

theorem witness_HostRegisterOperations :
    (∃ s : State, s.cfg.rfLen ≤ s.rf.length ∧ s.resolve (.byName "reg_c") = .ok ⟨"reg_c", 1, 7⟩ ∧
      ([0x2A] : List Byte).length = 1 ∧ ([0, 0x2A] : List Byte).length ≠ 1 ∧
      s.resolve (.byId 8) = .error .unknownRegister) ∧
    (∃ c : Config, c.regsOk = true ∧ (∀ d ∈ c.regs, d.name ≠ "reg_d") ∧ 0 < 2 ∧
      c.regs.length < 256) :=
  ⟨⟨State.reset, by decide, rfl, rfl, by decide, rfl⟩,
   ⟨referenceConfig, by decide⟩⟩

theorem witness_HostStoreOperations :
    (∃ s : State, Memory.wf (s.store .storage) = true ∧
      254 + ([1, 2] : List Byte).length ≤ s.storeSize .storage ∧ 0 ≤ 256 ∧
      256 ≤ s.storeSize .storage) ∧
    (∃ s : State, Memory.wf (s.store .memory) = true ∧
      s.storeSize .memory < 255 + ([1, 2] : List Byte).length ∧ s.storeSize .memory < 257) :=
  ⟨⟨State.reset, by decide⟩,
   ⟨State.reset, by decide⟩⟩

end Sys2Proof.Tests
end

section
/-! SUPPORT. What 00_scope.md says of the Value Cell conversion (R11) and of what no tick changes (R8, R9):
the laws of the conversion beside those of Laws/Registers, and, for storage, that every operation of a
tick commutes with replacing the storage contents. -/

namespace Sys2Proof.Machine

/-! ### The Value Cell -/

/-- The most significant byte weighs `256^(n-1)` (00_scope.md R11). -/
theorem val_cons (b : Byte) (bs : List Byte) :
    val (b :: bs) = b.toNat * 256 ^ bs.length + val bs := by
  induction bs using List.reverseRecOn with
  | nil => simp
  | append_singleton bs c ih =>
    rw [← List.cons_append, val_append_singleton, val_append_singleton, ih, List.length_append,
      List.length_singleton, pow_succ]
    ring

/-- A value below the range of `n` bytes is what its `n` bytes read as. -/
theorem val_bytesOf {n v : Nat} (h : v < 256 ^ n) : val (bytesOf n v) = v := by
  rw [val_bytesOf_mod, Nat.mod_eq_of_lt h]

/-- A byte string is the string of its length and value. -/
theorem bytesOf_val (bs : List Byte) : bytesOf bs.length (val bs) = bs := by
  induction bs using List.reverseRecOn with
  | nil => rfl
  | append_singleton bs b ih =>
    have hb : b.toNat < 256 := b.isLt
    have hdiv : (val bs * 256 + b.toNat) / 256 = val bs := by omega
    have hlow : BitVec.ofNat 8 (val bs * 256 + b.toNat) = b :=
      BitVec.eq_of_toNat_eq (by rw [BitVec.toNat_ofNat]; omega)
    rw [List.length_append, List.length_singleton, val_append_singleton, bytesOf, hdiv, hlow, ih]

/-! ### The configuration and the contents of storage stand still -/

/-- What no tick and no step writes is in `t` as in `s`: the configuration and the storage contents. -/
def SameFixed (s t : State) : Prop := t.cfg = s.cfg ∧ t.storage = s.storage

/-- A tick or a step that does not raise keeps both (10_state.md R34, R38). -/
theorem next_sameFixed {s t : State} (h : step s = .next t ∨ clock s = .next t) :
    SameFixed s t := by
  have hmicro (u : MicroOp) (r m : State) (hr : SameFixed s r) (he : Effect r u m) :
      SameFixed s (m.setCurrentStep (m.currentStep + 1)) :=
    ⟨he.cfg_eq.trans hr.1, he.storage_eq.trans hr.2⟩
  have hretire (r : State) (hr : SameFixed s r) (_ : r.cfg.pcId < r.cfg.regs.length)
      (_ : r.pc + 1 < 256 ^ r.cfg.regSize r.cfg.pcId) :
      SameFixed s ((r.regPut r.cfg.pcId (r.pc + 1)).setCurrentOpcode none) :=
    ⟨(regPut_cfg r _ _).trans hr.1, (regPut_storage r _ _).trans hr.2⟩
  rcases h with h | h
  · exact step_keeps (P := SameFixed s) (fun _ _ hr _ => hr) hmicro hretire ⟨rfl, rfl⟩ h
  · exact clock_keeps (P := SameFixed s) (fun _ _ hr _ => hr) hmicro hretire ⟨rfl, rfl⟩ h

/-- A tick that raises leaves the latch on the state before it (60_exceptions.md R163). -/
theorem clock_fault {s : State} {f : Fault} (h : clock s = .fault f) :
    ∃ c, f = .fatal c (s.setFatal (some c)) := by
  have raised {c : FatalCause} (h : raiseFatal s c = .fault f) :
      ∃ c, f = .fatal c (s.setFatal (some c)) := by
    injection h with h; exact ⟨c, h.symm⟩
  unfold clock at h
  split at h
  case h_1 => cases h
  case h_2 => cases h
  case h_3 =>
    unfold fetchTick at h
    split at h
    · cases h
    · exact raised h
  case h_4 =>
    unfold executingTick at h
    split at h
    · exact raised h
    · split at h
      · obtain ⟨c, -, hf⟩ := runMicroOp_fault h
        exact ⟨c, hf⟩
      · unfold retireTick at h
        split at h
        · cases h
        · exact raised h

/-- Whatever a tick answers, the state it leaves has the configuration it began with. -/
theorem stateAfter_clock_cfg (s : State) : (stateAfter s (clock s)).cfg = s.cfg := by
  cases h : clock s with
  | next t => exact (next_sameFixed (.inr h)).1
  | fault f => obtain ⟨c, rfl⟩ := clock_fault h; rfl
  | refused r => rfl

/-! ### State operations under other storage contents -/

section

variable (s : State) (m : Memory)

@[simp] theorem setAcc_setStorage (v : Nat) :
    (s.setStorage m).setAcc v = (s.setAcc v).setStorage m := rfl
@[simp] theorem setCurrentOpcode_setStorage (v : Option Byte) :
    (s.setStorage m).setCurrentOpcode v = (s.setCurrentOpcode v).setStorage m := rfl
@[simp] theorem regPut_setStorage (i v : Nat) :
    (s.setStorage m).regPut i v = (s.regPut i v).setStorage m := by
  unfold State.regPut
  rw [State.setStorage_cfg]
  cases s.cfg.regs[i]? <;> rfl

@[simp] theorem condition_setStorage : (s.setStorage m).condition = s.condition := rfl
@[simp] theorem runEnds_setStorage : (s.setStorage m).runEnds = s.runEnds := rfl
@[simp] theorem compareIsWide_setStorage : (s.setStorage m).compareIsWide = s.compareIsWide := rfl
@[simp] theorem regRead_setStorage (i : Nat) : (s.setStorage m).regRead i = s.regRead i := rfl
@[simp] theorem memRead_setStorage (a n : Nat) : (s.setStorage m).memRead a n = s.memRead a n := rfl
@[simp] theorem operandByte_setStorage (offset : Byte) :
    (s.setStorage m).operandByte offset = s.operandByte offset := rfl
@[simp] theorem operandRegRead_setStorage (offset : Byte) :
    (s.setStorage m).operandRegRead offset = s.operandRegRead offset := rfl

@[simp] theorem regWrite_setStorage (i v : Nat) :
    (s.setStorage m).regWrite i v = (fun t => t.setStorage m) <$> s.regWrite i v := by
  simp only [State.regWrite, State.setStorage_cfg, regPut_setStorage]
  split_ifs <;> rfl

@[simp] theorem memWrite_setStorage (a n v : Nat) :
    (s.setStorage m).memWrite a n v = (fun t => t.setStorage m) <$> s.memWrite a n v := by
  rcases memWrite_cases s a n v with ⟨h, hv, e⟩ | ⟨h, e⟩ | ⟨h, hv, e⟩ <;> rw [e]
  · exact memWrite_ok h hv
  · exact memWrite_range h
  · exact memWrite_wide h hv

@[simp] theorem memZero_setStorage (a n : Nat) :
    (s.setStorage m).memZero a n = (fun t => t.setStorage m) <$> s.memZero a n := by
  rcases memZero_cases s a n with ⟨h, e⟩ | ⟨h, e⟩ <;> rw [e]
  · exact memZero_ok h
  · exact if_pos h

@[simp] theorem operandRegWrite_setStorage (offset : Byte) (v : Nat) :
    (s.setStorage m).operandRegWrite offset v =
      (fun t => t.setStorage m) <$> s.operandRegWrite offset v := by
  simp [State.operandRegWrite]

/-! ### Ticks under other storage contents -/

@[simp] theorem microJump_setStorage :
    microJump (s.setStorage m) = (fun t => t.setStorage m) <$> microJump s := by
  simp [microJump]

/-- A micro-operation neither reads storage nor writes it (20_memory.md R56). -/
theorem microOf_setStorage (u : MicroOp) :
    microOf u (s.setStorage m) = (fun t => t.setStorage m) <$> microOf u s := by
  cases u with
  | noOperation => rfl
  | halt => rfl
  | loadImmediate offset => simp [microOf, microLoadImmediate]
  | loadImmediateInternal value => rfl
  | loadFromMemory => simp [microOf, microLoadFromMemory]
  | loadFromRegister offset => simp [microOf, microLoadFromRegister]
  | loadFromRegisterInternal id => simp [microOf, microLoadFromRegisterInternal]
  | setMemoryAddress => simp [microOf, microSetMemoryAddress]
  | storeToMemory => simp [microOf, microStoreToMemory]
  | storeToRegister offset => simp [microOf, microStoreToRegister]
  | storeToRegisterInternal id => simp [microOf, microStoreToRegisterInternal]
  | stepProgramMemory n => simp [microOf, microStepProgramMemory]
  | add => simp [microOf, microAdd]
  | sub => simp [microOf, microSub, apply_ite]
  | pushToStack => simp [microOf, microPushToStack, apply_ite]
  | popFromStack => simp [microOf, microPopFromStack]
  | jump => simp [microOf]
  | compare =>
    cases hw : s.cfg.compareWide <;> simp [microOf, microCompare, hw, apply_ite]
  | jumpIfFlag trueMask falseMask => simp [microOf, microJumpIfFlag, apply_ite]
  | jumpIfNotFlag trueMask falseMask => simp [microOf, microJumpIfNotFlag, apply_ite]

theorem runMicroOp_setStorage (u : MicroOp) :
    runMicroOp u (s.setStorage m) = mapOutcome (fun t => t.setStorage m) (runMicroOp u s) := by
  simp only [runMicroOp_eq, executeTick, microOf_setStorage]
  cases microOf u s <;> rfl

theorem retireTick_setStorage :
    retireTick (s.setStorage m) = mapOutcome (fun t => t.setStorage m) (retireTick s) := by
  have h : retire (s.setStorage m) = (fun t => t.setStorage m) <$> retire s := by simp [retire]
  simp only [retireTick, h]
  cases retire s <;> rfl

theorem fetch_setStorage :
    fetch (s.setStorage m) = (fun t => t.setStorage m) <$> fetch s := by
  simp only [fetch, regRead_setStorage, memRead_setStorage, State.setStorage_cfg, map_bind]
  refine bind_congr fun pc => bind_congr fun op => ?_
  split <;> rfl

theorem clock_setStorage :
    clock (s.setStorage m) = mapOutcome (fun t => t.setStorage m) (clock s) := by
  unfold clock
  rw [condition_setStorage]
  cases s.condition with
  | fatal => rfl
  | halted => rfl
  | idle =>
    simp only [fetchTick, fetch_setStorage]
    cases fetch s <;> rfl
  | executing op =>
    simp only [executingTick, State.setStorage_cfg, State.setStorage_currentStep]
    cases lookupEntry s.cfg.itable op with
    | none => rfl
    | some e =>
      cases hu : e.microOps[s.currentStep]? with
      | none => simpa only [hu] using retireTick_setStorage s m
      | some u => simpa only [hu] using runMicroOp_setStorage s m u

theorem runMicroOps_setStorage (us : List MicroOp) :
    runMicroOps us (s.setStorage m) = mapOutcome (fun t => t.setStorage m) (runMicroOps us s) := by
  induction us generalizing s with
  | nil => exact retireTick_setStorage s m
  | cons u us ih =>
    simp only [runMicroOps, runMicroOp_setStorage]
    cases runMicroOp u s with
    | next t =>
      simp only [mapOutcome, runEnds_setStorage, ih]
      split <;> rfl
    | fault f => rfl
    | refused r => rfl

theorem step_setStorage :
    step (s.setStorage m) = mapOutcome (fun t => t.setStorage m) (step s) := by
  rw [step_eq, step_eq, condition_setStorage]
  split
  · simp only [runFetched, fetch_setStorage]
    cases fetch s with
    | ok t => exact runMicroOps_setStorage t m t.currentMicroOps
    | error c => rfl
  · exact clock_setStorage s m

end

/-! ### What a host session fixes -/

theorem hostWrite_cfg {s t : State} {r : RegRef} {bs : List Byte} (h : s.hostWrite r bs = .ok t) :
    t.cfg = s.cfg := by
  unfold State.hostWrite at h
  split at h
  · split at h
    · injection h with h; subst h; rfl
    · cases h
  · cases h

@[simp] theorem setStore_cfg (s : State) (k : StoreId) (m : Memory) : (s.setStore k m).cfg = s.cfg := by
  cases k <;> rfl

theorem writeRange_cfg {s t : State} {k : StoreId} {n : Nat} {bs : List Byte}
    (h : s.writeRange k n bs = .ok t) : t.cfg = s.cfg := by
  unfold State.writeRange at h
  split at h
  · injection h with h; rw [← h, setStore_cfg]
  · cases h

theorem clearRange_cfg {s t : State} {k : StoreId} {n n' : Nat}
    (h : s.clearRange k n n' = .ok t) : t.cfg = s.cfg := by
  unfold State.clearRange at h
  split at h
  · injection h with h; rw [← h, setStore_cfg]
  · cases h

/-- A hardware reset keeps the configuration, the table included (log 11). -/
@[simp] theorem hardReset_cfg (s : State) : s.hardReset.cfg = s.cfg := by
  simp [State.hardReset, State.construct]

/-- No transition of a session that has ticked changes the configuration or forgets the tick
(00_scope.md R8, R9; log 11). -/
theorem Session.perform_keeps_cfg {a : HostAction} {h h' : Session} (e : h.perform a = .ok h')
    (ht : h.ticked = true) : h'.ticked = true ∧ h'.state.cfg = h.state.cfg := by
  rcases Session.perform_ok e with ⟨-, rfl⟩ | ⟨-, rfl⟩ | ⟨r, bs, t, -, hw, rfl⟩ |
    ⟨k, n, bs, t, -, hw, rfl⟩ | ⟨k, n, n', t, -, hw, rfl⟩ | ⟨it, -, hf, -⟩ | ⟨-, rfl⟩
  · exact ⟨rfl, stateAfter_clock_cfg h.state⟩
  · exact ⟨ht, rfl⟩
  · exact ⟨ht, hostWrite_cfg hw⟩
  · exact ⟨ht, writeRange_cfg hw⟩
  · exact ⟨ht, clearRange_cfg hw⟩
  · rw [ht] at hf; cases hf
  · exact ⟨ht, hardReset_cfg h.state⟩

/-- A tick marks its session as ticked. -/
theorem Session.perform_clock_ticked {h h' : Session} (e : h.perform .clock = .ok h') :
    h'.ticked = true := by
  injection e with e; rw [← e]

/-- Once a tick has run no table is installed (70_reset_and_hazards.md R188, D21). -/
theorem Session.setInstructionSet_of_ticked {h : Session} (ht : h.ticked = true) (it : ITable) :
    h.perform (.setInstructionSet it) = .error .tableFixed := by
  simp [Session.perform, Session.setInstructionSet, ht]

/-- Before the first tick exactly the given table is installed (70_reset_and_hazards.md R188). -/
theorem Session.setInstructionSet_of_not_ticked {h : Session} (ht : h.ticked = false)
    (it : ITable) : h.perform (.setInstructionSet it) =
      .ok ⟨h.state.setCfg { h.state.cfg with itable := it }, false⟩ := by
  simp [Session.perform, Session.setInstructionSet, Session.withState, ht]

/-! ### The statements -/

/-- Settles O8. -/
theorem valueCellConversion : Obligations.ValueCellConversion := by
  refine ⟨val_nil, val_cons, fun n v hv => ⟨bytesOf_length n v, val_bytesOf hv⟩, ?_⟩
  rintro n v bs rfl rfl
  exact (bytesOf_val bs).symm

/-- Settles O38: the frame by the induction of every invariant, the independence of storage by commuting
every operation of a tick with `setStorage`, the host's part by the cases of a transition. -/
theorem storageIsInert : Obligations.StorageIsInert :=
  ⟨fun _ _ => next_sameFixed,
   fun s m => ⟨step_setStorage s m, clock_setStorage s m⟩,
   fun _ _ _ e => ⟨Session.perform_keeps_cfg e, fun ha => Session.perform_clock_ticked (ha ▸ e)⟩,
   fun _ it => ⟨fun ht => Session.setInstructionSet_of_ticked ht it,
     fun ht => Session.setInstructionSet_of_not_ticked ht it⟩⟩

end Sys2Proof.Machine
end

section
/-! SUPPORT. What 10_state.md says of the state elements: the bound of the accumulator (R28), the frame of the
micro-operations (R14, R17, R21), the writers of the program counter and the flags (R23, R26), the reset
values (R37) and the host's register operations (R15, R18). -/

namespace Sys2Proof.Machine

open Sys2Proof

/-! ### The accumulator bound (10_state.md R28) -/

theorem foldl_size_ge (l : List RegDescriptor) (n : Nat) :
    n ≤ l.foldl (fun n d => max n d.size) n := by
  induction l generalizing n with
  | nil => exact Nat.le_refl n
  | cons d l ih => exact (Nat.le_max_left _ _).trans (ih _)

theorem size_le_foldl_size {l : List RegDescriptor} {n : Nat} {d : RegDescriptor} (h : d ∈ l) :
    d.size ≤ l.foldl (fun n d => max n d.size) n := by
  induction l generalizing n with
  | nil => cases h
  | cons e l ih =>
    rcases List.mem_cons.1 h with rfl | h
    · exact (Nat.le_max_right _ _).trans (foldl_size_ge l _)
    · exact ih h

theorem regSize_le_maxRegSize (c : Config) (i : Nat) : c.regSize i ≤ maxRegSize c := by
  cases hd : c.regs[i]? with
  | none => simp [Config.regSize, hd]
  | some d =>
    rw [regSize_of_getElem? hd]
    exact size_le_foldl_size (List.mem_of_getElem? hd)

/-- A value of at most `k` bytes is at most the largest one of `n` bytes, for `k` at most `n`. -/
theorem le_pow_pred {v k n : Nat} (hv : v < 256 ^ k) (hk : k ≤ n) : v ≤ 256 ^ n - 1 :=
  Nat.le_sub_one_of_lt (hv.trans_le (Nat.pow_le_pow_right (by decide) hk))

theorem byte_le_accLimit (c : Config) (b : Byte) : b.toNat ≤ accLimit c := by
  have hb : b.toNat < 256 := b.isLt
  exact le_max_of_le_right (le_max_of_le_right (by omega))

theorem regVal_le_accLimit (s : State) (i : Nat) : s.regVal i ≤ accLimit s.cfg :=
  le_max_of_le_right (le_max_of_le_left (le_pow_pred (regVal_lt s i)
    ((regSize_le_maxRegSize s.cfg i).trans (Nat.le_max_left _ _))))

theorem memVal_le_accLimit (s : State) (a : Nat) :
    s.memVal a s.cfg.dataSize ≤ accLimit s.cfg :=
  le_max_of_le_right (le_max_of_le_left (le_pow_pred (memVal_lt s a _) (Nat.le_max_right _ _)))

theorem regA_add_regB_le_accLimit (s : State) : s.regA + s.regB ≤ accLimit s.cfg := by
  have ha := le_pow_pred (regVal_lt s s.cfg.regAId)
    (Nat.le_max_left _ (s.cfg.regSize s.cfg.regBId))
  have hb := le_pow_pred (regVal_lt s s.cfg.regBId)
    (Nat.le_max_right (s.cfg.regSize s.cfg.regAId) _)
  refine le_max_of_le_left ?_
  unfold State.regA State.regB
  omega

/-- The accumulator is within the limit of its configuration. -/
def AccBounded (s : State) : Prop := s.acc ≤ accLimit s.cfg

/-- No micro-operation puts more than the limit in the accumulator. -/
theorem Effect.accBounded {s t : State} {u : MicroOp} (h : Effect s u t) (hs : AccBounded s) :
    AccBounded t := by
  unfold AccBounded at hs ⊢
  rw [h.cfg_eq]
  cases h
  case load v hv =>
    rw [State.setAcc_acc]
    rcases hv with ⟨o, -, rfl⟩ | ⟨c, -, rfl⟩ | ⟨-, rfl⟩ | ⟨o, -, rfl⟩ | ⟨i, -, rfl⟩ | ⟨-, rfl⟩ |
      ⟨-, -, rfl⟩
    · exact byte_le_accLimit _ _
    · exact byte_le_accLimit _ _
    · exact memVal_le_accLimit _ _
    · exact regVal_le_accLimit _ _
    · exact regVal_le_accLimit _ _
    · exact regA_add_regB_le_accLimit s
    · exact (Nat.sub_le _ _).trans (regVal_le_accLimit _ _)
  case pop => simpa using memVal_le_accLimit s s.sp
  all_goals simpa using hs

/-- The bound is kept by every step and every tick: latching and retiring do not touch the accumulator. -/
theorem next_accBounded {s t : State} (hs : AccBounded s)
    (h : step s = .next t ∨ clock s = .next t) : AccBounded t := by
  have hmicro (u : MicroOp) (r m : State) (hr : AccBounded r) (he : Effect r u m) :
      AccBounded (m.setCurrentStep (m.currentStep + 1)) := he.accBounded hr
  have hretire (r : State) (hr : AccBounded r) (_ : r.cfg.pcId < r.cfg.regs.length)
      (_ : r.pc + 1 < 256 ^ r.cfg.regSize r.cfg.pcId) :
      AccBounded ((r.regPut r.cfg.pcId (r.pc + 1)).setCurrentOpcode none) := by
    simpa [AccBounded] using hr
  rcases h with h | h
  · exact step_keeps (P := AccBounded) (fun _ _ hr _ => hr) hmicro hretire hs h
  · exact clock_keeps (P := AccBounded) (fun _ _ hr _ => hr) hmicro hretire hs h

/-! ### The frame of a micro-operation (10_state.md R14, R17, R21) -/

/-- Only the bytes a micro-operation stores to change (20_memory.md R47). -/
theorem Effect.memByte_eq {s t : State} {u : MicroOp} (h : Effect s u t) {a : Nat}
    (ha : ∀ b, microStoreAddress u s = some b → a < b ∨ b + s.cfg.dataSize ≤ a) :
    t.memByte a = s.memByte a := by
  cases h
  case store => exact memByte_memPut_outside (ha _ rfl)
  case push => exact (memByte_congr (regPut_mem ..) a).trans (memByte_memPut_outside (ha _ rfl))
  case pop => exact (memByte_congr (regPut_mem ..) a).trans (memByte_memClear_outside (ha _ rfl))
  all_goals exact memByte_congr (by simp) a

/-- A micro-operation that is not listed as setting the accumulator keeps it. -/
theorem Effect.acc_eq {s t : State} {u : MicroOp} (h : Effect s u t) (hu : u.setsAcc = false) :
    t.acc = s.acc := by
  cases h
  case load h =>
    rcases h with ⟨_, rfl, _⟩ | ⟨_, rfl, _⟩ | ⟨rfl, _⟩ | ⟨_, rfl, _⟩ | ⟨_, rfl, _⟩ | ⟨rfl, _⟩ |
      ⟨rfl, _⟩ <;> cases hu
  case pop => cases hu
  all_goals simp

/-- Only the jump family jumps. -/
theorem MicroOp.taken_of_not_isJump {u : MicroOp} (hu : u.isJump = false) (s : State) :
    u.taken s = false := by
  cases u
  case jump => cases hu
  case jumpIfFlag => cases hu
  case jumpIfNotFlag => cases hu
  all_goals rfl

/-- Where no windows overlap, only the register that the pseudocode names changes (10_state.md R17, R21). -/
theorem Effect.regVal_eq {s t : State} {u : MicroOp} (h : Effect s u t)
    (hno : s.cfg.noOverlap = true) {r : Nat} (hr : microWrittenReg u s ≠ some r) :
    t.regVal r = s.regVal r := by
  have named {i : Nat} (hi : microWrittenReg u s = some i) : i ≠ r := fun e => hr (e ▸ hi)
  cases h
  case reg i v _ _ h =>
    refine regVal_regPut_ne hno (named ?_)
    rcases h with ⟨rfl, rfl, -⟩ | ⟨o, rfl, rfl, -⟩ | ⟨id, rfl, rfl, -⟩ | ⟨n, rfl, rfl, -⟩ |
      ⟨rfl, rfl, -⟩ <;> rfl
  case push => exact regVal_regPut_ne (s := s.memPut ..) hno (named rfl)
  case pop => exact regVal_regPut_ne hno (named rfl)
  case jump h _ =>
    refine (regVal_setCurrentOpcode ..).trans (regVal_regPut_ne hno (named ?_))
    rcases h with rfl | ⟨_, _, rfl⟩ | ⟨_, _, rfl⟩ <;> rfl
  all_goals simp

/-- All that can change a register's value, and to what: the inversion of the register writes. -/
theorem Effect.changed_cases {s t : State} {u : MicroOp} (h : Effect s u t)
    (hno : s.cfg.noOverlap = true) (hrf : s.cfg.rfLen ≤ s.rf.length) {r : Nat}
    (hr : t.regVal r ≠ s.regVal r) :
    (u.storesRegister = true ∧ microWrittenReg u s = some r ∧ t.regVal r = s.acc) ∨
      (∃ n, u = .stepProgramMemory n ∧ r = s.cfg.pcId ∧ t.regVal r = s.pc + n.toNat) ∨
      (u.taken s = true ∧ r = s.cfg.pcId ∧ t.regVal r = s.acc) ∨
      (u = .compare ∧ r = s.cfg.flagsId) ∨ r = s.cfg.marId ∨ r = s.cfg.spId := by
  have hw : microWrittenReg u s = some r := by
    by_contra hw
    exact hr (h.regVal_eq hno hw)
  cases h
  case same => exact absurd rfl hr
  case load => exact absurd (regVal_setAcc ..) hr
  case store => exact absurd (regVal_memPut ..) hr
  case halt => exact absurd (regVal_setHalted ..) hr
  case reg i v hi hv h =>
    have written := regVal_regPut_same hi hv hrf
    rcases h with ⟨rfl, rfl, rfl⟩ | ⟨o, rfl, rfl, rfl⟩ | ⟨id, rfl, rfl, rfl⟩ | ⟨n, rfl, rfl, rfl⟩ |
      ⟨rfl, rfl, -⟩ <;> obtain rfl := Option.some.inj hw
    · exact .inr (.inr (.inr (.inr (.inl rfl))))
    · exact .inl ⟨rfl, hw, written⟩
    · exact .inl ⟨rfl, hw, written⟩
    · exact .inr (.inl ⟨n, rfl, rfl, written⟩)
    · exact .inr (.inr (.inr (.inl ⟨rfl, rfl⟩)))
  case push => exact .inr (.inr (.inr (.inr (.inr (Option.some.inj hw).symm))))
  case pop => exact .inr (.inr (.inr (.inr (.inr (Option.some.inj hw).symm))))
  case jump hi hv h ht =>
    have hpc : r = s.cfg.pcId := by
      rcases h with rfl | ⟨_, _, rfl⟩ | ⟨_, _, rfl⟩ <;> exact (Option.some.inj hw).symm
    subst hpc
    exact .inr (.inr (.inl ⟨ht, rfl, regVal_regPut_same hi hv hrf⟩))

/-! ### Windows of the backing buffer (10_state.md R15) -/

/-- A write to a window leaves every byte outside it, and none of them appears or goes. -/
theorem writeWindow_getElem?_outside {rf : List Byte} {off k : Nat} {bs : List Byte}
    (h : k < off ∨ off + bs.length ≤ k) : (writeWindow rf off bs)[k]? = rf[k]? := by
  induction bs generalizing rf off with
  | nil => rfl
  | cons b bs ih =>
    rw [List.length_cons] at h
    rw [writeWindow, ih (by omega), List.getElem?_set_ne (by omega)]

theorem getD_replicate_zero (n k : Nat) : (List.replicate n (0 : Byte)).getD k 0 = 0 := by
  rw [List.getD, List.getElem?_replicate]
  split <;> rfl

theorem readWindow_replicate_zero (n off k : Nat) :
    readWindow (List.replicate n 0) off k = List.replicate k 0 := by
  induction k generalizing off with
  | zero => rfl
  | succ k ih =>
    rw [readWindow, ih, getD_replicate_zero, List.replicate_succ]

theorem val_replicate_zero (n : Nat) : val (List.replicate n 0) = 0 := by
  induction n with
  | zero => rfl
  | succ n ih => rw [List.replicate_succ, val_cons, ih]; simp

theorem regPut_of_getElem? {s : State} {i : Nat} {d : RegDescriptor} (h : s.cfg.regs[i]? = some d)
    (v : Nat) : s.regPut i v = s.setRf (writeWindow s.rf d.offset (bytesOf d.size v)) := by
  simp [State.regPut, h]

theorem regVal_of_getElem? {s : State} {i : Nat} {d : RegDescriptor} (h : s.cfg.regs[i]? = some d) :
    s.regVal i = val (readWindow s.rf d.offset d.size) := by
  simp [State.regVal, h]

/-- The window of a descriptor reads back the bytes written to it. -/
theorem readWindow_writeWindow_of_mem {c : Config} {d : RegDescriptor} (hd : d ∈ c.regs)
    {rf bs : List Byte} (hrf : c.rfLen ≤ rf.length) (hb : bs.length = d.size) :
    readWindow (writeWindow rf d.offset bs) d.offset d.size = bs := by
  have hw : d.offset + d.size ≤ c.rfLen := le_foldl_max hd
  rw [← hb]
  exact readWindow_writeWindow_same (by omega)

/-! ### References to registers (10_state.md R15, R16) -/

theorem names_nodup {c : Config} (h : c.regsOk = true) : (c.regs.map RegDescriptor.name).Nodup := by
  simp only [Config.regsOk, Bool.and_eq_true, decide_eq_true_eq] at h
  obtain ⟨⟨hnodup, -⟩, -⟩ := h
  exact hnodup

/-- Where names are unique, the name of a descriptor stands for its position. -/
theorem resolveId_byName {c : Config} (h : c.regsOk = true) {i : Nat} {d : RegDescriptor}
    (hd : c.regs[i]? = some d) : Config.resolveId c (.byName d.name) = some i := by
  obtain ⟨hi, rfl⟩ := List.getElem?_eq_some_iff.1 hd
  refine List.findIdx?_eq_some_iff_getElem.2 ⟨hi, beq_self_eq_true _, fun j hj he => ?_⟩
  have hij := (names_nodup h).getElem_inj_iff (i := j) (j := i)
    (hi := by rw [List.length_map]; omega) (hj := by rwa [List.length_map])
  rw [List.getElem_map, List.getElem_map] at hij
  exact hj.ne (hij.1 (beq_iff_eq.1 he))

/-- A name that no descriptor has stands for nothing. -/
theorem resolveId_byName_none {c : Config} {name : String} (h : ∀ d ∈ c.regs, d.name ≠ name) :
    Config.resolveId c (.byName name) = none := by
  simpa [Config.resolveId, List.findIdx?_eq_none_iff] using h

theorem resolve_of_id {s : State} {r : RegRef} {i : Nat} {d : RegDescriptor}
    (hi : Config.resolveId s.cfg r = some i) (hd : s.cfg.regs[i]? = some d) :
    s.resolve r = .ok d := by
  simp [State.resolve, hi, hd]

theorem resolve_of_none {s : State} {r : RegRef} (h : Config.resolveId s.cfg r = none) :
    s.resolve r = .error .unknownRegister := by
  simp [State.resolve, h]

theorem hostRead_of_ok {s : State} {r : RegRef} {d : RegDescriptor} (h : s.resolve r = .ok d) :
    s.hostRead r = .ok (readWindow s.rf d.offset d.size) := by
  simp [State.hostRead, h]

theorem hostRead_of_error {s : State} {r : RegRef} {e : HostError} (h : s.resolve r = .error e) :
    s.hostRead r = .error e := by
  simp [State.hostRead, h]

theorem hostWrite_of_ok {s : State} {r : RegRef} {d : RegDescriptor} (h : s.resolve r = .ok d)
    {bs : List Byte} (hb : bs.length = d.size) :
    s.hostWrite r bs = .ok (s.setRf (writeWindow s.rf d.offset bs)) := by
  simp [State.hostWrite, h, hb]

theorem hostWrite_of_size {s : State} {r : RegRef} {d : RegDescriptor} (h : s.resolve r = .ok d)
    {bs : List Byte} (hb : bs.length ≠ d.size) : s.hostWrite r bs = .error .sizeMismatch := by
  simp [State.hostWrite, h, hb]

theorem hostWrite_of_error {s : State} {r : RegRef} {e : HostError} (h : s.resolve r = .error e)
    (bs : List Byte) : s.hostWrite r bs = .error e := by
  simp [State.hostWrite, h]

/-- A reference resolves to a descriptor of the list. -/
theorem resolve_ok_mem {s : State} {r : RegRef} {d : RegDescriptor} (h : s.resolve r = .ok d) :
    d ∈ s.cfg.regs := by
  unfold State.resolve at h
  split at h
  · rename_i e he
    obtain ⟨i, -, hd⟩ := Option.bind_eq_some_iff.1 he
    injection h with h
    exact h ▸ List.mem_of_getElem? hd
  · cases h

/-- A reference that does not resolve is an unknown register (10_state.md R18). -/
theorem resolve_error {s : State} {r : RegRef} {e : HostError} (h : s.resolve r = .error e) :
    e = .unknownRegister := by
  unfold State.resolve at h
  split at h
  · cases h
  · injection h with h; exact h.symm

/-! ### Adding a register (10_state.md R15, R18) -/

/-- A new name, a positive size and a free id keep the descriptor list well formed. -/
theorem addRegister_regsOk {c : Config} {name : String} {size : Nat} (h : c.regsOk = true)
    (hnew : ∀ d ∈ c.regs, d.name ≠ name) (hsize : 0 < size) (hlen : c.regs.length < 256)
    (offset : Nat) :
    ({ c with regs := addRegister c.regs name size offset } : Config).regsOk = true := by
  simp only [Config.regsOk, Bool.and_eq_true, decide_eq_true_eq, List.all_eq_true] at h ⊢
  obtain ⟨⟨hnodup, hpos⟩, -⟩ := h
  refine ⟨⟨?_, ?_⟩, ?_⟩
  · simpa [addRegister, List.nodup_append, hnodup] using hnew
  · intro d hd
    rcases List.mem_append.1 hd with hd | hd
    · exact hpos d hd
    · rwa [List.mem_singleton.1 hd]
  · rw [addRegister_length]; omega

theorem addRegister_getElem?_new (regs : List RegDescriptor) (name : String) (size offset : Nat) :
    (addRegister regs name size offset)[regs.length]? = some ⟨name, size, offset⟩ := by
  simp [addRegister]

theorem addRegister_getElem?_old {regs : List RegDescriptor} {i : Nat} (hi : i < regs.length)
    (name : String) (size offset : Nat) : (addRegister regs name size offset)[i]? = regs[i]? :=
  List.getElem?_append_left hi

/-! ### The reset values (10_state.md R37, 70_reset_and_hazards.md R180) -/

theorem wellFormed_resets {c : Config} (h : c.wellFormed = true) :
    c.spReset < 256 ^ c.regSize c.spId ∧ c.pcReset < 256 ^ c.regSize c.pcId := by
  simp only [Config.wellFormed, Bool.and_eq_true, Config.resetsOk, decide_eq_true_eq] at h
  obtain ⟨⟨-, -, hsp, hpc⟩, -⟩ := h
  exact ⟨hsp, hpc⟩

/-- A new engine before its two reset values are written: everything zero (10_state.md R37). -/
def blankState (c : Config) : State :=
  { State.reset with cfg := c, rf := List.replicate c.rfLen 0 }

theorem construct_eq (c : Config) :
    State.construct c = ((blankState c).regPut c.spId c.spReset).regPut c.pcId c.pcReset := rfl

@[simp] theorem blankState_cfg (c : Config) : (blankState c).cfg = c := rfl
@[simp] theorem blankState_rf (c : Config) : (blankState c).rf = List.replicate c.rfLen 0 := rfl

/-- Every register of a blank engine reads 0. -/
theorem blankState_regVal (c : Config) (r : Nat) : (blankState c).regVal r = 0 := by
  cases hd : c.regs[r]? with
  | none => simp [State.regVal, hd]
  | some d =>
    rw [regVal_of_getElem? (s := blankState c) hd, blankState_rf, readWindow_replicate_zero,
      val_replicate_zero]

section

variable (c : Config)

@[simp] theorem construct_cfg : (State.construct c).cfg = c := by simp [construct_eq]
@[simp] theorem construct_mem : (State.construct c).mem = [] := by
  rw [construct_eq, regPut_mem, regPut_mem]; rfl
@[simp] theorem construct_storage : (State.construct c).storage = [] := by
  rw [construct_eq, regPut_storage, regPut_storage]; rfl
@[simp] theorem construct_acc : (State.construct c).acc = 0 := by
  rw [construct_eq, regPut_acc, regPut_acc]; rfl
@[simp] theorem construct_currentOpcode : (State.construct c).currentOpcode = none := by
  rw [construct_eq, regPut_currentOpcode, regPut_currentOpcode]; rfl
@[simp] theorem construct_currentStep : (State.construct c).currentStep = 0 := by
  rw [construct_eq, regPut_currentStep, regPut_currentStep]; rfl
@[simp] theorem construct_halted : (State.construct c).halted = false := by
  rw [construct_eq, regPut_halted, regPut_halted]; rfl
@[simp] theorem construct_fatal : (State.construct c).fatal = none := by
  rw [construct_eq, regPut_fatal, regPut_fatal]; rfl
@[simp] theorem construct_rf_length : (State.construct c).rf.length = c.rfLen := by
  simp [construct_eq]

theorem construct_idle : Idle (State.construct c) :=
  (condition_idle_iff _).2 ⟨construct_fatal c, construct_halted c, construct_currentOpcode c⟩

/-- The two reset values are the only ones written. -/
theorem construct_regVal_other (hno : c.noOverlap = true) {r : Nat} (hpc : r ≠ c.pcId)
    (hsp : r ≠ c.spId) : (State.construct c).regVal r = 0 := by
  rw [construct_eq, regVal_regPut_ne (by simpa using hno) hpc.symm,
    regVal_regPut_ne (by simpa using hno) hsp.symm, blankState_regVal]

end

section

variable {c : Config}

/-- The program counter's value is written last, and stands (log 12). -/
theorem construct_pc (h : c.wellFormed = true) : (State.construct c).pc = c.pcReset := by
  obtain ⟨-, ⟨hpc, -⟩, -⟩ := wellFormed_roles h
  rw [State.pc, construct_cfg, construct_eq]
  exact regVal_regPut_same (by simpa using hpc) (by simpa using (wellFormed_resets h).2) (by simp)

/-- Where the windows of the two share no byte, the stack pointer's value stands too. -/
theorem construct_sp (h : c.wellFormed = true) {dp ds : RegDescriptor}
    (hp : c.regs[c.pcId]? = some dp) (hs : c.regs[c.spId]? = some ds)
    (hd : dp.disjoint ds = true) : (State.construct c).sp = c.spReset := by
  obtain ⟨-, ⟨-, hsp, -⟩, -⟩ := wellFormed_roles h
  rw [State.sp, construct_cfg, construct_eq,
    regVal_regPut_disjoint (by simpa using hp) (by simpa using hs) hd]
  exact regVal_regPut_same hsp (wellFormed_resets h).1 (by simp)

/-- Outside the two windows the backing buffer is zero. -/
theorem construct_rf_outside {dp ds : RegDescriptor} (hp : c.regs[c.pcId]? = some dp)
    (hs : c.regs[c.spId]? = some ds) {k : Nat} (hkp : k < dp.offset ∨ dp.offset + dp.size ≤ k)
    (hks : k < ds.offset ∨ ds.offset + ds.size ≤ k) : (State.construct c).rf.getD k 0 = 0 := by
  rw [construct_eq, regPut_of_getElem? (by simpa using hp), regPut_of_getElem? (by simpa using hs),
    State.setRf_rf, writeWindow_getD_outside (by rwa [bytesOf_length]), State.setRf_rf,
    writeWindow_getD_outside (by rwa [bytesOf_length]), blankState_rf, getD_replicate_zero]

/-- Construction meets the state invariant. -/
theorem construct_inv (h : c.wellFormed = true) : Inv (State.construct c) := by
  refine ⟨by simpa using h, ?_, ?_, ?_, ?_, by simp, by simp [latchOk]⟩
  · rw [construct_mem]; rfl
  · rw [construct_mem]; rfl
  · rw [construct_storage]; rfl
  · rw [construct_storage]; rfl

end

/-- The reset state is the construction of the reference configuration. -/
theorem construct_referenceConfig : State.construct referenceConfig = State.reset := by decide

/-- Of the reference registers only the stack pointer is not zero after reset. -/
theorem reset_regVal {r : Nat} (hr : r ≠ 1) : State.reset.regVal r = 0 := by
  rw [← construct_referenceConfig]
  by_cases h0 : r = 0
  · subst h0; exact construct_pc referenceConfig_wellFormed
  · exact construct_regVal_other _ referenceConfig_noOverlap h0 hr

/-! ### Ticks and the two special registers (10_state.md R23, R26) -/

/-- What an execute tick changes the program counter to, where no windows overlap (10_state.md R23). -/
theorem Effect.pc_cases {s t : State} {u : MicroOp} (h : Effect s u t) (hs : Inv s)
    (hno : s.cfg.noOverlap = true) (hpc : t.pc ≠ s.pc) :
    (∃ n : Byte, u = .stepProgramMemory n ∧ t.pc = s.pc + n.toNat) ∨
      (u.taken s = true ∧ t.pc = s.acc) ∨
      (u.storesRegister = true ∧ microWrittenReg u s = some s.cfg.pcId ∧ t.pc = s.acc) := by
  obtain ⟨hwf, -, -, -, -, hrf, -⟩ := hs
  obtain ⟨-, -, ⟨hsp, hmar, hflags⟩, -, -⟩ := wellFormed_roles hwf
  have hval : t.pc = t.regVal s.cfg.pcId := by rw [State.pc, h.cfg_eq]
  rw [hval] at hpc ⊢
  rcases h.changed_cases hno hrf.ge hpc with hstore | ⟨n, hu, -, e⟩ | ⟨hu, -, e⟩ | ⟨-, e⟩ | e | e
  · exact .inr (.inr hstore)
  · exact .inl ⟨n, hu, e⟩
  · exact .inr (.inl ⟨hu, e⟩)
  · exact absurd e hflags
  · exact absurd e hmar
  · exact absurd e hsp

/-- What an execute tick changes the flags with, where no windows overlap (10_state.md R26). -/
theorem Effect.flags_cases {s t : State} {u : MicroOp} (h : Effect s u t) (hs : Inv s)
    (hno : s.cfg.noOverlap = true) (hf : t.flags ≠ s.flags) :
    u = .compare ∨
      (u.storesRegister = true ∧ microWrittenReg u s = some s.cfg.flagsId ∧ t.flags = s.acc) := by
  obtain ⟨hwf, -, -, -, -, hrf, -⟩ := hs
  obtain ⟨-, -, ⟨-, -, hpc⟩, ⟨hsp, hmar⟩, -⟩ := wellFormed_roles hwf
  have hval : t.flags = t.regVal s.cfg.flagsId := by rw [State.flags, h.cfg_eq]
  rw [hval] at hf ⊢
  rcases h.changed_cases hno hrf.ge hf with hstore | ⟨n, -, e, -⟩ | ⟨-, e, -⟩ | ⟨hu, -⟩ | e | e
  · exact .inr hstore
  · exact absurd e.symm hpc
  · exact absurd e.symm hpc
  · exact .inl hu
  · exact absurd e hmar
  · exact absurd e hsp

/-- A taken jump leaves the engine Idle (44_sequencer.md R116). -/
theorem Effect.idle_of_taken {s t : State} {u : MicroOp} {op : Byte} (h : Effect s u t)
    (hu : u.taken s = true) (hc : s.condition = .executing op) : Idle t := by
  obtain ⟨hfatal, hhalted, -⟩ := (condition_executing_iff s op).1 hc
  obtain ⟨rfl, -, -⟩ := h.of_taken hu
  exact (condition_idle_iff _).2 ⟨by simpa using hfatal, by simpa using hhalted, rfl⟩

/-! ### The statements -/

/-- Settles O37. -/
theorem stepKeepsTheAccumulatorBound : Obligations.StepKeepsTheAccumulatorBound :=
  ⟨fun _ _ hs => ⟨fun h => next_accBounded hs (.inl h), fun h => next_accBounded hs (.inr h)⟩,
   by decide⟩

/-- Settles O35: the reset state is a construction. -/
theorem invHoldsAtReset : Obligations.InvHoldsAtReset := by
  rw [Obligations.InvHoldsAtReset, ← construct_referenceConfig]
  exact construct_inv referenceConfig_wellFormed

/-- Settles O9: a name resolves to its descriptor's position, names being unique. -/
theorem registerRead : Obligations.RegisterRead := by
  refine fun s i name => ⟨fun hi => regRead_unknown hi.not_gt, fun hname => ?_, fun d hd => ?_⟩
  · exact hostRead_of_error (resolve_of_none (resolveId_byName_none hname))
  · obtain ⟨hi, -⟩ := List.getElem?_eq_some_iff.1 hd
    refine ⟨(regRead_ok hi).trans (congrArg _ (regVal_of_getElem? hd)), fun hok => ?_⟩
    have hid := resolveId_byName hok hd
    exact ⟨hid, hostRead_of_ok (resolve_of_id hid hd)⟩

/-- Settles O11: from the reasoning rules of `regPut` and `memPut`. -/
theorem registerAndMemoryWrite : Obligations.RegisterAndMemoryWrite := by
  refine ⟨fun s i v => ⟨fun hi => regWrite_unknown hi.not_gt, fun d hd => ?_⟩,
    fun s a n v hwf => ⟨memWrite_range, fun ha => ⟨memWrite_wide ha, fun hv => ?_⟩⟩⟩
  · obtain ⟨hi, -⟩ := List.getElem?_eq_some_iff.1 hd
    have hsize := regSize_of_getElem? hd
    refine ⟨fun hv => regWrite_wide hi (by rw [hsize]; exact hv.not_gt), fun hv hrf => ?_⟩
    rw [← hsize] at hv
    refine ⟨s.regPut i v, regWrite_ok hi hv, regPut_eq_setRf s i v, regPut_rf_length s i v, ?_,
      fun k hk => ?_, ?_⟩
    · rw [regPut_of_getElem? hd]
      exact readWindow_writeWindow_of_mem (List.mem_of_getElem? hd) hrf (bytesOf_length _ _)
    · rw [regPut_of_getElem? hd]
      exact writeWindow_getElem?_outside (by rwa [bytesOf_length])
    · rw [regRead_ok (by simpa using hi), regVal_regPut_same hi hv hrf]
  · refine ⟨s.memPut a n v, memWrite_ok ha hv, rfl, fun k hk => ?_,
      fun b hb => memByte_memPut_outside hb, ?_⟩
    · exact Memory.read_writeBytes_inside hwf (by rwa [bytesOf_length])
    · rw [memRead_ok (s := s.memPut a n v) ha, memVal_memPut_same hwf hv]

/-- Settles O22: each field's frame, read off the effect of the micro-operation. -/
theorem microOpFrame : Obligations.MicroOpFrame := by
  intro u s t h
  rw [exec_toInstr] at h
  obtain ⟨m, he, rfl⟩ := runMicroOp_next h
  refine ⟨fun a ha => he.memByte_eq ha, he.storage_eq, he.cfg_eq, he.fatal_eq,
    congrArg (· + 1) he.currentStep_eq, he.acc_eq, he.halted_eq,
    fun hu => he.currentOpcode_of_not_taken (MicroOp.taken_of_not_isJump hu s),
    he.currentOpcode_of_not_taken, fun hu => ?_⟩
  obtain ⟨rfl, hpc, hv⟩ := he.of_taken hu
  refine ⟨rfl, fun hrf => ?_⟩
  simpa [State.pc] using regVal_regPut_same hpc hv hrf

/-- Settles O23, read off the effect as O22. -/
theorem microOpRegisterFrame : Obligations.MicroOpRegisterFrame := by
  intro u s t hno h r hr
  rw [exec_toInstr] at h
  obtain ⟨m, he, rfl⟩ := runMicroOp_next h
  exact (regVal_setCurrentStep ..).trans (he.regVal_eq hno hr)

/-- Settles O39: a no-op tick and a fetch tick change no register, an execute tick only as its
micro-operation assigns, and the retire tick only the program counter. -/
theorem writersOfProgramCounterAndFlags : Obligations.WritersOfProgramCounterAndFlags := by
  intro s t hs hno h
  rcases clock_next h with ⟨rfl, -⟩ | ⟨-, hf⟩ | ⟨op, u, m, hc, hu, -, he, rfl⟩ |
    ⟨op, e, hc, -, hn, hr⟩
  · exact ⟨absurd rfl, absurd rfl⟩
  · obtain ⟨-, -, -, rfl⟩ := fetch_ok hf
    exact ⟨absurd rfl, absurd rfl⟩
  · refine ⟨fun hpc => .inl ⟨u, hu, ?_⟩, fun hflags => ⟨u, hu, he.flags_cases hs hno hflags⟩⟩
    rcases he.pc_cases hs hno hpc with hstep | ⟨htaken, e⟩ | hstore
    · exact .inl hstep
    · exact .inr (.inl ⟨htaken, e, he.idle_of_taken htaken hc⟩)
    · exact .inr (.inr hstore)
  · obtain ⟨hwf, -, -, -, -, hrf, -⟩ := hs
    obtain ⟨-, -, ⟨-, -, hne⟩, -, -⟩ := wellFormed_roles hwf
    obtain ⟨hfatal, hhalted, -⟩ := (condition_executing_iff s op).1 hc
    obtain ⟨hi, hv, rfl⟩ := retireTick_next hr
    refine ⟨fun _ => .inr ⟨⟨op, hc⟩, hn, ?_, ?_⟩, fun hflags => absurd ?_ hflags⟩
    · simpa [State.pc] using regVal_regPut_same hi hv hrf.ge
    · exact (condition_idle_iff _).2 ⟨by simpa using hfatal, by simpa using hhalted, rfl⟩
    · simpa [State.flags] using regVal_regPut_ne hno hne

/-- Settles O58: field by field, from the lemmas about `State.construct`. -/
theorem resetState : Obligations.ResetState := by
  constructor
  · refine ⟨rfl, rfl, fun r hr => reset_regVal hr, fun a => ⟨rfl, rfl⟩, rfl, rfl, rfl, rfl, rfl, rfl,
      construct_referenceConfig, fun s hs => ?_⟩
    rw [State.hardReset, hs, construct_referenceConfig]
  · rintro c dp ds t hwf hp hs rfl
    refine ⟨construct_cfg c, construct_pc hwf, construct_sp hwf hp hs, construct_rf_length c,
      fun k => construct_rf_outside hp hs, fun hno r => construct_regVal_other c hno,
      fun a => ⟨?_, ?_⟩, construct_acc c, construct_currentOpcode c, construct_currentStep c,
      construct_halted c, construct_fatal c, construct_idle c, construct_inv hwf,
      fun s hs => by rw [State.hardReset, hs]⟩
    · rw [State.memByte, construct_mem]; rfl
    · rw [construct_storage]; rfl

/-- Settles O59: from the window rules, and from `add` as an append. -/
theorem hostRegisterOperations : Obligations.HostRegisterOperations := by
  refine ⟨fun s r bs hrf => ⟨fun d hd => ?_, fun e he => ?_⟩, rfl, ?_⟩
  · refine ⟨hostRead_of_ok hd, hostWrite_of_size hd, fun hb => ?_⟩
    refine ⟨_, hostWrite_of_ok hd hb, rfl, ?_, writeWindow_length _ _ _, fun k hk => ?_⟩
    · exact (hostRead_of_ok (s := s.setRf (writeWindow s.rf d.offset bs)) hd).trans
        (congrArg _ (readWindow_writeWindow_of_mem (resolve_ok_mem hd) hrf hb))
    · exact writeWindow_getElem?_outside (by rwa [hb])
  · exact ⟨resolve_error he, hostRead_of_error he, hostWrite_of_error he bs⟩
  · rintro c name size offset regs rfl
    refine ⟨addRegister_length .., addRegister_getElem?_new ..,
      fun i hi => addRegister_getElem?_old hi .., fun hok hnew hsize hlen => ?_⟩
    have hok' := addRegister_regsOk hok hnew hsize hlen offset
    exact ⟨hok', resolveId_byName hok' (addRegister_getElem?_new c.regs name size offset)⟩

end Sys2Proof.Machine
end

section
/-! SUPPORT. What 20_memory.md says of the two stores: what every step and every tick keeps of a state in form
(R40, with 10_state.md R15 and 44_sequencer.md R119), the memory accesses of a tick (R41, R43), and the host's
operations on a range of a store (R44). -/

namespace Sys2Proof.Machine

open Sys2Proof

/-! ### The state invariant (20_memory.md R40, 10_state.md R15, 44_sequencer.md R119) -/

theorem latchOk_of_none {s : State} (h : s.currentOpcode = none) : latchOk s = true := by
  simp [latchOk, h]

theorem latchOk_of_entry {s : State} {op : Byte} {e : Entry} (ho : s.currentOpcode = some op)
    (he : lookupEntry s.cfg.itable op = some e) : latchOk s = true := by
  simp [latchOk, ho, he]

/-- Whether the latch is in order depends on the configuration and the latch alone. -/
theorem latchOk_congr {s t : State} (hc : t.cfg = s.cfg) (ho : t.currentOpcode = s.currentOpcode) :
    latchOk t = latchOk s := by
  simp [latchOk, hc, ho]

/-- A micro-operation latches no opcode: it keeps the one latched, or a taken jump clears it. -/
theorem Effect.latchOk_of {s t : State} {u : MicroOp} (h : Effect s u t) (hs : latchOk s = true) :
    latchOk t = true := by
  rcases h.currentOpcode_cases with ho | ho
  · rwa [latchOk_congr h.cfg_eq ho]
  · exact latchOk_of_none ho

/-- The execute tick keeps the invariant (44_sequencer.md R113). -/
theorem Effect.inv {s t : State} {u : MicroOp} (h : Effect s u t) (hs : Inv s) :
    Inv (t.setCurrentStep (t.currentStep + 1)) := by
  obtain ⟨hcfg, hmem, hwithin, hstorage, hstorageWithin, hrf, hlatch⟩ := hs
  refine ⟨?_, h.mem_wf hmem, ?_, ?_, ?_, ?_, h.latchOk_of hlatch⟩
  · simpa [h.cfg_eq] using hcfg
  · simpa [h.cfg_eq] using h.mem_within hwithin
  · simpa [h.storage_eq] using hstorage
  · simpa [h.cfg_eq, h.storage_eq] using hstorageWithin
  · simpa [h.cfg_eq, h.rf_length] using hrf

/-- Latching an opcode that has an entry keeps the invariant (44_sequencer.md R112, R119). -/
theorem latched_inv {s : State} {op : Byte} {e : Entry} (hs : Inv s)
    (he : lookupEntry s.cfg.itable op = some e) : Inv (latched s op) := by
  obtain ⟨hcfg, hmem, hwithin, hstorage, hstorageWithin, hrf, -⟩ := hs
  exact ⟨hcfg, hmem, hwithin, hstorage, hstorageWithin, hrf,
    latchOk_of_entry (s := latched s op) rfl he⟩

/-- Writing a register and clearing the latch, as the retire tick does, keeps the invariant (44_sequencer.md
R114). -/
theorem regPut_setCurrentOpcode_none_inv {s : State} (hs : Inv s) (i v : Nat) :
    Inv ((s.regPut i v).setCurrentOpcode none) := by
  obtain ⟨hcfg, hmem, hwithin, hstorage, hstorageWithin, hrf, -⟩ := hs
  exact ⟨by simpa using hcfg, by simpa using hmem, by simpa using hwithin, by simpa using hstorage,
    by simpa using hstorageWithin, by simpa using hrf, latchOk_of_none rfl⟩

/-! ### Out of range (20_memory.md R43) -/

theorem memZero_range {s : State} {a n : Nat} (h : s.cfg.memSize < a + n) :
    s.memZero a n = .error .memRange := by simp [State.memZero, h]

/-! ### The host's stores (20_memory.md R44) -/

/-- What a byte reads as after `[a, b)` is cleared. -/
theorem Memory.read_zeroBytes {m : Memory} (hwf : Memory.wf m = true) {a b : Nat} (hab : a ≤ b)
    (x : Nat) : Memory.read (Memory.zeroBytes m a (b - a)) x =
      if a ≤ x ∧ x < b then 0 else Memory.read m x := by
  split
  · exact Memory.read_zeroBytes_inside hwf (by omega)
  · exact Memory.read_zeroBytes_outside (by omega)

section

variable {s : State} {k : StoreId} {a b : Nat} {bs : List Byte}

@[simp] theorem setStore_store (s : State) (k : StoreId) (m : Memory) :
    (s.setStore k m).store k = m := by
  cases k <;> rfl

@[simp] theorem setStore_storeSize (s : State) (k k' : StoreId) (m : Memory) :
    (s.setStore k m).storeSize k' = s.storeSize k' := by
  cases k' <;> simp [State.storeSize]

theorem writeRange_ok (h : a + bs.length ≤ s.storeSize k) :
    s.writeRange k a bs = .ok (s.setStore k (Memory.writeBytes (s.store k) a bs)) := by
  simp [State.writeRange, h]

theorem writeRange_range (h : s.storeSize k < a + bs.length) :
    s.writeRange k a bs = .error .outOfRange := by
  simp [State.writeRange, h.not_ge]

theorem readRange_ok (hab : a ≤ b) (hb : b ≤ s.storeSize k) :
    s.readRange k a b = .ok (Memory.readBytes (s.store k) a (b - a)) := by
  simp [State.readRange, hab, hb]

/-- A range that is reversed or ends past the store is out of range. -/
theorem readRange_range (h : b < a ∨ s.storeSize k < b) : s.readRange k a b = .error .outOfRange :=
  if_neg (by omega)

theorem clearRange_ok (hab : a ≤ b) (hb : b ≤ s.storeSize k) :
    s.clearRange k a b = .ok (s.setStore k (Memory.zeroBytes (s.store k) a (b - a))) := by
  simp [State.clearRange, hab, hb]

theorem clearRange_range (h : b < a ∨ s.storeSize k < b) :
    s.clearRange k a b = .error .outOfRange :=
  if_neg (by omega)

/-- The range just written reads back. -/
theorem readRange_writeBytes (hwf : Memory.wf (s.store k) = true)
    (h : a + bs.length ≤ s.storeSize k) :
    (s.setStore k (Memory.writeBytes (s.store k) a bs)).readRange k a (a + bs.length) = .ok bs := by
  rw [readRange_ok (Nat.le_add_right _ _) (by simpa using h), setStore_store, Nat.add_sub_cancel_left,
    Memory.readBytes_writeBytes_same hwf]

end

/-! ### The statements -/

/-- Settles O36, by the induction of every invariant: latching, every micro-operation and retiring keep it. -/
theorem stepKeepsInv : Obligations.StepKeepsInv := by
  have hfetch (s : State) (e : Entry) (hs : Inv s)
      (he : lookupEntry s.cfg.itable (s.memByte s.pc) = some e) :
      Inv (latched s (s.memByte s.pc)) := latched_inv hs he
  have hmicro (u : MicroOp) (s m : State) (hs : Inv s) (h : Effect s u m) :
      Inv (m.setCurrentStep (m.currentStep + 1)) := h.inv hs
  have hretire (s : State) (hs : Inv s) (_ : s.cfg.pcId < s.cfg.regs.length)
      (_ : s.pc + 1 < 256 ^ s.cfg.regSize s.cfg.pcId) :
      Inv ((s.regPut s.cfg.pcId (s.pc + 1)).setCurrentOpcode none) :=
      regPut_setCurrentOpcode_none_inv hs _ _
  exact fun s t hs => ⟨step_keeps hfetch hmicro hretire hs, clock_keeps hfetch hmicro hretire hs⟩

/-- Settles O10: from the reasoning rules of `memRead` and `memClear`. -/
theorem memoryReadAndZero : Obligations.MemoryReadAndZero := by
  refine fun s a n hwf => ⟨fun ha => ⟨memRead_range ha, memZero_range ha⟩, fun ha => ?_⟩
  refine ⟨memRead_ok ha, Memory.readBytes_getElem? s.mem a n, s.memClear a n, memZero_ok ha, rfl,
    fun k hk => ?_, fun b hb => memByte_memClear_outside hb⟩
  exact memByte_memClear_inside hwf ⟨Nat.le_add_right a k, Nat.add_lt_add_left hk a⟩

/-- Settles O60: from one rule per operation and outcome, and the laws of byte strings in a store. -/
theorem hostStoreOperations : Obligations.HostStoreOperations := by
  refine fun s k a b bs hwf => ⟨writeRange_range, fun hw => ?_,
    fun hr => ⟨readRange_range hr, clearRange_range hr⟩, fun hab hb => ?_, rfl⟩
  · refine ⟨_, writeRange_ok hw, by rw [setStore_store], readRange_writeBytes hwf hw, fun x hx => ?_⟩
    rw [setStore_store, Memory.read_writeBytes_outside hx]
  · refine ⟨_, clearRange_ok hab hb, by rw [setStore_store], fun x => ?_⟩
    rw [setStore_store, Memory.read_zeroBytes hwf hab]

end Sys2Proof.Machine
end

section
/-! SUPPORT. What 30_encoding.md says of the encodings: the round trip of the instructions of RCS-REF-1 (R60, R66,
R70), of micro-words and ROM entries (R64, R65), the opcodes without an entry (R68), and the lengths the table
gives (R62, R63, R71). -/

namespace Sys2Proof.Machine

open Sys2Proof

/-! ### Instructions (30_encoding.md R60, R66, R70) -/

/-- An encoded instruction of RCS-REF-1 decodes to itself, whatever follows it: one case per opcode of R66, the
micro-operations excluded. -/
theorem decode_encode_append {i : Instr} (h : i.isReference = true) (rest : List Byte) :
    decode (encode i ++ rest) = .ok (i, rest) := by
  cases i <;> cases h <;> rfl

/-- No encoding is empty: there is no instruction to read from no byte. -/
theorem encode_ne_nil {i : Instr} (h : i.isReference = true) : encode i ≠ [] := by
  obtain ⟨-, -, -, hne⟩ := decode_ok (decode_encode_append h [])
  simpa using hne

/-- Reading a program reads its first instruction, then the rest. -/
theorem decodeProgram_succ_of_decode {bs rest : List Byte} {i : Instr} {is : List Instr} {n : Nat}
    (hd : decode bs = .ok (i, rest)) (hp : decodeProgram n rest = .ok is) :
    decodeProgram (n + 1) bs = .ok (i :: is) := by
  cases bs with
  | nil => cases hd
  | cons b bs => simp [decodeProgram, hd, hp]

/-- An encoded program decodes to itself with fuel for every byte; each instruction takes one of fuel and at
least one byte. -/
theorem decodeProgram_encodeProgram {is : List Instr} (h : ∀ i ∈ is, i.isReference = true) {n : Nat}
    (hn : (encodeProgram is).length ≤ n) : decodeProgram n (encodeProgram is) = .ok is := by
  induction is generalizing n with
  | nil => cases n <;> rfl
  | cons i is ih =>
    obtain ⟨hi, his⟩ := List.forall_mem_cons.1 h
    have hpos : 0 < (encode i).length := List.length_pos_of_ne_nil (encode_ne_nil hi)
    rw [encodeProgram, List.length_append] at hn
    obtain ⟨m, rfl⟩ : ∃ m, n = m + 1 := ⟨n - 1, by omega⟩
    exact decodeProgram_succ_of_decode (decode_encode_append hi _) (ih his (by omega))

/-! ### Micro-words (30_encoding.md R64, R65) -/

theorem microKind_append (k a b : Byte) : microKind (k ++ (a ++ b)) = k :=
  BitVec.extractLsb'_append_eq_left

theorem microFieldA_append (k a b : Byte) : microFieldA (k ++ (a ++ b)) = a := by
  rw [microFieldA, BitVec.extractLsb'_append_eq_of_add_le (by decide)]
  exact BitVec.extractLsb'_append_eq_left

theorem microFieldB_append (k a b : Byte) : microFieldB (k ++ (a ++ b)) = b := by
  rw [microFieldB, BitVec.extractLsb'_append_eq_of_add_le (by decide)]
  exact BitVec.extractLsb'_append_eq_right

/-- A micro-word is its three fields: they cover every bit. -/
theorem microWord_eq_append (w : BitVec 24) :
    microKind w ++ (microFieldA w ++ microFieldB w) = w := by
  rw [microKind, microFieldA, microFieldB, BitVec.extractLsb'_append_extractLsb'_eq_extractLsb' (by rfl),
    BitVec.extractLsb'_append_extractLsb'_eq_extractLsb' (by rfl)]
  exact BitVec.extractLsb'_eq_self

/-- A word is the encoding of `u` when its fields are those of `u`. -/
theorem encodeMicroWord_eq_iff (u : MicroOp) (w : BitVec 24) :
    encodeMicroWord u = w ↔ u.fields = (microKind w, microFieldA w, microFieldB w) := by
  constructor
  · rintro rfl
    rw [encodeMicroWord, microKind_append, microFieldA_append, microFieldB_append]
  · intro h
    rw [encodeMicroWord, h, microWord_eq_append]

/-- A word with the fields of a micro-operation decodes to it. -/
theorem decodeMicroWord_of_fields {u : MicroOp} {w : BitVec 24}
    (h : u.fields = (microKind w, microFieldA w, microFieldB w)) : decodeMicroWord w = .ok u := by
  have hk : microKind w = u.fields.1 := by rw [h]
  have ha : microFieldA w = u.fields.2.1 := by rw [h]
  have hb : microFieldB w = u.fields.2.2 := by rw [h]
  simp only [decodeMicroWord, hk, ha, hb]
  cases u <;> rfl

/-- A kind without fields is accepted only where both fields are zero. -/
theorem fields_of_plain {k a b : Byte} {u v : MicroOp} {e : DecodeError} {n : Nat}
    (h : (if a = 0 ∧ b = 0 then Except.ok v else .error e) = .ok u) (hk : k.toNat = n)
    (hv : v.fields = (BitVec.ofNat 8 n, 0, 0)) : u.fields = (k, a, b) := by
  split at h
  next hab =>
    obtain ⟨rfl, rfl⟩ := hab
    cases h
    simp [hv, ← hk]
  next => cases h

/-- A kind with one field is accepted only where the second is zero. -/
theorem fields_of_one {k a b : Byte} {u : MicroOp} {mk : Byte → MicroOp} {e : DecodeError} {n : Nat}
    (h : (if b = 0 then Except.ok (mk a) else .error e) = .ok u) (hk : k.toNat = n)
    (hv : (mk a).fields = (BitVec.ofNat 8 n, a, 0)) : u.fields = (k, a, b) := by
  split at h
  next hb =>
    subst hb
    cases h
    simp [hv, ← hk]
  next => cases h

/-- A kind with two fields is accepted with any. -/
theorem fields_of_two {k a b : Byte} {u v : MicroOp} {n : Nat}
    (h : (Except.ok v : Except DecodeError MicroOp) = .ok u) (hk : k.toNat = n)
    (hv : v.fields = (BitVec.ofNat 8 n, a, b)) : u.fields = (k, a, b) := by
  cases h
  simp [hv, ← hk]

/-- A word that decodes has the fields of what it decodes to: one case per kind of R64, case `h_n` being kind
`n - 1` and the last every unknown kind. -/
theorem fields_of_decodeMicroWord {w : BitVec 24} {u : MicroOp} (h : decodeMicroWord w = .ok u) :
    u.fields = (microKind w, microFieldA w, microFieldB w) := by
  unfold decodeMicroWord at h
  dsimp only at h
  split at h
  case h_1 hk | h_2 hk | h_5 hk | h_8 hk | h_9 hk | h_13 hk | h_14 hk | h_15 hk | h_16 hk | h_17 hk |
      h_18 hk => exact fields_of_plain h hk rfl
  case h_3 hk | h_4 hk | h_6 hk | h_7 hk | h_10 hk | h_11 hk | h_12 hk => exact fields_of_one h hk rfl
  case h_19 hk | h_20 hk => exact fields_of_two h hk rfl
  case h_21 => cases h

/-- Micro-words and micro-operations correspond one to one. -/
theorem decodeMicroWord_eq_ok_iff (u : MicroOp) (w : BitVec 24) :
    decodeMicroWord w = .ok u ↔ encodeMicroWord u = w := by
  rw [encodeMicroWord_eq_iff]
  exact ⟨fields_of_decodeMicroWord, decodeMicroWord_of_fields⟩

/-- The encoding of a micro-operation decodes to it. -/
theorem decodeMicroWord_encodeMicroWord (u : MicroOp) :
    decodeMicroWord (encodeMicroWord u) = .ok u :=
  (decodeMicroWord_eq_ok_iff u _).2 rfl

/-! ### ROM entries (30_encoding.md R65) -/

/-- The micro-words of a list of micro-operations read back, whatever follows them. -/
theorem decodeMicroWords_romBytes_append (us : List MicroOp) (rest : List Byte) :
    decodeMicroWords us.length (us.flatMap MicroOp.romBytes ++ rest) = .ok (us, rest) := by
  induction us with
  | nil => rfl
  | cons u us ih =>
    have hu : decodeMicroWord (u.fields.1 ++ (u.fields.2.1 ++ u.fields.2.2)) = .ok u :=
      decodeMicroWord_encodeMicroWord u
    simp [MicroOp.romBytes, decodeMicroWords, hu, ih]

/-- Only an entry whose count fits a byte has an image (log 13). -/
theorem encodeEntry_eq_some {e : Entry} {image : List Byte} (h : encodeEntry e = some image) :
    e.microOps.length < 256 ∧
      image = e.argCount :: BitVec.ofNat 8 e.microOps.length ::
        e.microOps.flatMap MicroOp.romBytes := by
  unfold encodeEntry at h
  split at h
  next hlen => exact ⟨hlen, (Option.some.inj h).symm⟩
  next => cases h

/-! ### The instruction table (30_encoding.md R62, R63, R68, R71) -/

/-- An opcode has no entry when it is none of the table's. -/
theorem lookupEntry_eq_none_iff (t : ITable) (op : Byte) :
    lookupEntry t op = none ↔ ∀ p ∈ t, p.1 ≠ op := by
  induction t with
  | nil => simp [lookupEntry]
  | cons p t ih =>
    rw [lookupEntry, List.forall_mem_cons]
    split
    next h => simp [h]
    next h => simp [h, ih]

/-- The entry found for an opcode stands in the table. -/
theorem mem_of_lookupEntry {t : ITable} {op : Byte} {e : Entry} (h : lookupEntry t op = some e) :
    (op, e) ∈ t := by
  induction t with
  | nil => cases h
  | cons p t ih =>
    rw [lookupEntry] at h
    split at h
    next hp =>
      cases hp
      cases h
      exact List.mem_cons_self
    next => exact List.mem_cons_of_mem p (ih h)

/-- A fetch of an opcode without an entry raises UNKNOWN_OPCODE (30_encoding.md R68). -/
theorem fetch_of_no_entry {s : State} (hi : s.cfg.pcId < s.cfg.regs.length)
    (hm : s.pc < s.cfg.memSize) (he : lookupEntry s.cfg.itable (s.memByte s.pc) = none) :
    fetch s = .error .unknownOpcode := by
  unfold State.pc at hm he
  have hr : s.memRead (s.regVal s.cfg.pcId) 1 = .ok (s.memByte (s.regVal s.cfg.pcId)).toNat := by
    rw [memRead_ok (by omega), memVal_one]
  simp only [fetch, regRead_ok hi, bind_ok, hr, BitVec.ofNat_toNat, BitVec.setWidth_eq, he]

/-- The opcodes RCS-REF-1 leaves free (30_encoding.md R68). -/
theorem lookupEntry_rcsRef1_eq_none_iff (op : Byte) : lookupEntry rcsRef1 op = none ↔
    (0x02 ≤ op.toNat ∧ op.toNat ≤ 0x0F) ∨ (0x15 ≤ op.toNat ∧ op.toNat ≤ 0x1F) ∨
    (0x24 ≤ op.toNat ∧ op.toNat ≤ 0x2F) ∨ (0x33 ≤ op.toNat ∧ op.toNat ≤ 0x3F) ∨
    (0x45 ≤ op.toNat ∧ op.toNat ≤ 0x4F) ∨ (0x59 ≤ op.toNat ∧ op.toNat ≤ 0x5F) ∨
    0x62 ≤ op.toNat := by
  rw [lookupEntry_eq_none_iff]
  simp only [rcsRef1, List.forall_mem_cons, List.not_mem_nil, false_implies, implies_true, and_true, ne_eq,
    ← BitVec.toNat_inj, BitVec.ofNat_eq_ofNat, BitVec.toNat_ofNat, Nat.reducePow, Nat.reduceMod,
    Nat.zero_mod, Nat.one_mod]
  omega

/-- Every entry of RCS-REF-1 with a fall-through path steps over its operand bytes on it (30_encoding.md R63). -/
theorem rcsRef1_lengthConsistent : ∀ p ∈ rcsRef1, p.2.lengthConsistent = true := by decide

/-- Every entry of RCS-REF-1 is well formed in the reference configuration (30_encoding.md R71). -/
theorem rcsRef1_wellFormed : ∀ p ∈ rcsRef1, p.2.wellFormed referenceConfig.regs.length = true := by
  decide

/-- The entry of an instruction counts the bytes after its opcode (30_encoding.md R62, R66). -/
theorem lookup_reference_argCount {i : Instr} (h : i.isReference = true) :
    ∃ e, lookupEntry rcsRef1 ((encode i).headD 0) = some e ∧
      (encode i).length = 1 + e.argCount.toNat := by
  cases i <;> cases h <;> exact ⟨_, rfl, rfl⟩

/-! ### The statements -/

/-- Settles O3: each instruction's encoding decodes to itself before the rest of the program's. -/
theorem programDecodesToItself : Obligations.ProgramDecodesToItself :=
  fun _ h => decodeProgram_encodeProgram h le_rfl

/-- Settles O5: the count byte gives back the number of micro-words, and each reads back as its
micro-operation. -/
theorem romEntryDecodesToItself : Obligations.RomEntryDecodesToItself := by
  intro e image rest h
  obtain ⟨hlen, rfl⟩ := encodeEntry_eq_some h
  have hcount : (BitVec.ofNat 8 e.microOps.length).toNat = e.microOps.length := by
    simpa using hlen
  simp only [List.cons_append, decodeEntry, hcount, decodeMicroWords_romBytes_append]

/-- Settles O2: what decodes begins with an encoding, and the round trip says what the decoder leaves. -/
theorem decodedBytesAreTheEncoding : Obligations.DecodedBytesAreTheEncoding := by
  intro bs rest i h
  obtain ⟨-, hi, ⟨rest', rfl⟩, -⟩ := decode_ok h
  rw [decode_encode_append hi] at h
  cases h
  exact ⟨hi, rfl⟩

/-- Settles O4: the fields determine a word, and the decoder accepts no fields but those of the micro-operation
it answers. -/
theorem microWordsAreTheMicroOps : Obligations.MicroWordsAreTheMicroOps := decodeMicroWord_eq_ok_iff

/-- Settles O6: the fetch tick looks the byte up, and the listed ranges are what the thirty opcodes leave. -/
theorem illegalOpcodesStopTheFetch : Obligations.IllegalOpcodesStopTheFetch := by
  refine ⟨fun s hidle hi hm he => ?_, lookupEntry_rcsRef1_eq_none_iff⟩
  rw [clock_of_idle hidle, fetchTick, fetch_of_no_entry hi hm he]
  rfl

/-- Settles O1: the words that decode are encodings, and the others are refused by name. -/
theorem decodeSampleWords : Obligations.DecodeSampleWords :=
  ⟨decode_encode_append (i := .nop) rfl [],
   decode_encode_append (i := .ldi 0x2A) rfl [0x01],
   decode_encode_append (i := .mvi 0x05 0x2A) rfl [],
   decode_encode_append (i := .stm 0x80 0x07) rfl [],
   decode_encode_append (i := .popr 0x06) rfl [],
   decode_encode_append (i := .jge 0x0A) rfl [],
   decode_encode_append (i := .ret) rfl [],
   rfl, rfl,
   decodeMicroWord_encodeMicroWord .noOperation,
   decodeMicroWord_encodeMicroWord (.stepProgramMemory 2),
   decodeMicroWord_encodeMicroWord (.jumpIfFlag 0x01 0x02),
   decodeMicroWord_encodeMicroWord (.jumpIfNotFlag 0x00 0x03),
   rfl, rfl⟩

/-- Settles O7: what holds of every entry of the table, of the one found for the opcode. -/
theorem tableLengthsAgree : Obligations.TableLengthsAgree := by
  intro i hi
  obtain ⟨e, he, hlen⟩ := lookup_reference_argCount hi
  have hmem := mem_of_lookupEntry he
  exact ⟨e, he, rcsRef1_lengthConsistent _ hmem, rcsRef1_wellFormed _ hmem, hlen⟩

end Sys2Proof.Machine
end

section
/-! SUPPORT. What 40_microops_move.md says of the micro-operations that move data (R80 to R90), with PushToStack
(42_microops_stack.md R101) and Halt (43_microops_control.md R104): one rule for each that reads an operand or
makes more than one check, and the causes each raises. -/

namespace Sys2Proof.Machine

open Sys2Proof

/-! ### Sequences in the raise monad -/

theorem bind_of_ok {α β : Type} {x : Raise α} {f : α → Raise β} {a : α} (h : x = .ok a) :
    (x >>= f) = f a := by
  rw [h, bind_ok]

theorem bind_of_error {α β : Type} {x : Raise α} {f : α → Raise β} {c : FatalCause}
    (h : x = .error c) : (x >>= f) = .error c := by
  rw [h, bind_error]

/-! ### The execute tick (44_sequencer.md R113) -/

/-- A micro-operation that completes is followed by one more on the cursor. -/
theorem exec_of_ok {u : MicroOp} {s t : State} (h : microOf u s = .ok t) :
    exec u.toInstr s = .next (stepped t) := by
  rw [exec_toInstr, runMicroOp_eq, executeTick, h]
  rfl

/-- A micro-operation that raises is a fatal error of its cause. -/
theorem exec_of_error {u : MicroOp} {s : State} {c : FatalCause} (h : microOf u s = .error c) :
    FaultsWith (exec u.toInstr s) c := by
  rw [exec_toInstr, runMicroOp_eq, executeTick, h]
  rfl

section
variable {s : State} {o id n : Byte}

/-! ### The operand byte (40_microops_move.md R76) -/

theorem operandByte_unknown (h : s.cfg.regs.length ≤ s.cfg.pcId) :
    s.operandByte o = .error .unknownRegister :=
  bind_of_error (regRead_unknown h.not_gt)

theorem operandByte_range (h : s.cfg.pcId < s.cfg.regs.length)
    (hm : s.cfg.memSize ≤ s.pc + o.toNat) : s.operandByte o = .error .memRange :=
  (bind_of_ok (regRead_ok h)).trans (memRead_range (Nat.lt_succ_of_le hm))

/-! ### The loads (40_microops_move.md R81 to R85) -/

theorem microOf_loadImmediate (h : s.cfg.pcId < s.cfg.regs.length)
    (hm : s.pc + o.toNat < s.cfg.memSize) :
    microOf (.loadImmediate o) s = .ok (s.setAcc (s.memByte (s.pc + o.toNat)).toNat) :=
  bind_of_ok (operandByte_ok h hm)

theorem microOf_loadFromMemory (h : s.cfg.marId < s.cfg.regs.length)
    (hm : s.mar + s.cfg.dataSize ≤ s.cfg.memSize) :
    microOf .loadFromMemory s = .ok (s.setAcc (s.memVal s.mar s.cfg.dataSize)) :=
  (bind_of_ok (regRead_ok h)).trans (bind_of_ok (memRead_ok hm))

/-- LoadFromRegister is a register read once its operand byte is read. -/
theorem operandRegRead_eq (h : s.cfg.pcId < s.cfg.regs.length)
    (hm : s.pc + o.toNat < s.cfg.memSize) :
    s.operandRegRead o = s.regRead (s.memByte (s.pc + o.toNat)).toNat :=
  bind_of_ok (operandByte_ok h hm)

theorem microOf_loadFromRegister (h : s.cfg.pcId < s.cfg.regs.length)
    (hm : s.pc + o.toNat < s.cfg.memSize)
    (hr : (s.memByte (s.pc + o.toNat)).toNat < s.cfg.regs.length) :
    microOf (.loadFromRegister o) s =
      .ok (s.setAcc (s.regVal (s.memByte (s.pc + o.toNat)).toNat)) :=
  bind_of_ok ((operandRegRead_eq h hm).trans (regRead_ok hr))

theorem microOf_loadFromRegisterInternal (h : id.toNat < s.cfg.regs.length) :
    microOf (.loadFromRegisterInternal id) s = .ok (s.setAcc (s.regVal id.toNat)) :=
  bind_of_ok (regRead_ok h)

/-! ### The stores (40_microops_move.md R86 to R90) -/

/-- StoreToRegister is a register write once its operand byte is read. -/
theorem microOf_storeToRegister (h : s.cfg.pcId < s.cfg.regs.length)
    (hm : s.pc + o.toNat < s.cfg.memSize) :
    microOf (.storeToRegister o) s = s.regWrite (s.memByte (s.pc + o.toNat)).toNat s.acc :=
  bind_of_ok (operandByte_ok h hm)

/-- StepProgramMemory is a register write once the program counter is read. -/
theorem microOf_stepProgramMemory (h : s.cfg.pcId < s.cfg.regs.length) :
    microOf (.stepProgramMemory n) s = s.regWrite s.cfg.pcId (s.pc + n.toNat) :=
  bind_of_ok (regRead_ok h)

/-- StoreToMemory is a memory write once the address is read. -/
theorem microOf_storeToMemory (h : s.cfg.marId < s.cfg.regs.length) :
    microOf .storeToMemory s = s.memWrite s.mar s.cfg.dataSize s.acc :=
  bind_of_ok (regRead_ok h)

/-! ### PushToStack (42_microops_stack.md R101) -/

theorem microOf_pushToStack_underflow (h : s.cfg.spId < s.cfg.regs.length)
    (hs : s.sp < s.cfg.dataSize) : microOf .pushToStack s = .error .subUnderflow :=
  (bind_of_ok (regRead_ok h)).trans (if_pos hs)

/-- A push whose slot does not start below address 0 is a memory write, then a write of `sp`. -/
theorem microOf_pushToStack_eq (h : s.cfg.spId < s.cfg.regs.length) (hs : s.cfg.dataSize ≤ s.sp) :
    microOf .pushToStack s = (do
      let t ← s.memWrite (s.sp - s.cfg.dataSize) s.cfg.dataSize s.acc
      t.regWrite s.cfg.spId (s.sp - s.cfg.dataSize)) :=
  (bind_of_ok (regRead_ok h)).trans (if_neg hs.not_gt)

/-- What the write of the slot raises, the push raises. -/
theorem microOf_pushToStack_error {c : FatalCause} (h : s.cfg.spId < s.cfg.regs.length)
    (hs : s.cfg.dataSize ≤ s.sp)
    (hw : s.memWrite (s.sp - s.cfg.dataSize) s.cfg.dataSize s.acc = .error c) :
    microOf .pushToStack s = .error c :=
  (microOf_pushToStack_eq h hs).trans (bind_of_error hw)

/-- The write of `sp` never raises: the new value is below the old one, which fits. -/
theorem microOf_pushToStack (h : s.cfg.spId < s.cfg.regs.length) (hs : s.cfg.dataSize ≤ s.sp)
    (hm : s.sp ≤ s.cfg.memSize) (hv : s.acc < 256 ^ s.cfg.dataSize) :
    microOf .pushToStack s =
      .ok ((s.memPut (s.sp - s.cfg.dataSize) s.cfg.dataSize s.acc).regPut s.cfg.spId
        (s.sp - s.cfg.dataSize)) := by
  have hslot : s.sp - s.cfg.dataSize + s.cfg.dataSize ≤ s.cfg.memSize := by
    rwa [Nat.sub_add_cancel hs]
  have hfit : s.sp - s.cfg.dataSize < 256 ^ s.cfg.regSize s.cfg.spId :=
    (Nat.sub_le _ _).trans_lt (regVal_lt s s.cfg.spId)
  rw [microOf_pushToStack_eq h hs, memWrite_ok hslot hv, bind_ok]
  exact regWrite_ok h hfit

end

/-! ### The statements -/

/-- Settles O13: each load raises what reading its source raises, and else sets the accumulator. -/
theorem loadMicroOps : Obligations.LoadMicroOps := by
  refine fun s => ⟨fun o => ⟨rfl, fun hpc => ?_, fun hpc => ⟨fun hm => ?_, fun hm => ?_⟩⟩,
    fun c => ⟨rfl, exec_of_ok (u := .loadImmediateInternal c) rfl⟩,
    ⟨rfl, fun hmar => ?_, fun hmar hm => ?_, fun hmar hm => ?_⟩,
    fun o => ⟨rfl, fun hpc => ?_, fun hpc => ⟨fun hm => ?_, fun hm hr => ?_, fun hm hr => ?_⟩⟩,
    fun id => ⟨rfl, fun hr => ?_, fun hr => ?_⟩⟩
  · exact exec_of_error (u := .loadImmediate o) (bind_of_error (operandByte_unknown hpc))
  · exact exec_of_ok (microOf_loadImmediate hpc hm)
  · exact exec_of_error (u := .loadImmediate o) (bind_of_error (operandByte_range hpc hm))
  · exact exec_of_error (u := .loadFromMemory) (bind_of_error (regRead_unknown hmar.not_gt))
  · exact exec_of_error (u := .loadFromMemory)
      ((bind_of_ok (regRead_ok hmar)).trans (bind_of_error (memRead_range hm)))
  · exact exec_of_ok (microOf_loadFromMemory hmar hm)
  · exact exec_of_error (u := .loadFromRegister o)
      (bind_of_error (bind_of_error (operandByte_unknown hpc)))
  · exact exec_of_error (u := .loadFromRegister o)
      (bind_of_error (bind_of_error (operandByte_range hpc hm)))
  · exact exec_of_error (u := .loadFromRegister o)
      (bind_of_error ((operandRegRead_eq hpc hm).trans (regRead_unknown hr.not_gt)))
  · exact exec_of_ok (microOf_loadFromRegister hpc hm hr)
  · exact exec_of_error (u := .loadFromRegisterInternal id)
      (bind_of_error (regRead_unknown hr.not_gt))
  · exact exec_of_ok (microOf_loadFromRegisterInternal hr)

/-- Settles O14: each is the register write that is left once its operands are read. -/
theorem storeMicroOps : Obligations.StoreMicroOps := by
  refine fun s => ⟨⟨rfl, fun hmar => ?_, fun hmar hv => ?_, fun hmar hv => ?_⟩,
    fun o => ⟨rfl, fun hpc => ?_, fun hpc => ⟨fun hm => ?_, fun hm hr => ?_, fun hm hr hv => ?_,
      fun hm hr hv => ?_⟩⟩,
    fun id => ⟨rfl, fun hr => ?_, fun hr hv => ?_, fun hr hv => ?_⟩,
    fun n => ⟨rfl, fun hpc => ?_, fun hpc => ⟨fun hv => ?_, fun hv => ?_⟩⟩⟩
  · exact exec_of_error (u := .setMemoryAddress) (regWrite_unknown hmar.not_gt)
  · exact exec_of_error (u := .setMemoryAddress) (regWrite_wide hmar hv.not_gt)
  · exact exec_of_ok (u := .setMemoryAddress) (regWrite_ok hmar hv)
  · exact exec_of_error (u := .storeToRegister o) (bind_of_error (operandByte_unknown hpc))
  · exact exec_of_error (u := .storeToRegister o) (bind_of_error (operandByte_range hpc hm))
  · exact exec_of_error ((microOf_storeToRegister hpc hm).trans (regWrite_unknown hr.not_gt))
  · exact exec_of_error ((microOf_storeToRegister hpc hm).trans (regWrite_wide hr hv.not_gt))
  · exact exec_of_ok ((microOf_storeToRegister hpc hm).trans (regWrite_ok hr hv))
  · exact exec_of_error (u := .storeToRegisterInternal id) (regWrite_unknown hr.not_gt)
  · exact exec_of_error (u := .storeToRegisterInternal id) (regWrite_wide hr hv.not_gt)
  · exact exec_of_ok (u := .storeToRegisterInternal id) (regWrite_ok hr hv)
  · exact exec_of_error (u := .stepProgramMemory n) (bind_of_error (regRead_unknown hpc.not_gt))
  · exact exec_of_error ((microOf_stepProgramMemory hpc).trans (regWrite_wide hpc hv.not_gt))
  · exact exec_of_ok ((microOf_stepProgramMemory hpc).trans (regWrite_ok hpc hv))

/-- Settles O17: both are a write of `W` bytes, at `mar` or in the slot that ends below `sp`. -/
theorem storeToMemoryAndPush : Obligations.StoreToMemoryAndPush := by
  refine ⟨rfl, rfl, fun s => ⟨fun hmar => ?_, fun hmar => ⟨fun hm => ?_, fun hm hv => ?_,
    fun hm hv => ?_⟩, fun hsp => ?_, fun hsp => ⟨fun hs => ?_, fun hs hm => ?_, fun hs hm hv => ?_,
    fun hs hm hv => ?_⟩⟩⟩
  · exact exec_of_error (u := .storeToMemory) (bind_of_error (regRead_unknown hmar.not_gt))
  · exact exec_of_error ((microOf_storeToMemory hmar).trans (memWrite_range hm))
  · exact exec_of_error ((microOf_storeToMemory hmar).trans (memWrite_wide hm hv))
  · exact exec_of_ok ((microOf_storeToMemory hmar).trans (memWrite_ok hm hv))
  · exact exec_of_error (u := .pushToStack) (bind_of_error (regRead_unknown hsp.not_gt))
  · exact exec_of_error (microOf_pushToStack_underflow hsp hs)
  · exact exec_of_error (microOf_pushToStack_error hsp hs (memWrite_range (by omega)))
  · exact exec_of_error (microOf_pushToStack_error hsp hs (memWrite_wide (by omega) hv))
  · exact exec_of_ok (microOf_pushToStack hsp hs hm hv)

/-- Settles O12: neither micro-operation can raise. -/
theorem noOperationAndHalt : Obligations.NoOperationAndHalt :=
  ⟨rfl, rfl, fun _ => ⟨exec_of_ok (u := .noOperation) rfl, exec_of_ok (u := .halt) rfl⟩⟩

end Sys2Proof.Machine
end

section
/-! SUPPORT. What 41_microops_alu.md says of Add, Sub and Compare (R92, R93, R96 to R99): the two operand reads they
share, one rule for each outcome, and the flags value Compare writes. -/

namespace Sys2Proof.Machine

open Sys2Proof

section
variable {s : State} {v : Nat}

/-! ### The operands -/

/-- What reads `reg_a` and `reg_b` first raises where one of them is not configured (10_state.md R20). -/
theorem readOperands_unknown {α : Type} {f : Nat → Nat → Raise α}
    (h : s.cfg.regs.length ≤ s.cfg.regAId ∨ s.cfg.regs.length ≤ s.cfg.regBId) :
    (do let a ← s.regRead s.cfg.regAId
        let b ← s.regRead s.cfg.regBId
        f a b) = .error .unknownRegister := by
  rcases regRead_cases s s.cfg.regAId with ⟨ha, e⟩ | ⟨-, e⟩
  · exact (bind_of_ok e).trans (bind_of_error (regRead_unknown (h.resolve_left ha.not_ge).not_gt))
  · exact bind_of_error e

/-- What reads `reg_a` and `reg_b` first goes on with their values where both are configured. -/
theorem readOperands_ok {α : Type} {f : Nat → Nat → Raise α}
    (ha : s.cfg.regAId < s.cfg.regs.length) (hb : s.cfg.regBId < s.cfg.regs.length) :
    (do let a ← s.regRead s.cfg.regAId
        let b ← s.regRead s.cfg.regBId
        f a b) = f s.regA s.regB :=
  (bind_of_ok (regRead_ok ha)).trans (bind_of_ok (regRead_ok hb))

/-! ### Add and Sub (41_microops_alu.md R96, R97) -/

theorem exec_uAdd (ha : s.cfg.regAId < s.cfg.regs.length) (hb : s.cfg.regBId < s.cfg.regs.length) :
    exec .uAdd s = .next (stepped (s.setAcc (s.regA + s.regB))) :=
  exec_of_ok (u := .add) (readOperands_ok ha hb)

theorem exec_uSub_underflow (ha : s.cfg.regAId < s.cfg.regs.length)
    (hb : s.cfg.regBId < s.cfg.regs.length) (h : s.regA < s.regB) :
    FaultsWith (exec .uSub s) .subUnderflow :=
  exec_of_error (u := .sub) ((readOperands_ok ha hb).trans (if_pos h))

theorem exec_uSub (ha : s.cfg.regAId < s.cfg.regs.length) (hb : s.cfg.regBId < s.cfg.regs.length)
    (h : s.regB ≤ s.regA) : exec .uSub s = .next (stepped (s.setAcc (s.regA - s.regB))) :=
  exec_of_ok (u := .sub) ((readOperands_ok ha hb).trans (if_neg h.not_gt))

/-- Sub completes only without an underflow. -/
theorem exec_uSub_next {t : State} (ha : s.cfg.regAId < s.cfg.regs.length)
    (hb : s.cfg.regBId < s.cfg.regs.length) (h : exec .uSub s = .next t) :
    s.regB ≤ s.regA ∧ t = stepped (s.setAcc (s.regA - s.regB)) := by
  rcases Nat.lt_or_ge s.regA s.regB with hlt | hge
  · have hf := exec_uSub_underflow ha hb hlt
    rw [h] at hf
    cases hf
  · rw [exec_uSub ha hb hge] at h
    injection h with h
    exact ⟨hge, h.symm⟩

/-- Add on `reg_a` replaced by `v` gives `v + reg_b`: the write leaves `reg_b` alone. -/
theorem exec_uAdd_regPut_regA_acc {u : State} (hs : Inv s) (ho : s.cfg.noOverlap = true)
    (hv : v < 256 ^ s.cfg.regSize s.cfg.regAId)
    (h : exec .uAdd (s.regPut s.cfg.regAId v) = .next u) : u.acc = v + s.regB := by
  obtain ⟨hwf, -, -, -, -, hrf, -⟩ := hs
  obtain ⟨-, ⟨-, -, -, -, ha, hb⟩, -, -, hne⟩ := wellFormed_roles hwf
  have hA : (s.regPut s.cfg.regAId v).regA = v := by
    rw [State.regA, regPut_cfg]
    exact regVal_regPut_same ha hv hrf.ge
  have hB : (s.regPut s.cfg.regAId v).regB = s.regB := by
    rw [State.regB, regPut_cfg]
    exact regVal_regPut_ne ho hne
  rw [exec_uAdd (by simpa using ha) (by simpa using hb), hA, hB] at h
  injection h with h
  rw [← h]
  rfl

/-! ### Compare (41_microops_alu.md R98, R99) -/

/-- The flags value as the number the statements write. -/
theorem compareFlags_toNat (a b : Nat) :
    (compareFlags a b).toNat = if a = b then 1 else if b < a then 2 else 0 := by
  unfold compareFlags
  split_ifs <;> rfl

theorem microOf_compare_unknown (h : s.cfg.regs.length ≤ s.cfg.regAId ∨
    s.cfg.regs.length ≤ s.cfg.regBId ∨ s.cfg.regs.length ≤ s.cfg.flagsId) :
    microOf .compare s = .error .unknownRegister := by
  by_cases hop : s.cfg.regs.length ≤ s.cfg.regAId ∨ s.cfg.regs.length ≤ s.cfg.regBId
  · exact readOperands_unknown hop
  · have hf : s.cfg.regs.length ≤ s.cfg.flagsId := by omega
    exact (readOperands_ok (by omega) (by omega)).trans (bind_of_error (regRead_unknown hf.not_gt))

/-- A flags value always fits the flags register, which has at least one byte. -/
theorem regWrite_flags (hr : s.cfg.regsOk = true) (hf : s.cfg.flagsId < s.cfg.regs.length)
    (a b : Nat) : s.regWrite s.cfg.flagsId (compareFlags a b).toNat =
      .ok (s.regPut s.cfg.flagsId (if a = b then 1 else if b < a then 2 else 0)) := by
  have hbyte : 256 ^ 1 ≤ 256 ^ s.cfg.regSize s.cfg.flagsId :=
    Nat.pow_le_pow_right (by decide) (regSize_pos hr hf)
  rw [← compareFlags_toNat]
  exact regWrite_ok hf ((compareFlags a b).isLt.trans_le hbyte)

/-- Compare, once its three registers are resolved, looks at the width and then writes the flags. -/
theorem microOf_compare_eq (ha : s.cfg.regAId < s.cfg.regs.length)
    (hb : s.cfg.regBId < s.cfg.regs.length) (hf : s.cfg.flagsId < s.cfg.regs.length) :
    microOf .compare s =
      if s.compareIsWide = true then
        if s.cfg.compareWide = .refuse then .error .compareWidth
        else s.regWrite s.cfg.flagsId (compareFlags (s.regA % 256) (s.regB % 256)).toNat
      else s.regWrite s.cfg.flagsId (compareFlags s.regA s.regB).toNat := by
  refine (readOperands_ok ha hb).trans ((bind_of_ok (regRead_ok hf)).trans ?_)
  cases s.cfg.compareWide <;> rfl

end

/-! ### The statements -/

/-- Settles O15: for the law, the difference fits `reg_a` because it is at most the old value. -/
theorem addAndSubMicroOps : Obligations.AddAndSubMicroOps := by
  refine ⟨rfl, rfl, fun s => ⟨fun h => ⟨?_, ?_⟩, fun ha hb => ⟨exec_uAdd ha hb,
    exec_uSub_underflow ha hb, exec_uSub ha hb⟩, fun t u hs ho hsub hadd => ?_⟩⟩
  · exact exec_of_error (u := .add) (readOperands_unknown h)
  · exact exec_of_error (u := .sub) (readOperands_unknown h)
  · obtain ⟨-, ⟨-, -, -, -, ha, hb⟩, -, -, -⟩ := wellFormed_roles hs.1
    obtain ⟨hle, rfl⟩ := exec_uSub_next ha hb hsub
    have hfit : s.regA - s.regB < 256 ^ s.cfg.regSize s.cfg.regAId :=
      (Nat.sub_le _ _).trans_lt (regVal_lt s s.cfg.regAId)
    calc u.acc = s.regA - s.regB + s.regB :=
          exec_uAdd_regPut_regA_acc (s := stepped (s.setAcc (s.regA - s.regB))) hs ho hfit hadd
      _ = s.regA := Nat.sub_add_cancel hle

/-- Settles O16: each case is the branch of Compare that the widths and `COMPARE_WIDE` select. -/
theorem compareMicroOp : Obligations.CompareMicroOp := by
  refine ⟨rfl, fun s hr => ⟨fun _ h => ?_, fun ha hb hf => ⟨fun hw => ?_, fun hw hc => ?_,
    fun hw hc => ?_⟩⟩⟩
  · exact exec_of_error (microOf_compare_unknown h)
  · refine exec_of_ok (u := .compare) ?_
    rw [microOf_compare_eq ha hb hf, if_neg (by simp [hw]), regWrite_flags hr hf]
  · refine exec_of_error (u := .compare) ?_
    rw [microOf_compare_eq ha hb hf, if_pos hw, if_pos hc]
  · refine exec_of_ok (u := .compare) ?_
    rw [microOf_compare_eq ha hb hf, if_pos hw, if_neg (by simp [hc]), regWrite_flags hr hf]

end Sys2Proof.Machine
end

section
/-! SUPPORT. What 42_microops_stack.md says of PopFromStack (R102) and of a pop after a push (R103): what a push
leaves in its slot, and that a pop whose slot and new `sp` fit completes. -/

namespace Sys2Proof.Machine

open Sys2Proof

/-! ### Execute ticks that complete, and memory read by bytes -/

/-- A micro-operation that completes keeps the invariant. -/
theorem exec_toInstr_inv {u : MicroOp} {s t : State} (hs : Inv s)
    (h : exec u.toInstr s = .next t) : Inv t := by
  rw [exec_toInstr] at h
  obtain ⟨m, he, rfl⟩ := runMicroOp_next h
  exact he.inv hs

/-- A value read from memory depends on its own bytes alone. -/
theorem memVal_of_memByte_eq {s t : State} {a n : Nat}
    (h : ∀ b, a ≤ b → b < a + n → t.memByte b = s.memByte b) : t.memVal a n = s.memVal a n :=
  congrArg val (Memory.readBytes_congr fun k hk =>
    h (a + k) (Nat.le_add_right a k) (Nat.add_lt_add_left hk a))

section
variable {s t : State}

theorem sp_lt (s : State) : s.sp < 256 ^ s.cfg.regSize s.cfg.spId := regVal_lt s s.cfg.spId

/-- After an execute tick whose last write is `sp`, that is its value. -/
theorem stepped_regPut_sp {v : Nat} (hsp : s.cfg.spId < s.cfg.regs.length)
    (hv : v < 256 ^ s.cfg.regSize s.cfg.spId) (hrf : s.cfg.rfLen ≤ s.rf.length) :
    (stepped (s.regPut s.cfg.spId v)).sp = v := by
  rw [State.sp, stepped, regVal_setCurrentStep, State.setCurrentStep_cfg, regPut_cfg]
  exact regVal_regPut_same hsp hv hrf

/-- An execute tick whose last write is `sp` leaves the memory that stood before that write. -/
theorem stepped_regPut_mem (i v : Nat) : (stepped (s.regPut i v)).mem = s.mem :=
  regPut_mem s i v

/-! ### PopFromStack (42_microops_stack.md R102) -/

/-- A pop whose slot lies in memory is a write of `sp`, after the slot's value is in the accumulator and the
slot is zero. -/
theorem microOf_popFromStack_eq (hsp : s.cfg.spId < s.cfg.regs.length)
    (hm : s.sp + s.cfg.dataSize ≤ s.cfg.memSize) :
    microOf .popFromStack s =
      ((s.setAcc (s.memVal s.sp s.cfg.dataSize)).memClear s.sp s.cfg.dataSize).regWrite
        s.cfg.spId (s.sp + s.cfg.dataSize) :=
  (bind_of_ok (regRead_ok hsp)).trans ((bind_of_ok (memRead_ok hm)).trans
    (bind_of_ok (memZero_ok hm)))

theorem exec_uPopFromStack (hsp : s.cfg.spId < s.cfg.regs.length)
    (hm : s.sp + s.cfg.dataSize ≤ s.cfg.memSize)
    (hv : s.sp + s.cfg.dataSize < 256 ^ s.cfg.regSize s.cfg.spId) :
    exec .uPopFromStack s = .next (stepped
      (((s.setAcc (s.memVal s.sp s.cfg.dataSize)).memClear s.sp s.cfg.dataSize).regPut
        s.cfg.spId (s.sp + s.cfg.dataSize))) :=
  exec_of_ok ((microOf_popFromStack_eq hsp hm).trans (regWrite_ok hsp hv))

/-- What a pop that completes gives: the slot's value, `sp` past the slot, and the slot zero. -/
theorem pop_completes (hs : Inv s) (hm : s.sp + s.cfg.dataSize ≤ s.cfg.memSize)
    (hv : s.sp + s.cfg.dataSize < 256 ^ s.cfg.regSize s.cfg.spId) :
    ∃ u : State, exec .uPopFromStack s = .next u ∧ u.acc = s.memVal s.sp s.cfg.dataSize ∧
      u.sp = s.sp + s.cfg.dataSize ∧
      ∀ a : Nat, s.sp ≤ a → a < s.sp + s.cfg.dataSize → u.memByte a = 0 := by
  obtain ⟨hwf, hmem, -, -, -, hrf, -⟩ := hs
  obtain ⟨-, ⟨-, hsp, -⟩, -⟩ := wellFormed_roles hwf
  refine ⟨_, exec_uPopFromStack hsp hm hv, regPut_acc .., ?_, fun a hlo hhi => ?_⟩
  · exact stepped_regPut_sp
      (s := (s.setAcc (s.memVal s.sp s.cfg.dataSize)).memClear s.sp s.cfg.dataSize) hsp hv hrf.ge
  · rw [memByte_congr (stepped_regPut_mem ..)]
    exact memByte_memClear_inside hmem ⟨hlo, hhi⟩

/-! ### A pop after a push (42_microops_stack.md R103) -/

/-- A push completes only where its checks pass (42_microops_stack.md R101). -/
theorem exec_uPushToStack_next (h : exec .uPushToStack s = .next t) :
    s.cfg.spId < s.cfg.regs.length ∧ s.cfg.dataSize ≤ s.sp ∧ s.sp ≤ s.cfg.memSize ∧
      s.acc < 256 ^ s.cfg.dataSize ∧
      t = stepped ((s.memPut (s.sp - s.cfg.dataSize) s.cfg.dataSize s.acc).regPut s.cfg.spId
        (s.sp - s.cfg.dataSize)) := by
  obtain ⟨m, he, rfl⟩ := runMicroOp_next (u := .pushToStack) h
  cases he with
  | push hi hW hin hacc => exact ⟨hi, hW, hin, hacc, rfl⟩
  | same _ hu => simp at hu
  | load _ v hu => simp at hu
  | reg _ i v hi hv hu => simp at hu
  | jump _ hi hv hu => simp at hu

/-- What a push that completes leaves: `sp` one slot down, the slot in memory, and the pushed value in it. -/
theorem push_slot (hs : Inv s) (h : exec .uPushToStack s = .next t) :
    t.cfg = s.cfg ∧ t.sp + s.cfg.dataSize = s.sp ∧ s.sp ≤ s.cfg.memSize ∧
      t.memVal t.sp s.cfg.dataSize = s.acc := by
  obtain ⟨-, hmem, -, -, -, hrf, -⟩ := hs
  obtain ⟨hi, hW, hin, hacc, rfl⟩ := exec_uPushToStack_next h
  have hsp := stepped_regPut_sp (s := s.memPut (s.sp - s.cfg.dataSize) s.cfg.dataSize s.acc) hi
    ((Nat.sub_le s.sp s.cfg.dataSize).trans_lt (sp_lt s)) hrf.ge
  rw [memPut_cfg] at hsp
  refine ⟨regPut_cfg .., ?_, hin, ?_⟩
  · rw [hsp, Nat.sub_add_cancel hW]
  · rw [hsp, memVal_congr (stepped_regPut_mem ..)]
    exact memVal_memPut_same hmem hacc

/-- A pop undoes a push from any state with the configuration, `sp` and slot bytes the push left. -/
theorem pop_undoes_push {m : State} (hs : Inv s) (hm : Inv m)
    (h : exec .uPushToStack s = .next t) (hcfg : m.cfg = t.cfg) (hsp : m.sp = t.sp)
    (hslot : ∀ a : Nat, t.sp ≤ a → a < s.sp → m.memByte a = t.memByte a) :
    ∃ u : State, exec .uPopFromStack m = .next u ∧ u.acc = s.acc ∧ u.sp = s.sp ∧
      ∀ a : Nat, t.sp ≤ a → a < s.sp → u.memByte a = 0 := by
  obtain ⟨htc, hup, hin, hval⟩ := push_slot hs h
  have hc : m.cfg = s.cfg := hcfg.trans htc
  have htop : m.sp + m.cfg.dataSize = s.sp := by rw [hsp, hc, hup]
  obtain ⟨u, hu, hacc, husp, hzero⟩ := pop_completes hm (by rwa [htop, hc])
    (by rw [htop, hc]; exact sp_lt s)
  refine ⟨u, hu, ?_, husp.trans htop, fun a hlo hhi => hzero a (by omega) (by omega)⟩
  calc u.acc = m.memVal t.sp s.cfg.dataSize := by rw [hacc, hsp, hc]
    _ = t.memVal t.sp s.cfg.dataSize :=
        memVal_of_memByte_eq fun b hlo hhi => hslot b hlo (by omega)
    _ = s.acc := hval

/-- A push and the pop that undoes it leave the configuration, and memory from the old `sp` up. -/
theorem push_pop_frame {x : State} (hs : Inv s) (hpush : exec .uPushToStack s = .next t)
    (hpop : exec .uPopFromStack t = .next x) :
    x.cfg = s.cfg ∧ ∀ a : Nat, s.sp ≤ a → x.memByte a = s.memByte a := by
  obtain ⟨htc, hup, -, -⟩ := push_slot hs hpush
  obtain ⟨hpushMem, -⟩ := microOpFrame .pushToStack s t hpush
  obtain ⟨hpopMem, -, hxc, -⟩ := microOpFrame .popFromStack t x hpop
  refine ⟨hxc.trans htc, fun a ha => ?_⟩
  calc x.memByte a = t.memByte a :=
        hpopMem a fun b hb => by injection hb with hb; rw [htc]; omega
    _ = s.memByte a := hpushMem a fun b hb => by injection hb with hb; omega

end

/-! ### The statements -/

/-- Settles O18: the checks in their order, then the write of `sp` that is left. -/
theorem popMicroOp : Obligations.PopMicroOp := by
  refine ⟨rfl, fun s => ⟨fun hsp => ?_, fun hsp => ⟨fun hm => ?_, fun hm hv => ?_,
    exec_uPopFromStack hsp⟩⟩⟩
  · exact exec_of_error (u := .popFromStack) (bind_of_error (regRead_unknown hsp.not_gt))
  · exact exec_of_error (u := .popFromStack)
      ((bind_of_ok (regRead_ok hsp)).trans (bind_of_error (memRead_range hm)))
  · exact exec_of_error ((microOf_popFromStack_eq hsp hm).trans (regWrite_wide hsp hv.not_gt))

/-- Settles O19: the second push and the first pop are one of the interferences that the undoing of the first
push allows. -/
theorem popAfterPush : Obligations.PopAfterPush := by
  refine ⟨fun s t m hs hm h => pop_undoes_push hs hm h, fun s t w v hs hpush hpush' => ?_⟩
  have hinv : Inv t := exec_toInstr_inv (u := .pushToStack) hs hpush
  have ht : Inv (t.setAcc v) := hinv
  have hw : Inv w := exec_toInstr_inv (u := .pushToStack) ht hpush'
  obtain ⟨x, hpop, hxacc, hxsp, -⟩ := pop_undoes_push ht hw hpush' rfl rfl fun _ _ _ => rfl
  have hx : Inv x := exec_toInstr_inv (u := .popFromStack) hw hpop
  obtain ⟨hxc, hxmem⟩ := push_pop_frame ht hpush' hpop
  obtain ⟨y, hpop', hyacc, hysp, -⟩ :=
    pop_undoes_push hs hx hpush hxc hxsp fun a hlo _ => hxmem a hlo
  exact ⟨x, y, hpop, hxacc, hpop', hyacc, hysp⟩

end Sys2Proof.Machine
end

section
/-! SUPPORT. What 43_microops_control.md says of the three jumps (R105, R107, R108) and of their mask condition
(R106, R109): a conditional jump, once its flags are read, is Jump or nothing, so that one set of rules for what
acts as Jump serves all three. -/

namespace Sys2Proof.Machine

open Sys2Proof

section
variable {s : State} {u : MicroOp} {t m : Byte}

/-! ### The mask condition (43_microops_control.md R106) -/

/-- Empty masks ask nothing of the flags. -/
theorem flagCond_empty (f : Nat) : flagCond f 0 0 = true :=
  (flagCond_iff_testBit f 0 0).2 fun _ => by simp

/-- Masks that share a bit ask that it be 1 and 0. -/
theorem flagCond_shared_bit (f : Nat) {k : Nat} (ht : t.toNat.testBit k = true)
    (hm : m.toNat.testBit k = true) : flagCond f t m = false := by
  refine Bool.eq_false_iff.2 fun hc => ?_
  obtain ⟨hone, hzero⟩ := (flagCond_iff_testBit f t m).1 hc k
  exact Bool.false_ne_true ((hzero hm).symm.trans (hone ht))

/-! ### The conditional jumps are Jump or nothing (43_microops_control.md R107, R108) -/

theorem microOf_jumpIfFlag_eq (h : s.cfg.flagsId < s.cfg.regs.length) :
    microOf (.jumpIfFlag t m) s = if flagCond s.flags t m then microJump s else .ok s :=
  bind_of_ok (regRead_ok h)

theorem microOf_jumpIfNotFlag_eq (h : s.cfg.flagsId < s.cfg.regs.length) :
    microOf (.jumpIfNotFlag t m) s = if flagCond s.flags t m then .ok s else microJump s :=
  bind_of_ok (regRead_ok h)

/-! ### What acts as Jump (43_microops_control.md R105, 10_state.md R20) -/

theorem exec_jump_unknown (hu : microOf u s = microJump s) (h : s.cfg.regs.length ≤ s.cfg.pcId) :
    FaultsWith (exec u.toInstr s) .unknownRegister :=
  exec_of_error (hu.trans (bind_of_error (regWrite_unknown h.not_gt)))

theorem exec_jump_wide (hu : microOf u s = microJump s) (h : s.cfg.pcId < s.cfg.regs.length)
    (hv : 256 ^ s.cfg.regSize s.cfg.pcId ≤ s.acc) : FaultsWith (exec u.toInstr s) .valueTooWide :=
  exec_of_error (hu.trans (bind_of_error (regWrite_wide h hv.not_gt)))

theorem exec_jump (hu : microOf u s = microJump s) (h : s.cfg.pcId < s.cfg.regs.length)
    (hv : s.acc < 256 ^ s.cfg.regSize s.cfg.pcId) :
    exec u.toInstr s = .next (stepped ((s.regPut s.cfg.pcId s.acc).setCurrentOpcode none)) :=
  exec_of_ok (hu.trans (bind_of_ok (regWrite_ok h hv)))

/-- A Jump that completes ends its instruction (44_sequencer.md R116) with the program counter exactly the
accumulator. -/
theorem exec_uJump_idle_pc {r : State} (hs : Executing s) (hrf : s.cfg.rfLen ≤ s.rf.length)
    (h : exec .uJump s = .next r) : Idle r ∧ r.pc = s.acc := by
  obtain ⟨op, hop⟩ := hs
  obtain ⟨w, he, rfl⟩ := runMicroOp_next (u := .jump) h
  refine ⟨he.idle_of_taken rfl hop, ?_⟩
  obtain ⟨rfl, hpc, hv⟩ := he.of_taken rfl
  rw [State.pc, regVal_setCurrentStep, regVal_setCurrentOpcode, State.setCurrentStep_cfg,
    State.setCurrentOpcode_cfg, regPut_cfg]
  exact regVal_regPut_same hpc hv hrf

end

/-! ### The statements -/

/-- Settles O20: a jump that is taken raises or completes as the write of the program counter does, and one that
is not taken completes with the state it began with. -/
theorem jumpMicroOps : Obligations.JumpMicroOps := by
  refine ⟨rfl, fun s => ⟨exec_jump_unknown (u := .jump) rfl, fun hpc =>
    ⟨exec_jump_wide (u := .jump) rfl hpc, exec_jump (u := .jump) rfl hpc,
      fun _ => exec_uJump_idle_pc⟩, fun t m =>
    ⟨rfl, rfl, fun hf => ⟨?_, ?_⟩, fun hf => ⟨fun hc => ?_, fun hc => ?_⟩⟩⟩⟩
  · exact exec_of_error (u := .jumpIfFlag t m) (bind_of_error (regRead_unknown hf.not_gt))
  · exact exec_of_error (u := .jumpIfNotFlag t m) (bind_of_error (regRead_unknown hf.not_gt))
  · have htaken : microOf (.jumpIfFlag t m) s = microJump s :=
      (microOf_jumpIfFlag_eq hf).trans (if_pos hc)
    have hskipped : microOf (.jumpIfNotFlag t m) s = .ok s :=
      (microOf_jumpIfNotFlag_eq hf).trans (if_pos hc)
    exact ⟨exec_of_ok hskipped, exec_jump_unknown htaken, fun hpc =>
      ⟨exec_jump_wide htaken hpc, exec_jump htaken hpc⟩⟩
  · have htaken : microOf (.jumpIfNotFlag t m) s = microJump s :=
      (microOf_jumpIfNotFlag_eq hf).trans (if_neg (ne_true_of_eq_false hc))
    have hskipped : microOf (.jumpIfFlag t m) s = .ok s :=
      (microOf_jumpIfFlag_eq hf).trans (if_neg (ne_true_of_eq_false hc))
    exact ⟨exec_of_ok hskipped, exec_jump_unknown htaken, fun hpc =>
      ⟨exec_jump_wide htaken hpc, exec_jump htaken hpc⟩⟩

/-- Settles O21: the mask condition bit by bit gives the two extreme pairs of masks, and each row of R109's table
is one pair on four flags values. -/
theorem flagCondition : Obligations.FlagCondition :=
  ⟨flagCond_iff_testBit, flagCond_empty, fun f _ _ _ => flagCond_shared_bit f,
   by decide, by decide, by decide, by decide, by decide, by decide⟩

end Sys2Proof.Machine
end

section
/-! SUPPORT. What 44_sequencer.md says of the tick (R110 to R114, R118), of a step as a run of ticks from the
instruction at the program counter (R121), and of an instruction of any table: how far it moves the program
counter (R115, R116) and how many ticks it takes (R117, R120). The last two are read off `LastTick`: where the run of
an instruction ends, and how. -/

namespace Sys2Proof.Machine

open Sys2Proof

section
variable {s t m : State} {e : Entry} {u : MicroOp} {j k n : Nat}

/-! ### The fetch tick and the retire tick (44_sequencer.md R112, R114) -/

theorem fetch_unknown (h : s.cfg.regs.length ≤ s.cfg.pcId) : fetch s = .error .unknownRegister :=
  bind_of_error (regRead_unknown h.not_gt)

theorem fetch_range (h : s.cfg.pcId < s.cfg.regs.length) (hm : s.cfg.memSize ≤ s.pc) :
    fetch s = .error .memRange :=
  (bind_of_ok (regRead_ok h)).trans (bind_of_error (memRead_range (Nat.lt_succ_of_le hm)))

theorem fetchTick_of_ok (h : fetch s = .ok t) : fetchTick s = .next t := by
  rw [fetchTick, h]

theorem fetchTick_of_error {c : FatalCause} (h : fetch s = .error c) :
    fetchTick s = raiseFatal s c := by
  rw [fetchTick, h]

theorem faultsWith_fetchTick {c : FatalCause} (h : fetch s = .error c) :
    FaultsWith (fetchTick s) c := by
  rw [fetchTick_of_error h]
  rfl

/-- A tick from Idle that completes has latched an opcode with an entry. -/
theorem clock_next_of_idle (hs : Idle s) (h : clock s = .next t) :
    (∃ e, lookupEntry s.cfg.itable (s.memByte s.pc) = some e) ∧ t = latched s (s.memByte s.pc) := by
  rw [clock_of_idle hs] at h
  cases hf : fetch s with
  | ok r =>
    rw [fetchTick_of_ok hf] at h
    injection h with h
    obtain ⟨-, -, he, hr⟩ := fetch_ok hf
    exact ⟨he, h.symm.trans hr⟩
  | error c =>
    rw [fetchTick_of_error hf] at h
    cases h

theorem retireTick_of_ok (h : retire s = .ok t) : retireTick s = .next t := by
  rw [retireTick, h]

theorem faultsWith_retireTick {c : FatalCause} (h : retire s = .error c) :
    FaultsWith (retireTick s) c := by
  rw [retireTick, h]
  rfl

/-- Retiring is a write of the program counter once it is read. -/
theorem retire_eq (h : s.cfg.pcId < s.cfg.regs.length) :
    retire s = (do
      let t ← s.regWrite s.cfg.pcId (s.pc + 1)
      .ok (t.setCurrentOpcode none)) :=
  bind_of_ok (regRead_ok h)

/-- The retire tick returns the engine to Idle (44_sequencer.md R114). -/
theorem retireTick_idle (hx : Executing s) (h : retireTick s = .next t) : Idle t := by
  obtain ⟨op, hop⟩ := hx
  obtain ⟨hfatal, hhalted, -⟩ := (condition_executing_iff s op).1 hop
  obtain ⟨-, -, rfl⟩ := retireTick_next h
  exact (condition_idle_iff _).2 ⟨by simpa using hfatal, by simpa using hhalted, rfl⟩

/-- The retire tick adds exactly 1 to the program counter (44_sequencer.md R114). -/
theorem retireTick_pc (hrf : s.cfg.rfLen ≤ s.rf.length) (h : retireTick s = .next t) :
    t.pc = s.pc + 1 := by
  obtain ⟨hi, hv, rfl⟩ := retireTick_next h
  simpa [State.pc] using regVal_regPut_same hi hv hrf

theorem not_executing_of_idle (h : Idle s) : ¬ Executing s := by
  rintro ⟨op, hop⟩
  cases h.symm.trans hop

/-! ### In the middle of an entry (44_sequencer.md R110, R111) -/

/-- The engine executes the entry `e`: the latched opcode is one that the table gives `e`. -/
def InEntry (e : Entry) (s : State) : Prop :=
  ∃ op, s.condition = .executing op ∧ lookupEntry s.cfg.itable op = some e

theorem InEntry.executing (h : InEntry e s) : Executing s := by
  obtain ⟨op, hop, -⟩ := h
  exact ⟨op, hop⟩

theorem InEntry.clock_of_microOp (h : InEntry e s) (hu : e.microOps[s.currentStep]? = some u) :
    clock s = runMicroOp u s := by
  obtain ⟨op, hop, he⟩ := h
  exact Machine.clock_of_microOp hop he hu

theorem InEntry.clock_of_retire (h : InEntry e s) (hn : e.microOps.length ≤ s.currentStep) :
    clock s = retireTick s := by
  obtain ⟨op, hop, he⟩ := h
  exact Machine.clock_of_retire hop he hn

/-- The latched state of a fetch executes the entry found for the byte at the program counter. -/
theorem inEntry_latched (hs : Idle s) (he : lookupEntry s.cfg.itable (s.memByte s.pc) = some e) :
    InEntry e (latched s (s.memByte s.pc)) := by
  obtain ⟨hfatal, hhalted, -⟩ := (condition_idle_iff s).1 hs
  exact ⟨_, (condition_executing_iff _ _).2 ⟨hfatal, hhalted, rfl⟩, he⟩

/-- The cursor does not decide the entry. -/
theorem inEntry_stepped (h : InEntry e s) : InEntry e (stepped s) := h

/-- What one tick in the middle of an entry can do when it does not raise: `clock_next` with the entry known. -/
theorem InEntry.clock_next (h : InEntry e s) (hc : clock s = .next t) :
    (∃ u r, e.microOps[s.currentStep]? = some u ∧ Effect s u r ∧ t = stepped r) ∨
      (e.microOps.length ≤ s.currentStep ∧ retireTick s = .next t) := by
  cases hu : e.microOps[s.currentStep]? with
  | some u =>
    rw [h.clock_of_microOp hu] at hc
    obtain ⟨r, he, rfl⟩ := runMicroOp_next hc
    exact .inl ⟨u, r, rfl, he, rfl⟩
  | none =>
    have hn := List.getElem?_eq_none_iff.1 hu
    rw [h.clock_of_retire hn] at hc
    exact .inr ⟨hn, hc⟩

/-- An execute tick that leaves the engine Executing leaves it in the same entry: it latches no opcode. -/
theorem InEntry.of_effect (h : InEntry e s) (he : Effect s u t) (hx : Executing (stepped t)) :
    InEntry e (stepped t) := by
  obtain ⟨op, hop, hl⟩ := h
  obtain ⟨op', hop'⟩ := hx
  obtain ⟨-, -, hs⟩ := (condition_executing_iff _ _).1 hop
  have ht : t.currentOpcode = some op' := ((condition_executing_iff _ _).1 hop').2.2
  have hsame : op' = op := by
    rcases he.currentOpcode_cases with ho | ho
    · exact Option.some.inj (ht.symm.trans (ho.trans hs))
    · cases ht.symm.trans ho
  subst hsame
  exact ⟨op', hop', (congrArg (lookupEntry ·.itable op') he.cfg_eq).trans hl⟩

/-- Where no fatal error stands, a run that does not end here is in the middle of an instruction. -/
theorem executing_iff_runEnds (h : s.fatal = none) : Executing s ↔ s.runEnds = false := by
  simp only [Executing, condition_executing_iff, h, true_and, State.runEnds, Bool.or_eq_false_iff,
    exists_and_left, Option.isNone_eq_false_iff, Option.isSome_iff_exists]

/-- An execute tick that neither takes a jump nor halts leaves the engine Executing (44_sequencer.md R113). -/
theorem Effect.executing_of_not_taken (he : Effect s u t) (hx : Executing s)
    (ht : u.taken s = false) (hu : u ≠ .halt) : Executing (stepped t) := by
  obtain ⟨op, hop⟩ := hx
  obtain ⟨hfatal, hhalted, ho⟩ := (condition_executing_iff s op).1 hop
  exact ⟨op, (condition_executing_iff _ op).2 ⟨he.fatal_eq.trans hfatal,
    (he.halted_eq hu).trans hhalted, (he.currentOpcode_of_not_taken ht).trans ho⟩⟩

/-- A taken jump leaves the engine Idle with the program counter at the accumulator (44_sequencer.md R116). -/
theorem Effect.stepped_of_taken (he : Effect s u t) (hx : Executing s) (hu : u.taken s = true)
    (hrf : s.cfg.rfLen ≤ s.rf.length) :
    (stepped t).pc = s.acc ∧ (stepped t).acc = s.acc ∧ Idle (stepped t) := by
  obtain ⟨op, hop⟩ := hx
  have hidle : Idle (stepped t) := he.idle_of_taken hu hop
  obtain ⟨rfl, hi, hv⟩ := he.of_taken hu
  refine ⟨?_, regPut_acc .., hidle⟩
  simpa [State.pc, stepped] using regVal_regPut_same hi hv hrf

/-- Halt leaves the engine halted (43_microops_control.md R104). -/
theorem Effect.halted_of_halt (he : Effect s .halt t) : t.halted = true := by
  cases he with
  | halt => rfl
  | same _ hu => simp at hu
  | load _ v hu => simp at hu
  | reg _ i v hi hv hu => simp at hu
  | jump _ hi hv hu => simp at hu

/-- StepProgramMemory writes the program counter and nothing else (40_microops_move.md R90). -/
theorem Effect.of_stepProgramMemory {a : Byte} (he : Effect s (.stepProgramMemory a) t) :
    s.cfg.pcId < s.cfg.regs.length ∧ s.pc + a.toNat < 256 ^ s.cfg.regSize s.cfg.pcId ∧
      t = s.regPut s.cfg.pcId (s.pc + a.toNat) := by
  cases he with
  | same _ hu => simp at hu
  | load _ v hu => simp at hu
  | reg _ i v hi hv hu =>
    simp only [reduceCtorEq, false_and, exists_const, MicroOp.stepProgramMemory.injEq, false_or,
      or_false] at hu
    obtain ⟨_, rfl, rfl, rfl⟩ := hu
    exact ⟨hi, hv, rfl⟩
  | jump _ hi hv hu => simp at hu

/-- Between two jumps the program counter moves by StepProgramMemory alone, unless a register store names it
(44_sequencer.md R115). -/
theorem Effect.pc_eq_add_stepAmount (he : Effect s u t) (hs : Inv s) (hno : s.cfg.noOverlap = true)
    (ht : u.taken s = false)
    (hst : u.storesRegister = true → microWrittenReg u s ≠ some s.cfg.pcId) :
    t.pc = s.pc + u.stepAmount := by
  by_cases hu : ∃ a, u = .stepProgramMemory a
  · obtain ⟨a, rfl⟩ := hu
    obtain ⟨-, -, -, -, -, hrf, -⟩ := hs
    obtain ⟨hi, hv, rfl⟩ := he.of_stepProgramMemory
    simpa [State.pc, MicroOp.stepAmount] using regVal_regPut_same hi hv hrf.ge
  · have hzero : u.stepAmount = 0 := by
      cases u
      case stepProgramMemory a => exact absurd ⟨a, rfl⟩ hu
      all_goals rfl
    rw [hzero, Nat.add_zero]
    by_contra hpc
    rcases he.pc_cases hs hno hpc with ⟨a, ha, -⟩ | ⟨htaken, -⟩ | ⟨hstore, hreg, -⟩
    · exact hu ⟨a, ha⟩
    · exact Bool.false_ne_true (ht.symm.trans htaken)
    · exact hst hstore hreg

/-! ### Straight micro-operations -/

theorem MicroOp.taken_of_isStraight (h : u.isStraight = true) (s : State) : u.taken s = false := by
  refine MicroOp.taken_of_not_isJump ?_ s
  cases u
  case jump => cases h
  case jumpIfFlag => cases h
  case jumpIfNotFlag => cases h
  all_goals rfl

theorem stepSum_take_succ {us : List MicroOp} (h : us[k]? = some u) :
    stepSum (us.take (k + 1)) = stepSum (us.take k) + u.stepAmount := by
  simp [stepSum, List.take_add_one, h]

/-! ### Ticks -/

theorem ticks_one (s : State) : ticks 1 s = clock s := by
  rw [ticks]
  cases clock s <;> rfl

/-- The last of several ticks that complete. -/
theorem ticks_succ_next : ticks (n + 1) s = .next t ↔ ∃ m, ticks n s = .next m ∧ clock m = .next t := by
  constructor
  · intro h
    induction n generalizing s with
    | zero => exact ⟨s, rfl, (ticks_one s).symm.trans h⟩
    | succ n ih =>
      cases hc : clock s with
      | next r =>
        rw [ticks_succ_of_next hc] at h ⊢
        exact ih h
      | fault f => rw [ticks, hc] at h; cases h
      | refused f => rw [ticks, hc] at h; cases h
  · rintro ⟨m, hm, hc⟩
    rw [ticks_add hm, ticks_one, hc]

/-- What every tick keeps, any number of them keeps. -/
theorem ticks_keeps {P : State → Prop} (hclock : ∀ r r', P r → clock r = .next r' → P r')
    (hs : P s) (h : ticks n s = .next t) : P t := by
  induction n generalizing t with
  | zero => cases h; exact hs
  | succ n ih =>
    obtain ⟨m, hm, hc⟩ := ticks_succ_next.1 h
    exact hclock m t (ih hm) hc

theorem ticks_inv (hs : Inv s) (h : ticks n s = .next t) : Inv t :=
  ticks_keeps (fun r r' hr => (stepKeepsInv r r' hr).2) hs h

theorem ticks_cfg (h : ticks n s = .next t) : t.cfg = s.cfg :=
  ticks_keeps (P := fun r => r.cfg = s.cfg)
    (fun _ _ hr hc => (next_sameFixed (.inr hc)).1.trans hr) rfl h

/-! ### The states before the micro-operations (44_sequencer.md R115, R117) -/

theorem beforeMicroOp_unique {r r' : State} (h : BeforeMicroOp s k r) (h' : BeforeMicroOp s k r') :
    r = r' := by
  obtain ⟨h, -, -⟩ := h
  obtain ⟨h', -, -⟩ := h'
  rw [h] at h'
  injection h'

/-- The tick before a later micro-operation is the execute tick of the one before it: a fetch would leave the step
at 0, and every other tick leaves the engine out of Executing. -/
theorem beforeMicroOp_prev (h : BeforeMicroOp s (k + 1) m) :
    ∃ r, BeforeMicroOp s k r ∧ clock r = .next m := by
  obtain ⟨hticks, hx, hstep⟩ := h
  obtain ⟨r, hr, hc⟩ := ticks_succ_next.1 hticks
  refine ⟨r, ?_, hc⟩
  rcases clock_next hc with ⟨rfl, hcond⟩ | ⟨-, hf⟩ | ⟨op, u, w, hop, -, -, he, rfl⟩ |
    ⟨op, e, hop, -, -, hret⟩
  · obtain ⟨op, hop⟩ := hx
    rw [hop] at hcond
    rcases hcond with hcond | hcond <;> cases hcond
  · obtain ⟨-, -, -, rfl⟩ := fetch_ok hf
    cases hstep
  · have : w.currentStep + 1 = k + 1 := hstep
    exact ⟨hr, ⟨op, hop⟩, by rw [← he.currentStep_eq]; omega⟩
  · exact absurd hx (not_executing_of_idle (retireTick_idle ⟨op, hop⟩ hret))

/-- An instruction that reaches a micro-operation ran every one before it. -/
theorem beforeMicroOp_of_le (h : BeforeMicroOp s k m) (hj : j ≤ k) : ∃ r, BeforeMicroOp s j r := by
  induction hj using Nat.decreasingInduction with
  | self => exact ⟨m, h⟩
  | of_succ i _ ih =>
    obtain ⟨r, hr⟩ := ih
    obtain ⟨r', hr', -⟩ := beforeMicroOp_prev hr
    exact ⟨r', hr'⟩

/-! ### The run of one entry -/

/-- All of these states are in the entry that the fetch tick finds. -/
theorem beforeMicroOp_inEntry (hs : Idle s)
    (he : lookupEntry s.cfg.itable (s.memByte s.pc) = some e) (h : BeforeMicroOp s k m) :
    InEntry e m := by
  induction k generalizing m with
  | zero =>
    obtain ⟨hticks, -, -⟩ := h
    rw [ticks_one] at hticks
    obtain ⟨-, rfl⟩ := clock_next_of_idle hs hticks
    exact inEntry_latched hs he
  | succ k ih =>
    obtain ⟨r, hr, hc⟩ := beforeMicroOp_prev h
    obtain ⟨-, hx, -⟩ := h
    rcases (ih hr).clock_next hc with ⟨u, w, -, heff, rfl⟩ | ⟨-, hret⟩
    · exact (ih hr).of_effect heff hx
    · exact absurd hx (not_executing_of_idle (retireTick_idle (ih hr).executing hret))

/-- What stands between two of these states: one micro-operation of the entry, which takes no jump. -/
theorem beforeMicroOp_effect (hs : Idle s)
    (he : lookupEntry s.cfg.itable (s.memByte s.pc) = some e) (h : BeforeMicroOp s (k + 1) m) :
    ∃ u r w, e.microOps[k]? = some u ∧ BeforeMicroOp s k r ∧ Effect r u w ∧ m = stepped w ∧
      u.taken r = false := by
  obtain ⟨r, hr, hc⟩ := beforeMicroOp_prev h
  obtain ⟨-, hx, -⟩ := h
  have hin := beforeMicroOp_inEntry hs he hr
  rcases hin.clock_next hc with ⟨u, w, hu, heff, rfl⟩ | ⟨-, hret⟩
  · obtain ⟨-, ⟨op, hop⟩, rfl⟩ := id hr
    exact ⟨u, r, w, hu, hr, heff, rfl, Bool.eq_false_iff.2 fun htaken =>
      not_executing_of_idle (heff.idle_of_taken htaken hop) hx⟩
  · exact absurd hx (not_executing_of_idle (retireTick_idle hin.executing hret))

/-- A run goes on from an execute tick that leaves the engine Executing. -/
theorem runMicroOps_of_next_executing (us : List MicroOp) (h : runMicroOp u s = .next t)
    (hx : Executing t) : runMicroOps (u :: us) s = runMicroOps us t := by
  obtain ⟨op, hop⟩ := id hx
  obtain ⟨hfatal, -, -⟩ := (condition_executing_iff t op).1 hop
  simp [runMicroOps, h, (executing_iff_runEnds hfatal).1 hx]

/-- It ends with one that does not. -/
theorem runMicroOps_of_next_not_executing (us : List MicroOp) (h : runMicroOp u s = .next t)
    (hs : Executing s) (hx : ¬ Executing t) : runMicroOps (u :: us) s = .next t := by
  obtain ⟨op, hop⟩ := hs
  obtain ⟨hfatal, -, -⟩ := (condition_executing_iff s op).1 hop
  obtain ⟨w, heff, rfl⟩ := runMicroOp_next h
  have hends : (stepped w).runEnds = true := Bool.eq_true_of_not_eq_false
    (mt (executing_iff_runEnds (s := stepped w) (heff.fatal_eq.trans hfatal)).2 hx)
  simp only [runMicroOps, h]
  exact if_pos hends

/-- For `n` ticks the engine stays Executing, each tick an execute tick. -/
def RunsThrough (n : Nat) (s : State) : Prop :=
  ∀ k ≤ n, ∃ r, ticks k s = .next r ∧ Executing r ∧ r.currentStep = s.currentStep + k

theorem runsThrough_zero (hx : Executing s) : RunsThrough 0 s := by
  intro k hk
  obtain rfl := Nat.le_zero.1 hk
  exact ⟨s, rfl, hx, rfl⟩

theorem runsThrough_succ (hx : Executing s) (hc : clock s = .next t)
    (hstep : t.currentStep = s.currentStep + 1) (h : RunsThrough n t) : RunsThrough (n + 1) s := by
  intro k hk
  cases k with
  | zero => exact ⟨s, rfl, hx, rfl⟩
  | succ k =>
    obtain ⟨r, hr, hrx, hrs⟩ := h k (Nat.le_of_succ_le_succ hk)
    exact ⟨r, (ticks_succ_of_next hc k).trans hr, hrx, by omega⟩

/-- The run of the rest of an entry is a run of ticks to the first state out of Executing (44_sequencer.md R121). -/
theorem runMicroOps_isTicks {us : List MicroOp} (h : InEntry e s)
    (hus : e.microOps.drop s.currentStep = us) :
    ∃ n, runMicroOps us s = ticks (n + 1) s ∧
      RunsThrough n s ∧ ∀ t, runMicroOps us s = .next t → ¬ Executing t := by
  induction us generalizing s with
  | nil =>
    refine ⟨0, ?_, runsThrough_zero h.executing, fun t ht => ?_⟩
    · rw [ticks_one, h.clock_of_retire (List.drop_eq_nil_iff.1 hus)]
      rfl
    · exact not_executing_of_idle (retireTick_idle h.executing ht)
  | cons u us ih =>
    have hu : e.microOps[s.currentStep]? = some u := by
      rw [← List.head?_drop, hus, List.head?_cons]
    have htail : e.microOps.drop (s.currentStep + 1) = us := by
      rw [← List.tail_drop, hus, List.tail_cons]
    have hclock := h.clock_of_microOp hu
    cases hrun : runMicroOp u s with
    | next t =>
      obtain ⟨w, heff, rfl⟩ := runMicroOp_next hrun
      rw [hrun] at hclock
      by_cases hx : Executing (stepped w)
      · have hgo := runMicroOps_of_next_executing us hrun hx
        have hstep : (stepped w).currentStep = s.currentStep + 1 :=
          congrArg (· + 1) heff.currentStep_eq
        obtain ⟨n, hn, hthrough, hend⟩ := ih (h.of_effect heff hx) (by rwa [hstep])
        rw [hgo]
        exact ⟨n + 1, hn.trans (ticks_succ_of_next hclock _).symm,
          runsThrough_succ h.executing hclock hstep hthrough, hend⟩
      · have hstop := runMicroOps_of_next_not_executing us hrun h.executing hx
        refine ⟨0, by rw [hstop, ticks_one, hclock], runsThrough_zero h.executing, fun t ht => ?_⟩
        injection hstop.symm.trans ht with ht
        rwa [← ht]
    | fault f =>
      have hstop : runMicroOps (u :: us) s = .fault f := by simp [runMicroOps, hrun]
      refine ⟨0, by rw [hstop, ticks_one, hclock, hrun], runsThrough_zero h.executing, fun t ht => ?_⟩
      cases hstop.symm.trans ht
    | refused r => exact absurd hrun (runMicroOp_not_refused u s r)

theorem runFetched_of_error {c : FatalCause} (h : fetch s = .error c) :
    runFetched s = raiseFatal s c := by
  rw [runFetched, h]

/-- After the fetch tick the step runs the entry found, from its first micro-operation. -/
theorem runFetched_of_entry (hf : fetch s = .ok (latched s (s.memByte s.pc)))
    (he : lookupEntry s.cfg.itable (s.memByte s.pc) = some e) :
    runFetched s = runMicroOps e.microOps (latched s (s.memByte s.pc)) := by
  simp [runFetched, hf, State.currentMicroOps, latched, he]

/-- A step from Idle is a run of ticks, and every state strictly between is before a micro-operation of the
instruction (44_sequencer.md R121). -/
theorem step_isTicks (hs : Idle s) :
    ∃ n, step s = ticks (n + 1) s ∧ (∀ k < n, ∃ r, BeforeMicroOp s k r) ∧
      ∀ t, step s = .next t → ¬ Executing t := by
  rw [step_eq, if_pos hs]
  have hclock := clock_of_idle hs
  cases hf : fetch s with
  | error c =>
    rw [fetchTick_of_error hf] at hclock
    have hstop := runFetched_of_error hf
    refine ⟨0, by rw [hstop, ticks_one, hclock], by simp, fun t ht => ?_⟩
    cases hstop.symm.trans ht
  | ok r =>
    rw [fetchTick_of_ok hf] at hclock
    obtain ⟨-, -, ⟨e, he⟩, rfl⟩ := fetch_ok hf
    obtain ⟨n, hn, hthrough, hend⟩ := runMicroOps_isTicks (inEntry_latched hs he) rfl
    rw [runFetched_of_entry hf he]
    refine ⟨n + 1, hn.trans (ticks_succ_of_next hclock _).symm, fun k hk => ?_, hend⟩
    obtain ⟨r, hr, hx, hstep⟩ := hthrough k (Nat.le_of_lt_succ hk)
    exact ⟨r, (ticks_succ_of_next hclock k).trans hr, hx, hstep.trans (Nat.zero_add k)⟩

/-! ### The last tick of a step (44_sequencer.md R115 to R117) -/

/-- The step from `s` to `t` ends in the tick after the state `m`, before micro-operation `j` or, when there is no
such, before the retire tick. -/
structure LastTick (s t : State) (j : Nat) (m : State) : Prop where
  before : BeforeMicroOp s j m
  clock_eq : clock m = .next t
  not_executing : ¬ Executing t

/-- A step from Idle that completes has a last tick, which is not its fetch tick. -/
theorem exists_lastTick (hs : Idle s) (h : step s = .next t) : ∃ j m, LastTick s t j m := by
  obtain ⟨n, hn, hbetween, hend⟩ := step_isTicks hs
  have hx := hend t h
  obtain ⟨m, hm, hc⟩ := ticks_succ_next.1 (hn.symm.trans h)
  cases n with
  | zero =>
    cases hm
    obtain ⟨⟨e, he⟩, rfl⟩ := clock_next_of_idle hs hc
    exact absurd (inEntry_latched hs he).executing hx
  | succ j =>
    obtain ⟨r, hr⟩ := hbetween j (Nat.lt_succ_self j)
    obtain ⟨hticks, -, -⟩ := id hr
    cases hm.symm.trans hticks
    exact ⟨j, m, hr, hc, hx⟩

/-- The ticks of the step: the fetch tick, `j` execute ticks and the last one. -/
theorem LastTick.ticks_eq (h : LastTick s t j m) : ticks (j + 2) s = .next t := by
  obtain ⟨hticks, -, -⟩ := h.before
  exact ticks_succ_next.2 ⟨m, hticks, h.clock_eq⟩

/-- The engine passes through no state before a later micro-operation. -/
theorem LastTick.le_of_before {r : State} (h : LastTick s t j m) (hr : BeforeMicroOp s k r) :
    k ≤ j := by
  by_contra hk
  obtain ⟨r', hticks, hx, -⟩ := beforeMicroOp_of_le hr (Nat.lt_of_not_le hk)
  cases h.ticks_eq.symm.trans hticks
  exact h.not_executing hx

section Entry
variable (hs : Idle s) (he : lookupEntry s.cfg.itable (s.memByte s.pc) = some e)
include hs he

/-- Every micro-operation before the last tick runs and takes no jump. -/
theorem LastTick.earlier (h : LastTick s t j m) (hk : k < j) :
    ∃ v r, e.microOps[k]? = some v ∧ BeforeMicroOp s k r ∧ v.taken r = false := by
  obtain ⟨r, hr⟩ := beforeMicroOp_of_le h.before (Nat.succ_le_of_lt hk)
  obtain ⟨v, r', -, hv, hr', -, -, ht⟩ := beforeMicroOp_effect hs he hr
  exact ⟨v, r', hv, hr', ht⟩

/-- How a step ends: with the retire tick after all micro-operations, with a taken jump, or with Halt. -/
theorem LastTick.cases (h : LastTick s t j m) :
    (j = e.microOps.length ∧ retireTick m = .next t) ∨
      ∃ u r, e.microOps[j]? = some u ∧ Effect m u r ∧ t = stepped r ∧
        (u.taken m = true ∨ u = .halt) := by
  have hin := beforeMicroOp_inEntry hs he h.before
  obtain ⟨-, -, rfl⟩ := h.before
  rcases hin.clock_next h.clock_eq with ⟨u, r, hu, heff, rfl⟩ | ⟨hle, hret⟩
  · refine .inr ⟨u, r, hu, heff, rfl, ?_⟩
    by_contra hno
    obtain ⟨ht, hhalt⟩ := not_or.1 hno
    exact h.not_executing (heff.executing_of_not_taken hin.executing (Bool.eq_false_iff.2 ht) hhalt)
  · refine .inl ⟨hle.antisymm' ?_, hret⟩
    by_contra hlt
    obtain ⟨v, r, hv, -⟩ := h.earlier hs he (Nat.lt_of_not_le hlt)
    rw [List.getElem?_eq_none le_rfl] at hv
    cases hv

/-- A micro-operation that takes a jump is the last. -/
theorem LastTick.eq_of_taken {r : State} (h : LastTick s t j m) (hu : e.microOps[k]? = some u)
    (hr : BeforeMicroOp s k r) (ht : u.taken r = true) : k = j ∧ r = m := by
  obtain rfl : k = j := by
    refine (h.le_of_before hr).antisymm ?_
    by_contra hlt
    obtain ⟨v, r', hv, hr', ht'⟩ := h.earlier hs he (Nat.lt_of_not_le hlt)
    obtain rfl := beforeMicroOp_unique hr hr'
    cases hu.symm.trans hv
    cases ht.symm.trans ht'
  exact ⟨rfl, beforeMicroOp_unique hr h.before⟩

/-- Micro-operations that are all straight run to the retire tick. -/
theorem LastTick.retires_of_straight (h : LastTick s t j m)
    (hstraight : ∀ u ∈ e.microOps, u.isStraight = true) :
    j = e.microOps.length ∧ retireTick m = .next t := by
  refine (h.cases hs he).resolve_right ?_
  rintro ⟨u, r, hu, -, -, hlast⟩
  have hst := hstraight u (List.mem_of_getElem? hu)
  rcases hlast with ht | rfl
  · cases ht.symm.trans (MicroOp.taken_of_isStraight hst m)
  · cases hst

/-- A Jump that follows only straight micro-operations is the last to run (44_sequencer.md R116). -/
theorem LastTick.index_of_jump (h : LastTick s t j m) {pre post : List MicroOp}
    (hsplit : e.microOps = pre ++ .jump :: post) (hpre : ∀ u ∈ pre, u.isStraight = true) :
    j = pre.length := by
  have hjump : e.microOps[pre.length]? = some .jump := by simp [hsplit]
  rcases Nat.lt_trichotomy j pre.length with hlt | heq | hgt
  · have hstraight (u : MicroOp) (hu : e.microOps[j]? = some u) : u.isStraight = true := by
      rw [hsplit, List.getElem?_append_left hlt] at hu
      exact hpre u (List.mem_of_getElem? hu)
    rcases h.cases hs he with ⟨rfl, -⟩ | ⟨u, r, hu, -, -, ht | rfl⟩
    · rw [hsplit, List.length_append] at hlt
      omega
    · cases ht.symm.trans (MicroOp.taken_of_isStraight (hstraight u hu) m)
    · cases hstraight _ hu
  · exact heq
  · obtain ⟨v, r, hv, -, ht⟩ := h.earlier hs he hgt
    cases hjump.symm.trans hv
    cases ht

/-- A step that does not halt ends with the retire tick or with a taken jump. -/
theorem LastTick.cases_of_not_halted (h : LastTick s t j m) (ht : t.halted = false) :
    (j = e.microOps.length ∧ retireTick m = .next t) ∨
      ∃ u r, e.microOps[j]? = some u ∧ Effect m u r ∧ t = stepped r ∧ u.taken m = true := by
  rcases h.cases hs he with hret | ⟨u, r, hu, heff, rfl, htaken | rfl⟩
  · exact .inl hret
  · exact .inr ⟨u, r, hu, heff, rfl, htaken⟩
  · cases ht.symm.trans heff.halted_of_halt

end Entry

/-! ### The program counter along the run (44_sequencer.md R115, R116) -/

section Displacement
variable (hinv : Inv s) (hs : Idle s)
  (he : lookupEntry s.cfg.itable (s.memByte s.pc) = some e)
include hinv hs he

/-- Up to a micro-operation the program counter has moved by the steps issued before it, if none of those took a
jump or stored to the program counter. -/
theorem beforeMicroOp_pc (hno : s.cfg.noOverlap = true)
    (hstore : ∀ (k : Nat) (u : MicroOp) (r : State), e.microOps[k]? = some u →
      BeforeMicroOp s k r → u.storesRegister = true → microWrittenReg u r ≠ some s.cfg.pcId)
    (h : BeforeMicroOp s k m) : m.pc = s.pc + stepSum (e.microOps.take k) := by
  induction k generalizing m with
  | zero =>
    obtain ⟨hticks, -, -⟩ := h
    rw [ticks_one] at hticks
    obtain ⟨-, rfl⟩ := clock_next_of_idle hs hticks
    rfl
  | succ k ih =>
    obtain ⟨u, r, w, hu, hr, heff, rfl, ht⟩ := beforeMicroOp_effect hs he h
    obtain ⟨hticks, -, -⟩ := id hr
    have hcfg : r.cfg = s.cfg := ticks_cfg hticks
    have hpc := heff.pc_eq_add_stepAmount (ticks_inv hinv hticks) (by rwa [hcfg]) ht
      (by rw [hcfg]; exact hstore k u r hu hr)
    rw [stepSum_take_succ hu, ← Nat.add_assoc, ← ih hr]
    exact hpc

/-- A step that ends with the retire tick moves the program counter by 1 and the steps issued (44_sequencer.md
R115). -/
theorem LastTick.pc_of_retire (h : LastTick s t j m) (hno : s.cfg.noOverlap = true)
    (hj : j = e.microOps.length) (hret : retireTick m = .next t)
    (hstore : ∀ (k : Nat) (u : MicroOp) (r : State), e.microOps[k]? = some u →
      BeforeMicroOp s k r → u.storesRegister = true → microWrittenReg u r ≠ some s.cfg.pcId) :
    t.pc = s.pc + 1 + stepSum e.microOps ∧ Idle t := by
  obtain ⟨hticks, hx, -⟩ := h.before
  obtain ⟨-, -, -, -, -, hrf, -⟩ := ticks_inv hinv hticks
  refine ⟨?_, retireTick_idle hx hret⟩
  rw [retireTick_pc hrf.ge hret, beforeMicroOp_pc hinv hs he hno hstore h.before, hj, List.take_length]
  omega

/-- A step in which a micro-operation takes a jump leaves the program counter at the accumulator that
micro-operation had (44_sequencer.md R116). -/
theorem LastTick.of_taken (h : LastTick s t j m) (hu : e.microOps[j]? = some u)
    (ht : u.taken m = true) :
    t.pc = m.acc ∧ t.acc = m.acc ∧ Idle t ∧ t.currentStep = j + 1 := by
  obtain ⟨hticks, hx, hstep⟩ := h.before
  obtain ⟨-, -, -, -, -, hrf, -⟩ := ticks_inv hinv hticks
  rcases h.cases hs he with ⟨rfl, -⟩ | ⟨v, r, hv, heff, rfl, -⟩
  · rw [List.getElem?_eq_none le_rfl] at hu
    cases hu
  · obtain rfl := Option.some.inj (hu.symm.trans hv)
    obtain ⟨hpc, hacc, hidle⟩ := heff.stepped_of_taken hx ht hrf.ge
    exact ⟨hpc, hacc, hidle, by simp [stepped, heff.currentStep_eq, hstep]⟩

end Displacement

/-! ### The instruction at the program counter (30_encoding.md R70) -/

/-- Reading bytes is reading the first of them, then the others. -/
theorem Memory.readBytes_add (mem : Memory) (a n k : Nat) :
    Memory.readBytes mem a (n + k) = Memory.readBytes mem a n ++ Memory.readBytes mem (a + n) k := by
  induction n generalizing a with
  | zero => simp [Memory.readBytes]
  | succ n ih =>
    rw [Nat.succ_add, Memory.readBytes, ih, Memory.readBytes, List.cons_append, Nat.succ_add_eq_add_succ]

/-- No instruction is longer than three bytes (30_encoding.md R60). -/
theorem encode_length_le (i : Instr) : (encode i).length ≤ 3 := by
  cases i <;> simp [encode, MicroOp.romBytes]

/-- The bytes at the program counter begin with the instruction that stands there. -/
theorem bytesAtPc_of_bytesAt {i : Instr} (h : BytesAt i s) :
    ∃ rest, s.bytesAtPc = encode i ++ rest := by
  obtain ⟨hm, hb⟩ := h
  have hlen := encode_length_le i
  obtain ⟨k, hk⟩ := Nat.exists_eq_add_of_le
    (show (encode i).length ≤ min 3 (s.cfg.memSize - s.pc) by omega)
  exact ⟨_, by rw [State.bytesAtPc, hk, Memory.readBytes_add, hb]⟩

theorem decodeAt_of_bytesAt {i : Instr} (hi : i.isReference = true)
    (hpc : s.cfg.pcId < s.cfg.regs.length) (hb : BytesAt i s)
    (hu : s.usesReference ((encode i).headD 0) = true) : decodeAt s = some i := by
  obtain ⟨rest, hrest⟩ := bytesAtPc_of_bytesAt hb
  have hdecode := decode_encode_append hi rest
  cases henc : encode i with
  | nil => exact absurd henc (encode_ne_nil hi)
  | cons op operands =>
    rw [henc, List.cons_append] at hdecode hrest
    rw [henc, List.headD_cons] at hu
    simp [decodeAt, hrest, hpc, hu, hdecode]

theorem step_of_decodeAt {i : Instr} (hs : Idle s) (h : decodeAt s = some i) :
    step s = exec i s := by
  rw [step_eq, if_pos hs, exec_eq_runFetched h]

end

/-! ### The statements -/

/-- Settles O30: the last tick is the retire tick, where nothing before it moved the program counter but its steps,
or the execute tick of the micro-operation that takes the jump. -/
theorem programCounterDisplacement : Obligations.ProgramCounterDisplacement := by
  intro s t e hinv hno hs he h
  obtain ⟨j, m, hlast⟩ := exists_lastTick hs h
  refine ⟨fun hplain => ?_, fun ht hpremise => ?_, fun k u r hu hr ht => ?_,
    fun pre post hsplit hpre => ?_⟩
  · obtain ⟨hj, hret⟩ := hlast.retires_of_straight hs he fun u hu => (hplain u hu).1
    refine hlast.pc_of_retire hinv hs he hno hj hret fun k u r hu _ hstore => ?_
    cases (hplain u (List.mem_of_getElem? hu)).2.symm.trans hstore
  · rcases hlast.cases_of_not_halted hs he ht with ⟨hj, hret⟩ | ⟨u, r, hu, -, -, htaken⟩
    · exact hlast.pc_of_retire hinv hs he hno hj hret fun k u r hu hr => (hpremise k u r hu hr).2
    · cases (hpremise j u m hu hlast.before).1.symm.trans htaken
  · obtain ⟨rfl, rfl⟩ := hlast.eq_of_taken hs he hu hr ht
    obtain ⟨hpc, hacc, hidle, -⟩ := hlast.of_taken hinv hs he hu ht
    exact ⟨hpc, hacc, hidle⟩
  · obtain rfl := hlast.index_of_jump hs he hsplit hpre
    obtain ⟨hpc, hacc, hidle, hstep⟩ :=
      hlast.of_taken hinv hs he (u := .jump) (by simp [hsplit]) rfl
    exact ⟨hpc.trans hacc.symm, hidle, hstep⟩

/-- Settles O31: the index of the last tick is the number of micro-operations, or that of the jump taken. -/
theorem ticksPerInstruction : Obligations.TicksPerInstruction := by
  intro s t e hinv hs he h
  obtain ⟨j, m, hlast⟩ := exists_lastTick hs h
  refine ⟨fun hstraight => ?_, fun pre post hsplit hpre => ?_, fun ht => ?_⟩
  · obtain ⟨rfl, -⟩ := hlast.retires_of_straight hs he hstraight
    exact hlast.ticks_eq
  · obtain rfl := hlast.index_of_jump hs he hsplit hpre
    exact hlast.ticks_eq
  · rcases hlast.cases_of_not_halted hs he ht with ⟨rfl, hret⟩ | ⟨u, r, hu, -, -, htaken⟩
    · obtain ⟨-, hx, -⟩ := hlast.before
      refine ⟨retireTick_idle hx hret, .inl ⟨hlast.ticks_eq, fun k hk => ?_⟩⟩
      rcases hk.lt_or_eq with hlt | rfl
      · obtain ⟨v, r, hv, hr, hvt⟩ := hlast.earlier hs he hlt
        refine ⟨r, hr, fun u hu => ?_⟩
        obtain rfl := Option.some.inj (hv.symm.trans hu)
        exact hvt
      · refine ⟨m, hlast.before, fun u hu => ?_⟩
        rw [List.getElem?_eq_none le_rfl] at hu
        cases hu
    · obtain ⟨-, -, hidle, -⟩ := hlast.of_taken hinv hs he hu htaken
      exact ⟨hidle, .inr ⟨j, u, m, hu, hlast.before, htaken, hlast.ticks_eq,
        fun k hk => hlast.earlier hs he hk⟩⟩

/-- Settles O29: every state strictly between is before a micro-operation. -/
theorem stepIsARunOfTicks : Obligations.StepIsARunOfTicks := by
  intro s hs
  obtain ⟨n, hn, hbetween, hend⟩ := step_isTicks hs
  refine ⟨n, hn, fun k hk => ?_, hend⟩
  obtain ⟨r, hticks, hx, -⟩ := hbetween k hk
  exact ⟨r, hticks, hx⟩

/-- Settles O24, one case per condition. -/
theorem clockDispatch : Obligations.ClockDispatch := by
  refine fun s => ⟨fun hf => ?_, fun hf hh => ?_, fun hf hh ho => ?_, fun op e hf hh ho he => ?_,
    fun u t h => ?_⟩
  · exact ⟨(condition_fatal_iff s).2 hf, clock_of_fatal hf⟩
  · exact ⟨(condition_halted_iff s).2 ⟨hf, hh⟩, clock_of_halted hf hh⟩
  · have hs : Idle s := (condition_idle_iff s).2 ⟨hf, hh, ho⟩
    exact ⟨hs, clock_of_idle hs⟩
  · have hop := (condition_executing_iff s op).2 ⟨hf, hh, ho⟩
    refine ⟨hop, fun hlt => ?_, clock_of_retire hop he⟩
    rw [exec_toInstr]
    exact clock_of_microOp hop he (List.getElem?_eq_getElem hlt)
  · rw [exec_toInstr] at h
    obtain ⟨m, heff, rfl⟩ := runMicroOp_next h
    exact congrArg (· + 1) heff.currentStep_eq

/-- Settles O25: the three checks in their order, then the latch. The bare name is the model's function. -/
theorem Sequencer.fetchTick : Obligations.FetchTick := by
  intro s hs
  rw [clock_of_idle hs]
  exact ⟨fun hpc => faultsWith_fetchTick (fetch_unknown hpc),
    fun hpc hm => faultsWith_fetchTick (fetch_range hpc hm),
    fun hpc hm => ⟨fun he => faultsWith_fetchTick (fetch_of_no_entry hpc hm he),
      fun e he => fetchTick_of_ok (fetch_of_entry hpc hm he)⟩⟩

/-- Settles O26: the retire tick is the write of the program counter that is left once it is read. The
bare name is the model's function. -/
theorem Sequencer.retireTick : Obligations.RetireTick := by
  intro s op e hop he hn
  rw [clock_of_retire hop he hn]
  refine ⟨fun hpc => faultsWith_retireTick (bind_of_error (regRead_unknown hpc.not_gt)),
    fun hpc => ⟨fun hv => ?_, fun hv => ⟨?_, fun t => retireTick_idle ⟨op, hop⟩⟩⟩⟩
  · exact faultsWith_retireTick ((retire_eq hpc).trans (bind_of_error (regWrite_wide hpc hv.not_gt)))
  · exact retireTick_of_ok ((retire_eq hpc).trans (bind_of_ok (regWrite_ok hpc hv)))

/-- Settles O27: the halted state is stuck, and `unhalt()` gives the state that the same tick without the
suspension would leave, still in the entry. -/
theorem haltAndResume : Obligations.HaltAndResume := by
  refine ⟨fun s => rfl, fun s op e hop he hu => ?_⟩
  obtain ⟨hfatal, hhalted, ho⟩ := (condition_executing_iff s op).1 hop
  have hin : InEntry e (stepped s) := inEntry_stepped ⟨op, hop, he⟩
  have hunhalt : (stepped (s.setHalted true)).unhalt = stepped s :=
    State.ext_fields rfl rfl rfl rfl rfl rfl rfl hhalted.symm rfl
  refine ⟨stepped (s.setHalted true), clock_of_microOp hop he hu, rfl, ho, rfl,
    ticks_of_stuck (clock_of_halted hfatal rfl), hunhalt, fun u hnext => ?_, fun hlen => ?_⟩
  · rw [hunhalt, exec_toInstr]
    exact hin.clock_of_microOp hnext
  · rw [hunhalt]
    exact hin.clock_of_retire hlen.le

/-- Settles O28: the bytes at the program counter decode by the round trip of the encoding. -/
theorem stepRunsTheDecodedInstruction : Obligations.StepRunsTheDecodedInstruction := by
  refine ⟨fun s i hs hi hpc hb hu => ?_, fun s hs => ?_⟩
  · have hdecode := decodeAt_of_bytesAt hi hpc hb hu
    exact ⟨hdecode, step_of_decodeAt hs hdecode⟩
  · rw [step_eq, if_neg hs]

end Sys2Proof.Machine
end

section
/-! SUPPORT. The run of an instruction's micro-operations apart from the cursor (44_sequencer.md R113,
45_refisa_data.md R125): `microRun` speaks of the state the micro-operations work on alone, and `running` puts the
cursor of the ticks back on it. -/

namespace Sys2Proof.Machine

open Sys2Proof

section
variable {s t : State} {u : MicroOp} {us pre post : List MicroOp} {op : Byte} {n : Nat}
  {c : FatalCause}

/-! ### The cursor beside a run (44_sequencer.md R113) -/

/-- `t` in the middle of an instruction of opcode `op`, before its micro-operation `n`. -/
def running (op : Byte) (n : Nat) (t : State) : State :=
  (t.setCurrentOpcode (some op)).setCurrentStep n

@[simp] theorem running_cfg : (running op n s).cfg = s.cfg := rfl
@[simp] theorem running_acc : (running op n s).acc = s.acc := rfl
@[simp] theorem compareIsWide_running : (running op n s).compareIsWide = s.compareIsWide := rfl
@[simp] theorem setAcc_running (v : Nat) :
    (running op n s).setAcc v = running op n (s.setAcc v) := rfl
@[simp] theorem regRead_running (i : Nat) : (running op n s).regRead i = s.regRead i := rfl
@[simp] theorem memRead_running (a k : Nat) : (running op n s).memRead a k = s.memRead a k := rfl
@[simp] theorem operandByte_running (o : Byte) :
    (running op n s).operandByte o = s.operandByte o := rfl
@[simp] theorem operandRegRead_running (o : Byte) :
    (running op n s).operandRegRead o = s.operandRegRead o := rfl

@[simp] theorem regPut_running (i v : Nat) :
    (running op n s).regPut i v = running op n (s.regPut i v) := by
  unfold State.regPut
  rw [running_cfg]
  cases s.cfg.regs[i]? <;> rfl

@[simp] theorem regWrite_running (i v : Nat) :
    (running op n s).regWrite i v = running op n <$> s.regWrite i v := by
  simp only [State.regWrite, running_cfg, regPut_running]
  split_ifs <;> rfl

@[simp] theorem operandRegWrite_running (o : Byte) (v : Nat) :
    (running op n s).operandRegWrite o v = running op n <$> s.operandRegWrite o v := by
  simp [State.operandRegWrite]

@[simp] theorem memWrite_running (a k v : Nat) :
    (running op n s).memWrite a k v = running op n <$> s.memWrite a k v := by
  rcases memWrite_cases s a k v with ⟨h, hv, e⟩ | ⟨h, e⟩ | ⟨h, hv, e⟩ <;> rw [e]
  · exact memWrite_ok h hv
  · exact memWrite_range h
  · exact memWrite_wide h hv

@[simp] theorem memZero_running (a k : Nat) :
    (running op n s).memZero a k = running op n <$> s.memZero a k := by
  rcases memZero_cases s a k with ⟨h, e⟩ | ⟨h, e⟩ <;> rw [e]
  · exact memZero_ok h
  · exact memZero_range h

/-- A straight micro-operation neither reads the cursor nor writes it (44_sequencer.md R113). -/
theorem microOf_running (hu : u.isStraight = true) :
    microOf u (running op n s) = running op n <$> microOf u s := by
  cases u with
  | noOperation => rfl
  | loadImmediate o => simp [microOf, microLoadImmediate]
  | loadImmediateInternal v => rfl
  | loadFromMemory => simp [microOf, microLoadFromMemory]
  | loadFromRegister o => simp [microOf, microLoadFromRegister]
  | loadFromRegisterInternal id => simp [microOf, microLoadFromRegisterInternal]
  | setMemoryAddress => simp [microOf, microSetMemoryAddress]
  | storeToMemory => simp [microOf, microStoreToMemory]
  | storeToRegister o => simp [microOf, microStoreToRegister]
  | storeToRegisterInternal id => simp [microOf, microStoreToRegisterInternal]
  | stepProgramMemory k => simp [microOf, microStepProgramMemory]
  | add => simp [microOf, microAdd]
  | sub => simp [microOf, microSub, apply_ite]
  | pushToStack => simp [microOf, microPushToStack, apply_ite]
  | popFromStack => simp [microOf, microPopFromStack]
  | compare => cases hw : s.cfg.compareWide <;> simp [microOf, microCompare, hw, apply_ite]
  | halt => cases hu
  | jump => cases hu
  | jumpIfFlag t f => cases hu
  | jumpIfNotFlag t f => cases hu

/-! ### Runs of straight micro-operations -/

/-- Micro-operations in order, without the ticks around them. -/
def microRun : List MicroOp → State → Raise State
  | [], s => .ok s
  | u :: us, s => do
    let t ← microOf u s
    microRun us t

@[simp] theorem microRun_nil (s : State) : microRun [] s = .ok s := rfl

theorem microRun_cons (h : microOf u s = .ok t) : microRun (u :: us) s = microRun us t :=
  bind_of_ok h

theorem microRun_cons_error (h : microOf u s = .error c) : microRun (u :: us) s = .error c :=
  bind_of_error h

theorem microRun_one (u : MicroOp) (s : State) : microRun [u] s = microOf u s := by
  rw [microRun]
  cases microOf u s <;> rfl

theorem microRun_append (h : microRun pre s = .ok t) : microRun (pre ++ us) s = microRun us t := by
  induction pre generalizing s with
  | nil => cases h; rfl
  | cons u pre ih =>
    obtain ⟨m, hm, hr⟩ := bind_eq_ok.1 h
    rw [List.cons_append, microRun_cons hm, ih hr]

theorem microRun_append_error (h : microRun pre s = .error c) :
    microRun (pre ++ us) s = .error c := by
  induction pre generalizing s with
  | nil => cases h
  | cons u pre ih =>
    rcases bind_eq_error.1 h with hu | ⟨m, hm, hr⟩
    · exact microRun_cons_error hu
    · rw [List.cons_append, microRun_cons hm, ih hr]

/-- What every micro-operation keeps, a run keeps. -/
theorem microRun_keeps {P : State → Prop} (hmicro : ∀ u s t, P s → Effect s u t → P t) (hs : P s)
    (h : microRun us s = .ok t) : P t := by
  induction us generalizing s with
  | nil => cases h; exact hs
  | cons u us ih =>
    obtain ⟨m, hm, hr⟩ := bind_eq_ok.1 h
    exact ih (hmicro u s m hs (microOf_effect hm)) hr

theorem Effect.inReference (hs : InReference s) (h : Effect s u t) : InReference t := by
  obtain ⟨hc, hl, hw⟩ := hs
  exact ⟨h.cfg_eq.trans hc, h.rf_length.trans hl, h.mem_wf hw⟩

theorem microRun_inReference (hs : InReference s) (h : microRun us s = .ok t) : InReference t :=
  microRun_keeps (fun _ _ _ => Effect.inReference) hs h

theorem MicroOp.ne_halt_of_isStraight (hu : u.isStraight = true) : u ≠ .halt := by
  rintro rfl
  cases hu

theorem Effect.halted_of_isStraight (hu : u.isStraight = true) (hh : s.halted = false)
    (h : Effect s u t) : t.halted = false :=
  (h.halted_eq (MicroOp.ne_halt_of_isStraight hu)).trans hh

theorem microRun_halted (hst : ∀ u ∈ us, u.isStraight = true) (hh : s.halted = false)
    (h : microRun us s = .ok t) : t.halted = false := by
  induction us generalizing s with
  | nil => cases h; exact hh
  | cons u us ih =>
    obtain ⟨hu, hus⟩ := List.forall_mem_cons.1 hst
    obtain ⟨m, hm, hr⟩ := bind_eq_ok.1 h
    exact ih hus ((microOf_effect hm).halted_of_isStraight hu hh) hr

/-- An execute tick of a straight micro-operation hands on to the rest of the instruction. -/
theorem runMicroOps_running_cons (hu : u.isStraight = true) (hh : s.halted = false)
    (h : microOf u s = .ok t) :
    runMicroOps (u :: us) (running op n s) = runMicroOps us (running op (n + 1) t) := by
  have hm : microOf u (running op n s) = .ok (running op n t) := by
    rw [microOf_running hu, h]
    rfl
  have ht : t.halted = false := (microOf_effect h).halted_of_isStraight hu hh
  have hends : (running op n t).runEnds = false := by simp [State.runEnds, running, ht]
  exact runMicroOps_cons hm hends

/-- A run of straight micro-operations at the head of an instruction is a run of its ticks. -/
theorem runMicroOps_running_append (hst : ∀ u ∈ pre, u.isStraight = true) (hh : s.halted = false)
    (h : microRun pre s = .ok t) :
    runMicroOps (pre ++ post) (running op n s) = runMicroOps post (running op (n + pre.length) t) := by
  induction pre generalizing s n with
  | nil => cases h; rfl
  | cons u pre ih =>
    obtain ⟨hu, hpre⟩ := List.forall_mem_cons.1 hst
    obtain ⟨m, hm, hr⟩ := bind_eq_ok.1 h
    have hmh : m.halted = false := (microOf_effect hm).halted_of_isStraight hu hh
    rw [List.cons_append, runMicroOps_running_cons hu hh hm, ih hpre hmh hr, List.length_cons]
    congr 2
    omega

/-- Where the run raises, the instruction is that fatal error. -/
theorem faultsWith_runMicroOps (hst : ∀ u ∈ pre, u.isStraight = true) (hh : s.halted = false)
    (h : microRun pre s = .error c) :
    FaultsWith (runMicroOps (pre ++ post) (running op n s)) c := by
  induction pre generalizing s n with
  | nil => cases h
  | cons u pre ih =>
    obtain ⟨hu, hpre⟩ := List.forall_mem_cons.1 hst
    rw [List.cons_append]
    rcases bind_eq_error.1 h with he | ⟨m, hm, hr⟩
    · rw [runMicroOps_cons_error (by rw [microOf_running hu, he]; rfl)]
      rfl
    · have hmh : m.halted = false :=
        ((microOf_effect hm).halted_eq (MicroOp.ne_halt_of_isStraight hu)).trans hh
      rw [runMicroOps_running_cons hu hh hm]
      exact ih hpre hmh hr

end

end Sys2Proof.Machine
end

section
/-! SUPPORT. The micro-operations in the reference configuration (00_scope.md R8), where every register and every
slot is one byte: one rule for each outcome, and the states a push and a pop leave. -/

namespace Sys2Proof.Machine

open Sys2Proof

section
variable {s : State} {o id : Byte} {i v : Nat}

theorem byte_le (b : Byte) : b.toNat ≤ 255 := Nat.le_of_lt_succ b.isLt

/-! ### Registers of one byte (10_state.md R16, R17) -/

theorem reference_regs_length (hc : s.cfg = referenceConfig) : s.cfg.regs.length = 8 := by
  rw [hc]
  rfl

theorem reference_pcId_lt (hc : s.cfg = referenceConfig) : s.cfg.pcId < s.cfg.regs.length := by
  rw [hc]
  decide

theorem reference_spId_lt (hc : s.cfg = referenceConfig) : s.cfg.spId < s.cfg.regs.length := by
  rw [hc]
  decide

theorem reference_marId_lt (hc : s.cfg = referenceConfig) : s.cfg.marId < s.cfg.regs.length := by
  rw [hc]
  decide

theorem reference_pc (hc : s.cfg = referenceConfig) : s.pc = s.regVal 0 := by
  rw [State.pc, hc, referenceConfig_pcId]

theorem reference_sp (hc : s.cfg = referenceConfig) : s.sp = s.regVal 1 := by
  rw [State.sp, hc, referenceConfig_spId]

theorem reference_mar (hc : s.cfg = referenceConfig) : s.mar = s.regVal 3 := by
  rw [State.mar, hc, referenceConfig_marId]

theorem reference_mar_le (hc : s.cfg = referenceConfig) : s.mar ≤ 255 := reference_regVal_le hc _

theorem reference_regRead (hc : s.cfg = referenceConfig) (hi : i < 8) :
    s.regRead i = .ok (s.regVal i) :=
  regRead_ok (hi.trans_eq (reference_regs_length hc).symm)

theorem reference_regRead_unknown (hc : s.cfg = referenceConfig) (hi : 8 ≤ i) :
    s.regRead i = .error .unknownRegister :=
  regRead_unknown ((reference_regs_length hc).trans_le hi).not_gt

theorem reference_regWrite (hc : s.cfg = referenceConfig) (hi : i < 8) (hv : v ≤ 255) :
    s.regWrite i v = .ok (s.regPut i v) :=
  regWrite_ok (hi.trans_eq (reference_regs_length hc).symm) (by
    rw [hc, reference_regSize hi]
    omega)

theorem reference_regWrite_wide (hc : s.cfg = referenceConfig) (hi : i < 8) (hv : 255 < v) :
    s.regWrite i v = .error .valueTooWide :=
  regWrite_wide (hi.trans_eq (reference_regs_length hc).symm) (by
    rw [hc, reference_regSize hi]
    omega)

theorem reference_regWrite_unknown (hc : s.cfg = referenceConfig) (hi : 8 ≤ i) :
    s.regWrite i v = .error .unknownRegister :=
  regWrite_unknown ((reference_regs_length hc).trans_le hi).not_gt

theorem reference_noOverlap (hc : s.cfg = referenceConfig) : s.cfg.noOverlap = true := by
  rw [hc]
  exact referenceConfig_noOverlap

theorem reference_regVal_regPut_ne (hc : s.cfg = referenceConfig) {j : Nat} (h : i ≠ j) :
    (s.regPut i v).regVal j = s.regVal j :=
  regVal_regPut_ne (reference_noOverlap hc) h

/-- What a register reads after a write to one. -/
theorem reference_regVal_regPut (hs : InReference s) (hi : i < 8) (hv : v ≤ 255) (j : Nat) :
    (s.regPut i v).regVal j = if j = i then v else s.regVal j := by
  obtain ⟨hc, hl, -⟩ := hs
  split
  next h =>
    rw [h]
    refine regVal_regPut_same (hi.trans_eq (reference_regs_length hc).symm) ?_ ?_
    · rw [hc, reference_regSize hi]
      omega
    · rw [hc, hl]
      decide
  next h => exact reference_regVal_regPut_ne hc (Ne.symm h)

theorem reference_pc_regPut (hs : InReference s) (hi : i < 8) (hv : v ≤ 255) :
    (s.regPut i v).pc = if i = 0 then v else s.pc := by
  have hc : s.cfg = referenceConfig := hs.1
  rw [reference_pc (regPut_cfg s i v ▸ hc), reference_regVal_regPut hs hi hv, reference_pc hc]
  simp only [eq_comm]

theorem reference_pc_regPut_ne (hc : s.cfg = referenceConfig) (hi : i ≠ 0) :
    (s.regPut i v).pc = s.pc := by
  rw [reference_pc (regPut_cfg s i v ▸ hc), reference_regVal_regPut_ne hc hi, reference_pc hc]

theorem reference_sp_regPut_ne (hc : s.cfg = referenceConfig) (hi : i ≠ 1) :
    (s.regPut i v).sp = s.sp := by
  rw [reference_sp (regPut_cfg s i v ▸ hc), reference_regVal_regPut_ne hc hi, reference_sp hc]

theorem reference_sp_regPut (hs : InReference s) (hv : v ≤ 255) : (s.regPut 1 v).sp = v := by
  have hc : s.cfg = referenceConfig := hs.1
  rw [reference_sp (regPut_cfg s 1 v ▸ hc), reference_regVal_regPut hs (by decide) hv, if_pos rfl]

theorem reference_mar_regPut (hs : InReference s) (hv : v ≤ 255) : (s.regPut 3 v).mar = v := by
  have hc : s.cfg = referenceConfig := hs.1
  rw [reference_mar (regPut_cfg s 3 v ▸ hc), reference_regVal_regPut hs (by decide) hv, if_pos rfl]

/-- Completing an instruction overwrites what the program counter held. -/
theorem finish_regPut_pc (hc : s.cfg = referenceConfig) (n a : Nat) :
    finish (s.regPut 0 v) n a = finish s n a := by
  have hput : (s.regPut 0 v).regPut 0 a = s.regPut 0 a := by
    have h0 : 0 < 8 := by decide
    rw [reference_regPut (regPut_cfg s 0 v ▸ hc) h0, reference_regPut hc h0, reference_regPut hc h0]
    simp [State.setRf]
  rw [finish, finish, regPut_cfg, hc, referenceConfig_pcId, hput]

/-! ### What stays in the reference configuration -/

theorem InReference.setAcc (hs : InReference s) (v : Nat) : InReference (s.setAcc v) := hs

theorem InReference.regPut (hs : InReference s) (i v : Nat) : InReference (s.regPut i v) := by
  simpa [InReference] using hs

/-! ### Updates that commute -/

theorem setAcc_setAcc (s : State) (v w : Nat) : (s.setAcc v).setAcc w = s.setAcc w := rfl

theorem setAcc_regPut (s : State) (v i w : Nat) :
    (s.setAcc v).regPut i w = (s.regPut i w).setAcc v := by
  unfold State.regPut
  rw [State.setAcc_cfg]
  cases s.cfg.regs[i]? <;> rfl

@[simp] theorem pc_setAcc (s : State) (v : Nat) : (s.setAcc v).pc = s.pc := rfl
@[simp] theorem sp_setAcc (s : State) (v : Nat) : (s.setAcc v).sp = s.sp := rfl
@[simp] theorem pc_memPut (s : State) (a k v : Nat) : (s.memPut a k v).pc = s.pc := rfl
@[simp] theorem memByte_setAcc (s : State) (v a : Nat) : (s.setAcc v).memByte a = s.memByte a := rfl
@[simp] theorem memByte_regPut (s : State) (i v a : Nat) :
    (s.regPut i v).memByte a = s.memByte a := memByte_congr (regPut_mem s i v) a

/-! ### The operand byte (40_microops_move.md R76) -/

theorem reference_operandByte (hc : s.cfg = referenceConfig) (h : s.pc + o.toNat ≤ 255) :
    s.operandByte o = .ok (s.memByte (s.pc + o.toNat)).toNat :=
  operandByte_ok (reference_pcId_lt hc) (by
    rw [hc, referenceConfig_memSize]
    omega)

theorem reference_operandByte_range (hc : s.cfg = referenceConfig) (h : 255 < s.pc + o.toNat) :
    s.operandByte o = .error .memRange :=
  operandByte_range (reference_pcId_lt hc) (by
    rw [hc, referenceConfig_memSize]
    omega)

/-- Only a write of the program counter moves the operand bytes. -/
theorem operandByte_regPut (hc : s.cfg = referenceConfig) (hi : i ≠ 0) :
    (s.regPut i v).operandByte o = s.operandByte o := by
  have hc' : (s.regPut i v).cfg = referenceConfig := regPut_cfg s i v ▸ hc
  have hpc := reference_pc_regPut_ne (v := v) hc hi
  rcases Nat.lt_or_ge 255 (s.pc + o.toNat) with h | h
  · rw [reference_operandByte_range hc h, reference_operandByte_range hc' (by rwa [hpc])]
  · rw [reference_operandByte hc h, reference_operandByte hc' (by rwa [hpc]), hpc, memByte_regPut]

theorem microOf_loadImmediate_of (h : s.operandByte o = .ok v) :
    microOf (.loadImmediate o) s = .ok (s.setAcc v) :=
  bind_of_ok h

theorem reference_loadFromRegister (hc : s.cfg = referenceConfig) (h : s.operandByte o = .ok i)
    (hi : i < 8) : microOf (.loadFromRegister o) s = .ok (s.setAcc (s.regVal i)) :=
  bind_of_ok ((bind_of_ok h).trans (reference_regRead hc hi))

theorem reference_loadFromRegister_unknown (hc : s.cfg = referenceConfig)
    (h : s.operandByte o = .ok i) (hi : 8 ≤ i) :
    microOf (.loadFromRegister o) s = .error .unknownRegister :=
  bind_of_error ((bind_of_ok h).trans (reference_regRead_unknown hc hi))

/-! ### The micro-operations with no operand byte -/

theorem reference_loadFromRegisterInternal (hc : s.cfg = referenceConfig) (hi : id.toNat < 8) :
    microOf (.loadFromRegisterInternal id) s = .ok (s.setAcc (s.regVal id.toNat)) :=
  microOf_loadFromRegisterInternal (hi.trans_eq (reference_regs_length hc).symm)

theorem reference_storeToRegisterInternal (hc : s.cfg = referenceConfig) (hi : id.toNat < 8)
    (hv : s.acc ≤ 255) :
    microOf (.storeToRegisterInternal id) s = .ok (s.regPut id.toNat s.acc) :=
  reference_regWrite hc hi hv

theorem reference_setMemoryAddress_eq (hc : s.cfg = referenceConfig) :
    microOf .setMemoryAddress s = s.regWrite 3 s.acc := by
  have h : microOf .setMemoryAddress s = s.regWrite s.cfg.marId s.acc := rfl
  rw [h, hc, referenceConfig_marId]

theorem reference_setMemoryAddress (hc : s.cfg = referenceConfig) (hv : s.acc ≤ 255) :
    microOf .setMemoryAddress s = .ok (s.regPut 3 s.acc) :=
  (reference_setMemoryAddress_eq hc).trans (reference_regWrite hc (by decide) hv)

theorem reference_setMemoryAddress_wide (hc : s.cfg = referenceConfig) (hv : 255 < s.acc) :
    microOf .setMemoryAddress s = .error .valueTooWide :=
  (reference_setMemoryAddress_eq hc).trans (reference_regWrite_wide hc (by decide) hv)

theorem reference_loadFromMemory (hc : s.cfg = referenceConfig) :
    microOf .loadFromMemory s = .ok (s.setAcc (s.memByte s.mar).toNat) := by
  have hm := reference_mar_le hc
  have h := microOf_loadFromMemory (reference_marId_lt hc) (by
    rw [hc, referenceConfig_dataSize, referenceConfig_memSize]
    omega)
  rwa [hc, referenceConfig_dataSize, memVal_one] at h

theorem reference_storeToMemory (hc : s.cfg = referenceConfig) (hv : s.acc ≤ 255) :
    microOf .storeToMemory s = .ok (s.memPut s.mar 1 s.acc) := by
  have hm := reference_mar_le hc
  rw [microOf_storeToMemory (reference_marId_lt hc), hc, referenceConfig_dataSize]
  exact memWrite_ok (by rw [hc, referenceConfig_memSize]; omega) (by omega)

theorem reference_pushToStack_underflow (hc : s.cfg = referenceConfig) (hs : s.sp = 0) :
    microOf .pushToStack s = .error .subUnderflow :=
  microOf_pushToStack_underflow (reference_spId_lt hc) (by
    rw [hc, referenceConfig_dataSize]
    omega)

theorem reference_pushToStack_wide (hc : s.cfg = referenceConfig) (hs : 0 < s.sp)
    (hv : 255 < s.acc) : microOf .pushToStack s = .error .valueTooWide := by
  have hsp := reference_sp_le hc
  refine microOf_pushToStack_error (reference_spId_lt hc) ?_ ?_
  · rwa [hc, referenceConfig_dataSize]
  · rw [hc, referenceConfig_dataSize]
    exact memWrite_wide (by rw [hc, referenceConfig_memSize]; omega) (by omega)

/-- What a push leaves: the accumulator in the byte below `sp`, and `sp` there. -/
def pushed (s : State) : State := (s.memPut (s.sp - 1) 1 s.acc).regPut 1 (s.sp - 1)

theorem reference_pushToStack (hc : s.cfg = referenceConfig) (hs : 0 < s.sp) (hv : s.acc ≤ 255) :
    microOf .pushToStack s = .ok (pushed s) := by
  have hsp := reference_sp_le hc
  have h := microOf_pushToStack (s := s) (reference_spId_lt hc)
    (by rwa [hc, referenceConfig_dataSize]) (by rw [hc, referenceConfig_memSize]; omega)
    (by rw [hc, referenceConfig_dataSize]; omega)
  rwa [hc, referenceConfig_dataSize, referenceConfig_spId] at h

/-- What a pop leaves: the slot's byte in the accumulator, the slot zeroed, `sp` past it. -/
def popped (s : State) : State :=
  ((s.setAcc (s.memByte s.sp).toNat).memClear s.sp 1).regPut 1 (s.sp + 1)

theorem reference_popFromStack_eq (hc : s.cfg = referenceConfig) :
    microOf .popFromStack s =
      ((s.setAcc (s.memByte s.sp).toNat).memClear s.sp 1).regWrite 1 (s.sp + 1) := by
  have hsp := reference_sp_le hc
  have h := microOf_popFromStack_eq (s := s) (reference_spId_lt hc)
    (by rw [hc, referenceConfig_memSize, referenceConfig_dataSize]; omega)
  rwa [hc, referenceConfig_dataSize, referenceConfig_spId, memVal_one] at h

theorem reference_popFromStack_wide (hc : s.cfg = referenceConfig) (hs : s.sp = 255) :
    microOf .popFromStack s = .error .valueTooWide :=
  (reference_popFromStack_eq hc).trans (reference_regWrite_wide hc (by decide) (by omega))

theorem reference_popFromStack (hc : s.cfg = referenceConfig) (hs : s.sp < 255) :
    microOf .popFromStack s = .ok (popped s) :=
  (reference_popFromStack_eq hc).trans (reference_regWrite hc (by decide) hs)

theorem reference_readOperands {α : Type} {f : Nat → Nat → Raise α} (hc : s.cfg = referenceConfig) :
    (do let a ← s.regRead s.cfg.regAId
        let b ← s.regRead s.cfg.regBId
        f a b) = f s.regA s.regB :=
  readOperands_ok (by rw [hc]; decide) (by rw [hc]; decide)

theorem reference_add (hc : s.cfg = referenceConfig) :
    microOf .add s = .ok (s.setAcc (s.regA + s.regB)) :=
  reference_readOperands hc

theorem reference_sub_underflow (hc : s.cfg = referenceConfig) (h : s.regA < s.regB) :
    microOf .sub s = .error .subUnderflow :=
  (reference_readOperands hc).trans (if_pos h)

theorem reference_sub (hc : s.cfg = referenceConfig) (h : s.regB ≤ s.regA) :
    microOf .sub s = .ok (s.setAcc (s.regA - s.regB)) :=
  (reference_readOperands hc).trans (if_neg h.not_gt)

theorem reference_compare (hc : s.cfg = referenceConfig) :
    microOf .compare s =
      .ok (s.regPut 4 (if s.regA = s.regB then 1 else if s.regB < s.regA then 2 else 0)) := by
  have hflags : s.cfg.flagsId < s.cfg.regs.length := by rw [hc]; decide
  have hok : s.cfg.regsOk = true := by rw [hc]; decide
  have h := regWrite_flags hok hflags s.regA s.regB
  rw [microOf_compare_eq (by rw [hc]; decide) (by rw [hc]; decide) hflags,
    if_neg (by simp [reference_compareIsWide hc]), h, hc, referenceConfig_flagsId]

theorem reference_stepProgramMemory (hc : s.cfg = referenceConfig) (k : Byte) :
    microOf (.stepProgramMemory k) s = s.regWrite 0 (s.pc + k.toNat) := by
  have h := microOf_stepProgramMemory (n := k) (reference_pcId_lt hc)
  rwa [hc, referenceConfig_pcId] at h

/-! ### The states a push and a pop leave (42_microops_stack.md R101, R102) -/

theorem pushed_inReference (hs : InReference s) : InReference (pushed s) :=
  InReference.regPut (s := s.memPut (s.sp - 1) 1 s.acc)
    ⟨hs.1, hs.2.1, Memory.writeBytes_wf (s.sp - 1) _ hs.2.2⟩ 1 (s.sp - 1)

theorem pc_pushed (hc : s.cfg = referenceConfig) : (pushed s).pc = s.pc :=
  reference_pc_regPut_ne (s := s.memPut (s.sp - 1) 1 s.acc) hc (by decide)

theorem sp_pushed (hs : InReference s) : (pushed s).sp = s.sp - 1 :=
  reference_sp_regPut (s := s.memPut (s.sp - 1) 1 s.acc)
    ⟨hs.1, hs.2.1, Memory.writeBytes_wf (s.sp - 1) _ hs.2.2⟩
    ((Nat.sub_le _ _).trans (reference_sp_le hs.1))

theorem memByte_pushed (hwf : Memory.wf s.mem = true) (hv : s.acc ≤ 255) :
    ((pushed s).memByte (s.sp - 1)).toNat = s.acc := by
  rw [pushed, memByte_regPut, memByte_memPut_one hwf, BitVec.toNat_ofNat]
  exact Nat.mod_eq_of_lt (Nat.lt_succ_of_le hv)

theorem regVal_pushed (hc : s.cfg = referenceConfig) {j : Nat} (hj : j ≠ 1) :
    (pushed s).regVal j = s.regVal j :=
  reference_regVal_regPut_ne (s := s.memPut (s.sp - 1) 1 s.acc) hc hj.symm

theorem popped_inReference (hs : InReference s) : InReference (popped s) :=
  InReference.regPut (s := (s.setAcc (s.memByte s.sp).toNat).memClear s.sp 1)
    ⟨hs.1, hs.2.1, Memory.zeroBytes_wf s.sp 1 hs.2.2⟩ 1 (s.sp + 1)

theorem pc_popped (hc : s.cfg = referenceConfig) : (popped s).pc = s.pc :=
  reference_pc_regPut_ne (s := (s.setAcc (s.memByte s.sp).toNat).memClear s.sp 1) hc (by decide)

theorem memByte_popped (hwf : Memory.wf s.mem = true) (a : Nat) :
    (popped s).memByte a = if s.sp = a then 0 else s.memByte a := by
  rw [popped, memByte_regPut]
  split
  next h => exact memByte_memClear_inside hwf ⟨h.le, by omega⟩
  next h => exact memByte_memClear_outside (by omega)

theorem acc_popped (s : State) : (popped s).acc = (s.memByte s.sp).toNat := regPut_acc ..

theorem sp_popped (hs : InReference s) (hsp : s.sp < 255) : (popped s).sp = s.sp + 1 :=
  reference_sp_regPut (s := (s.setAcc (s.memByte s.sp).toNat).memClear s.sp 1)
    ⟨hs.1, hs.2.1, Memory.zeroBytes_wf s.sp 1 hs.2.2⟩ hsp

theorem regVal_popped (hc : s.cfg = referenceConfig) {j : Nat} (hj : j ≠ 1) :
    (popped s).regVal j = s.regVal j :=
  reference_regVal_regPut_ne (s := (s.setAcc (s.memByte s.sp).toNat).memClear s.sp 1) hc hj.symm

end

end Sys2Proof.Machine
end

section
/-! SUPPORT. An instruction that stands at the program counter of the reference configuration, as the run of its
micro-operations and the place it ends at (44_sequencer.md R114, R115), with NOP and HLT (45_refisa_data.md R126,
R127). -/

namespace Sys2Proof.Machine

open Sys2Proof

section
variable {s t : State} {i : Instr} {pre post : List MicroOp} {op rd k : Byte} {n p : Nat}
  {c : FatalCause} {o : Host.Outcome State Fault Refusal}

/-! ### How an instruction ends (44_sequencer.md R114, R115) -/

/-- The outcome is `t` with the program counter at `p`, or VALUE_TOO_WIDE where `p` does not fit it. -/
def EndsAt (o : Host.Outcome State Fault Refusal) (t : State) (n p : Nat) : Prop :=
  (p ≤ 255 → o = .next (finish t n p)) ∧ (255 < p → FaultsWith o .valueTooWide)

theorem not_next_of_faultsWith (h : FaultsWith o c) : o ≠ .next t := by
  rintro rfl
  cases h

/-- An instruction that completes has the state `EndsAt` names. -/
theorem EndsAt.eq_finish {r : State} (h : EndsAt o t n p) (ho : o = .next r) : r = finish t n p := by
  obtain ⟨hok, hwide⟩ := h
  rcases Nat.lt_or_ge 255 p with hp | hp
  · exact absurd ho (not_next_of_faultsWith (hwide hp))
  · injection ho.symm.trans (hok hp)

/-- The two outcomes where the program counter moves by 1: it fits below 255 only. -/
theorem EndsAt.succ_pc (h : EndsAt o t n (s.pc + 1)) :
    (s.pc + 1 ≤ 255 → o = .next (finish t n (s.pc + 1))) ∧
      (s.pc = 255 → FaultsWith o .valueTooWide) := by
  obtain ⟨hok, hwide⟩ := h
  exact ⟨hok, fun hp => hwide (by omega)⟩

/-- The retire tick steps over the opcode. -/
theorem retire_endsAt (hc : s.cfg = referenceConfig) :
    EndsAt (runMicroOps [] (running op n s)) s n (s.pc + 1) := by
  have hpc : (running op n s).cfg.pcId < (running op n s).cfg.regs.length := reference_pcId_lt hc
  have hput : (running op n s).cfg.pcId = 0 := by rw [running_cfg, hc, referenceConfig_pcId]
  refine ⟨fun hp => retireTick_of_ok ?_, fun hp => faultsWith_retireTick ?_⟩ <;>
    rw [retire_eq hpc, hput, regWrite_running]
  · have hw := reference_regWrite (i := 0) hc (by decide) hp
    refine (bind_of_ok (congrArg (running op n <$> ·) hw)).trans ?_
    rw [finish, hc]
    rfl
  · have hw := reference_regWrite_wide (i := 0) hc (by decide) hp
    exact bind_of_error (congrArg (running op n <$> ·) hw)

/-- A last StepProgramMemory and the retire tick step over the whole instruction. -/
theorem stepProgramMemory_retire_endsAt (hs : InReference s) (hh : s.halted = false) :
    EndsAt (runMicroOps [.stepProgramMemory k] (running op n s)) s (n + 1) (s.pc + k.toNat + 1) := by
  have hc : s.cfg = referenceConfig := hs.1
  rcases Nat.lt_or_ge 255 (s.pc + k.toNat) with hp | hp
  · refine ⟨fun h => by omega, fun _ => ?_⟩
    refine faultsWith_runMicroOps (pre := [.stepProgramMemory k]) (by simp [MicroOp.isStraight]) hh ?_
    exact microRun_cons_error
      ((reference_stepProgramMemory hc k).trans (reference_regWrite_wide hc (by decide) hp))
  · have hstep : microOf (.stepProgramMemory k) s = .ok (s.regPut 0 (s.pc + k.toNat)) :=
      (reference_stepProgramMemory hc k).trans (reference_regWrite hc (by decide) hp)
    rw [runMicroOps_running_cons rfl hh hstep]
    have h := retire_endsAt (op := op) (n := n + 1) (InReference.regPut hs 0 (s.pc + k.toNat)).1
    rwa [EndsAt, reference_pc_regPut hs (by decide) hp, if_pos rfl, finish_regPut_pc hc] at h

/-! ### The instruction that stands at the program counter (30_encoding.md R60, 45_refisa_data.md R125) -/

theorem stands_cfg (h : Stands i s) : s.cfg = referenceConfig := h.1.1

theorem stands_not_halted (h : Stands i s) : s.halted = false :=
  ((condition_idle_iff s).1 h.2.1).2.1

theorem exec_stands (h : Stands i s) :
    exec i s = runMicroOps (referenceMicroOps i) (running ((encode i).headD 0) 0 s) :=
  exec_decodeAt h.2.2

/-- The operand bytes of an instruction are the bytes of its encoding after the opcode. -/
theorem stands_operandByte (h : Stands i s) (o : Byte) (ho : o.toNat < (encode i).length) :
    s.operandByte o = .ok ((encode i).getD o.toNat 0).toNat := by
  obtain ⟨-, hc, -, -, -, -, -, hlen, hbytes, -⟩ := stands_facts h
  rw [reference_operandByte hc (by omega), hbytes _ ho]

/-- Straight micro-operations at the head of an instruction run before the rest of it. -/
theorem exec_of_microRun (h : Stands i s) (hus : referenceMicroOps i = pre ++ post)
    (hst : pre.all MicroOp.isStraight = true) (hr : microRun pre s = .ok t) :
    exec i s = runMicroOps post (running ((encode i).headD 0) pre.length t) := by
  have hrun := runMicroOps_running_append (post := post) (op := (encode i).headD 0) (n := 0)
    (List.all_eq_true.1 hst) (stands_not_halted h) hr
  rw [exec_stands h, hus, hrun, Nat.zero_add]

theorem exec_faultsWith (h : Stands i s) (hus : referenceMicroOps i = pre ++ post)
    (hst : pre.all MicroOp.isStraight = true) (hr : microRun pre s = .error c) :
    FaultsWith (exec i s) c := by
  rw [exec_stands h, hus]
  exact faultsWith_runMicroOps (List.all_eq_true.1 hst) (stands_not_halted h) hr

/-- An instruction of one byte ends with the retire tick alone. -/
theorem exec_endsAt (h : Stands i s) (hus : referenceMicroOps i = pre ++ [])
    (hst : pre.all MicroOp.isStraight = true) (hr : microRun pre s = .ok t) (hp : t.pc + 1 = p) :
    EndsAt (exec i s) t pre.length p := by
  obtain ⟨hc, -, -⟩ := microRun_inReference h.1 hr
  rw [exec_of_microRun h hus hst hr, ← hp]
  exact retire_endsAt hc

/-- A longer one steps over its operand bytes before. -/
theorem exec_endsAt_step (h : Stands i s) (hus : referenceMicroOps i = pre ++ [.stepProgramMemory k])
    (hst : pre.all MicroOp.isStraight = true) (hr : microRun pre s = .ok t)
    (hp : t.pc + k.toNat + 1 = p) : EndsAt (exec i s) t (pre.length + 1) p := by
  rw [exec_of_microRun h hus hst hr, ← hp]
  exact stepProgramMemory_retire_endsAt (microRun_inReference h.1 hr)
    (microRun_halted (List.all_eq_true.1 hst) (stands_not_halted h) hr)

/-- An instruction that ends in a write of a named register: an unknown one raises, and the program counter goes
on from where the write leaves it (70_reset_and_hazards.md R195). -/
theorem exec_regWrite_endsAt {r : State} {j v : Nat} (h : Stands i s)
    (hus : referenceMicroOps i = pre ++ [.stepProgramMemory k])
    (hst : pre.all MicroOp.isStraight = true) (hr : microRun pre s = r.regWrite j v)
    (hrc : InReference r) (hv : v ≤ 255) :
    (8 ≤ j → FaultsWith (exec i s) .unknownRegister) ∧
      (j < 8 → EndsAt (exec i s) (r.regPut j v) (pre.length + 1)
        ((if j = 0 then v else r.pc) + k.toNat + 1)) := by
  obtain ⟨hc, -, -⟩ := id hrc
  refine ⟨fun hj => ?_, fun hj => ?_⟩
  · exact exec_faultsWith h hus hst (hr.trans (reference_regWrite_unknown hc hj))
  · refine exec_endsAt_step h hus hst (hr.trans (reference_regWrite hc hj hv)) ?_
    rw [reference_pc_regPut hrc hj hv]

/-- The same for a register that an operand byte names. -/
theorem exec_operandRegWrite_endsAt {r : State} {v : Nat} (h : Stands i s)
    (hus : referenceMicroOps i = pre ++ [.stepProgramMemory k])
    (hst : pre.all MicroOp.isStraight = true) (hr : microRun pre s = r.regWrite rd.toNat v)
    (hrc : InReference r) (hv : v ≤ 255) :
    (8 ≤ rd.toNat → FaultsWith (exec i s) .unknownRegister) ∧
      (rd.toNat < 8 → EndsAt (exec i s) (r.regPut rd.toNat v) (pre.length + 1)
        ((if rd = 0 then v else r.pc) + k.toNat + 1)) := by
  have h0 : rd.toNat = 0 ↔ rd = 0 := by simp [← BitVec.toNat_inj]
  have hends := exec_regWrite_endsAt h hus hst hr hrc hv
  simpa only [h0] using hends

/-! ### NOP and HLT (45_refisa_data.md R126, R127) -/

theorem exec_nop (h : Stands .nop s) : EndsAt (exec .nop s) s 1 (s.pc + 1) :=
  exec_endsAt (pre := [.noOperation]) h rfl rfl rfl rfl

/-- The fetch tick of an instruction that stands at the program counter. -/
theorem clock_stands (h : Stands i s) :
    ∃ e, e.microOps = referenceMicroOps i ∧ lookupEntry s.cfg.itable (s.memByte s.pc) = some e ∧
      clock s = .next (running ((encode i).headD 0) 0 s) ∧
      InEntry e (running ((encode i).headD 0) 0 s) := by
  obtain ⟨-, hidle, hd⟩ := h
  obtain ⟨-, hpc, hm, -, hop, e, he, hu⟩ := decodeAt_some hd
  have hpos : 0 < (encode i).length := by
    cases i <;> simp [encode, MicroOp.romBytes]
  refine ⟨e, hu, he, ?_, ?_⟩
  · rw [clock_of_idle hidle, fetchTick_of_ok (fetch_of_entry hpc (by omega) he), hop]
    rfl
  · exact hop ▸ inEntry_latched hidle he

theorem step_stands (h : Stands i s) : step s = exec i s := step_of_decodeAt h.2.1 h.2.2

/-- A completed instruction of straight micro-operations takes a fetch tick, one for each of them, and a
retire tick (44_sequencer.md R117). -/
theorem ticks_of_straight (h : Stands i s)
    (hst : (referenceMicroOps i).all MicroOp.isStraight = true) (ht : exec i s = .next t) :
    ticks ((referenceMicroOps i).length + 2) s = .next t := by
  obtain ⟨e, hu, he, -, -⟩ := clock_stands h
  obtain ⟨j, m, hlast⟩ := exists_lastTick h.2.1 ((step_stands h).trans ht)
  rw [← hu] at hst ⊢
  obtain ⟨rfl, -⟩ := hlast.retires_of_straight h.2.1 he (List.all_eq_true.1 hst)
  exact hlast.ticks_eq

/-! ### The statements -/

/-- Settles O40: HLT's one micro-operation suspends it, and what is left of it is the retire tick. -/
theorem nopAndHlt : Obligations.NopAndHlt := by
  refine fun s => ⟨fun h => ?_, fun h => ?_⟩
  · obtain ⟨hok, hwide⟩ := (exec_nop h).succ_pc
    exact ⟨fun hp => ⟨hok hp, ticks_of_straight h rfl (hok hp)⟩, hwide⟩
  · obtain ⟨e, hu, -, hfetch, hin⟩ := clock_stands h
    obtain ⟨op, hop, he⟩ := id hin
    obtain ⟨-, hresume⟩ := haltAndResume
    obtain ⟨r, hhalt, -, -, -, hstuck, -, -, hretire⟩ := hresume _ op e hop he (by rw [hu]; rfl)
    have hr : r = (running 0x01 1 s).setHalted true := by
      injection hhalt.symm.trans (hin.clock_of_microOp (u := .halt) (by rw [hu]; rfl))
    have hexec : exec .hlt s = .next r :=
      (exec_stands h).trans (hr ▸ runMicroOps_cons_ends (u := .halt) rfl rfl)
    have hlast : clock r.unhalt = runMicroOps [] (running 0x01 1 s) := hretire (by rw [hu]; rfl)
    obtain ⟨hok, hwide⟩ := (retire_endsAt (op := 0x01) (n := 1) (stands_cfg h)).succ_pc
    refine ⟨r, hexec, ?_, hr, ?_, fun hp => hlast.trans (hok hp), fun hp => ?_⟩
    · rw [ticks_succ_of_next hfetch, ticks_one, hhalt]
    · exact (ticks_one _).symm.trans (hstuck 1)
    · rw [hlast]
      exact hwide hp

end

end Sys2Proof.Machine
end

section
/-! SUPPORT. What 45_refisa_data.md says of the instructions that move data, compute, and push and pop (R128 to
R144): the run of each one's micro-operations, and where that run leaves the program counter. -/

namespace Sys2Proof.Machine

open Sys2Proof

section
variable {s : State} {b rd rs : Byte} {v : Nat}

/-! ### LDI, LDR and STR (45_refisa_data.md R128 to R130) -/

theorem exec_ldi (h : Stands (.ldi b) s) :
    EndsAt (exec (.ldi b) s) (s.setAcc b.toNat) 2 (s.pc + 2) :=
  exec_endsAt_step (pre := [.loadImmediate 1]) h rfl rfl
    (microRun_cons (microOf_loadImmediate_of (stands_operandByte h 1 (by simp [encode])))) rfl

theorem exec_ldr_unknown (h : Stands (.ldr b) s) (hb : 8 ≤ b.toNat) :
    FaultsWith (exec (.ldr b) s) .unknownRegister :=
  exec_faultsWith (pre := [.loadFromRegister 1]) h rfl rfl
    (microRun_cons_error (reference_loadFromRegister_unknown (stands_cfg h)
      (stands_operandByte h 1 (by simp [encode])) hb))

theorem exec_ldr (h : Stands (.ldr b) s) (hb : b.toNat < 8) :
    EndsAt (exec (.ldr b) s) (s.setAcc (s.regVal b.toNat)) 2 (s.pc + 2) :=
  exec_endsAt_step (pre := [.loadFromRegister 1]) h rfl rfl
    (microRun_cons (reference_loadFromRegister (stands_cfg h)
      (stands_operandByte h 1 (by simp [encode])) hb)) rfl

/-- STR is the register write that is left once its operand byte is read. -/
theorem microRun_str (h : Stands (.str b) s) :
    microRun [.storeToRegister 1] s = s.regWrite b.toNat s.acc :=
  (microRun_one ..).trans (bind_of_ok (stands_operandByte h 1 (by simp [encode])))

theorem exec_str_wide (h : Stands (.str b) s) (hb : b.toNat < 8) (hv : 255 < s.acc) :
    FaultsWith (exec (.str b) s) .valueTooWide :=
  exec_faultsWith (pre := [.storeToRegister 1]) h rfl rfl
    ((microRun_str h).trans (reference_regWrite_wide (stands_cfg h) hb hv))

theorem exec_str_unknown (h : Stands (.str b) s) (hb : 8 ≤ b.toNat) :
    FaultsWith (exec (.str b) s) .unknownRegister :=
  exec_faultsWith (pre := [.storeToRegister 1]) h rfl rfl
    ((microRun_str h).trans (reference_regWrite_unknown (stands_cfg h) hb))

theorem exec_str (h : Stands (.str b) s) (hb : b.toNat < 8) (hv : s.acc ≤ 255) :
    EndsAt (exec (.str b) s) (s.regPut b.toNat s.acc) 2 ((if b = 0 then s.acc else s.pc) + 2) :=
  (exec_operandRegWrite_endsAt (pre := [.storeToRegister 1]) h rfl rfl (microRun_str h) h.1 hv).2 hb

/-! ### MVI and MOV (45_refisa_data.md R131, R132) -/

/-- A value in the accumulator goes into the register that the first operand byte names. -/
theorem storeToRegister_setAcc (ho : s.operandByte 1 = .ok rd.toNat) (v : Nat) :
    microRun [.storeToRegister 1] (s.setAcc v) = (s.setAcc v).regWrite rd.toNat v :=
  (microRun_one ..).trans (bind_of_ok ho)

theorem exec_mvi (h : Stands (.mvi rd b) s) :
    (8 ≤ rd.toNat → FaultsWith (exec (.mvi rd b) s) .unknownRegister) ∧
      (rd.toNat < 8 → EndsAt (exec (.mvi rd b) s) ((s.setAcc b.toNat).regPut rd.toNat b.toNat) 3
        ((if rd = 0 then b.toNat else s.pc) + 3)) := by
  have hrd : s.operandByte 1 = .ok rd.toNat := stands_operandByte h 1 (by simp [encode])
  have himm : s.operandByte 2 = .ok b.toNat := stands_operandByte h 2 (by simp [encode])
  exact exec_operandRegWrite_endsAt (pre := [.loadImmediate 2, .storeToRegister 1]) h rfl rfl
    ((microRun_cons (microOf_loadImmediate_of himm)).trans (storeToRegister_setAcc hrd b.toNat))
    (InReference.setAcc h.1 b.toNat) (byte_le b)

/-- A source that is not configured is found before the destination is looked at. -/
theorem exec_mov_unknown_source (h : Stands (.mov rd rs) s) (hrs : 8 ≤ rs.toNat) :
    FaultsWith (exec (.mov rd rs) s) .unknownRegister :=
  exec_faultsWith (pre := [.loadFromRegister 2]) h rfl rfl
    (microRun_cons_error (reference_loadFromRegister_unknown (stands_cfg h)
      (stands_operandByte h 2 (by simp [encode])) hrs))

theorem exec_mov (h : Stands (.mov rd rs) s) (hrs : rs.toNat < 8) (hv : v = s.regVal rs.toNat) :
    (8 ≤ rd.toNat → FaultsWith (exec (.mov rd rs) s) .unknownRegister) ∧
      (rd.toNat < 8 → EndsAt (exec (.mov rd rs) s) ((s.setAcc v).regPut rd.toNat v) 3
        ((if rd = 0 then v else s.pc) + 3)) := by
  have hrd : s.operandByte 1 = .ok rd.toNat := stands_operandByte h 1 (by simp [encode])
  have hsrc : s.operandByte 2 = .ok rs.toNat := stands_operandByte h 2 (by simp [encode])
  have hload := reference_loadFromRegister (stands_cfg h) hsrc hrs
  rw [← hv] at hload
  exact exec_operandRegWrite_endsAt (pre := [.loadFromRegister 2, .storeToRegister 1]) h rfl rfl
    ((microRun_cons hload).trans (storeToRegister_setAcc hrd v)) (InReference.setAcc h.1 v)
    (hv ▸ reference_regVal_le (stands_cfg h) _)

/-! ### LDM and LDX (45_refisa_data.md R133, R135) -/

/-- An address in the accumulator goes into `mar`. -/
theorem setMemoryAddress_setAcc {a : Nat} (hc : s.cfg = referenceConfig) (ha : a ≤ 255) :
    microOf .setMemoryAddress (s.setAcc a) = .ok ((s.regPut 3 a).setAcc a) :=
  (reference_setMemoryAddress (s := s.setAcc a) hc ha).trans
    (congrArg Except.ok (setAcc_regPut s a 3 a))

/-- With an address in the accumulator: the address into `mar`, the byte there into `acc` and into the register
that the first operand byte names. -/
theorem microRun_loadAt {a : Nat} (hs : InReference s) (ho : s.operandByte 1 = .ok rd.toNat)
    (ha : a ≤ 255) (hv : v = (s.memByte a).toNat) :
    microRun [.setMemoryAddress, .loadFromMemory, .storeToRegister 1] (s.setAcc a) =
      ((s.regPut 3 a).setAcc v).regWrite rd.toNat v := by
  have ho' : (s.regPut 3 a).operandByte 1 = .ok rd.toNat :=
    (operandByte_regPut hs.1 (by decide)).trans ho
  have hmar : ((s.regPut 3 a).setAcc a).mar = a := reference_mar_regPut hs ha
  have hload := reference_loadFromMemory (s := (s.regPut 3 a).setAcc a)
    (InReference.regPut hs 3 a).1
  rw [hmar, memByte_setAcc, memByte_regPut, ← hv, setAcc_setAcc] at hload
  rw [microRun_cons (setMemoryAddress_setAcc hs.1 ha), microRun_cons hload,
    storeToRegister_setAcc ho']

theorem exec_ldm (h : Stands (.ldm rd b) s) (hv : v = (s.memByte b.toNat).toNat) :
    (8 ≤ rd.toNat → FaultsWith (exec (.ldm rd b) s) .unknownRegister) ∧
      (rd.toNat < 8 → EndsAt (exec (.ldm rd b) s)
        (((s.regPut 3 b.toNat).setAcc v).regPut rd.toNat v) 5 ((if rd = 0 then v else s.pc) + 3)) := by
  have hrd : s.operandByte 1 = .ok rd.toNat := stands_operandByte h 1 (by simp [encode])
  have haddr : s.operandByte 2 = .ok b.toNat := stands_operandByte h 2 (by simp [encode])
  have hends := exec_operandRegWrite_endsAt
    (pre := [.loadImmediate 2, .setMemoryAddress, .loadFromMemory, .storeToRegister 1]) h rfl rfl
    ((microRun_cons (microOf_loadImmediate_of haddr)).trans
      (microRun_loadAt h.1 hrd (byte_le b) hv))
    (InReference.setAcc (InReference.regPut h.1 3 b.toNat) v) (hv ▸ byte_le _)
  rwa [pc_setAcc, reference_pc_regPut_ne (stands_cfg h) (by decide)] at hends

theorem exec_ldx_unknown_source (h : Stands (.ldx rd rs) s) (hrs : 8 ≤ rs.toNat) :
    FaultsWith (exec (.ldx rd rs) s) .unknownRegister :=
  exec_faultsWith (pre := [.loadFromRegister 2]) h rfl rfl
    (microRun_cons_error (reference_loadFromRegister_unknown (stands_cfg h)
      (stands_operandByte h 2 (by simp [encode])) hrs))

theorem exec_ldx {a : Nat} (h : Stands (.ldx rd rs) s) (hrs : rs.toNat < 8)
    (ha : a = s.regVal rs.toNat) (hv : v = (s.memByte a).toNat) :
    (8 ≤ rd.toNat → FaultsWith (exec (.ldx rd rs) s) .unknownRegister) ∧
      (rd.toNat < 8 → EndsAt (exec (.ldx rd rs) s)
        (((s.regPut 3 a).setAcc v).regPut rd.toNat v) 5 ((if rd = 0 then v else s.pc) + 3)) := by
  have hrd : s.operandByte 1 = .ok rd.toNat := stands_operandByte h 1 (by simp [encode])
  have hsrc : s.operandByte 2 = .ok rs.toNat := stands_operandByte h 2 (by simp [encode])
  have hload := reference_loadFromRegister (stands_cfg h) hsrc hrs
  rw [← ha] at hload
  have hends := exec_operandRegWrite_endsAt
    (pre := [.loadFromRegister 2, .setMemoryAddress, .loadFromMemory, .storeToRegister 1]) h rfl rfl
    ((microRun_cons hload).trans
      (microRun_loadAt h.1 hrd (ha ▸ reference_regVal_le (stands_cfg h) _) hv))
    (InReference.setAcc (InReference.regPut h.1 3 a) v) (hv ▸ byte_le _)
  rwa [pc_setAcc, reference_pc_regPut_ne (stands_cfg h) (by decide)] at hends

/-! ### STM and STX (45_refisa_data.md R134, R136) -/

theorem microRun_storeAt_unknown {a : Nat} (hs : InReference s) (ho : s.operandByte 2 = .ok rs.toNat)
    (ha : a ≤ 255) (hrs : 8 ≤ rs.toNat) :
    microRun [.setMemoryAddress, .loadFromRegister 2] (s.setAcc a) = .error .unknownRegister := by
  have ho' : (s.regPut 3 a).operandByte 2 = .ok rs.toNat :=
    (operandByte_regPut hs.1 (by decide)).trans ho
  rw [microRun_cons (setMemoryAddress_setAcc hs.1 ha)]
  exact microRun_cons_error
    (reference_loadFromRegister_unknown (InReference.regPut hs 3 a).1 ho' hrs)

/-- With an address in the accumulator: the address into `mar`, then the register that the second operand byte
names into `acc` and into the byte there. -/
theorem microRun_storeAt {a : Nat} (hs : InReference s) (ho : s.operandByte 2 = .ok rs.toNat)
    (ha : a ≤ 255) (hrs : rs.toNat < 8) (hv : v = (s.regPut 3 a).regVal rs.toNat) :
    microRun [.setMemoryAddress, .loadFromRegister 2, .storeToMemory] (s.setAcc a) =
      .ok (((s.regPut 3 a).setAcc v).memPut a 1 v) := by
  have hc : (s.regPut 3 a).cfg = referenceConfig := (InReference.regPut hs 3 a).1
  have ho' : (s.regPut 3 a).operandByte 2 = .ok rs.toNat :=
    (operandByte_regPut hs.1 (by decide)).trans ho
  have hload := reference_loadFromRegister (s := (s.regPut 3 a).setAcc a) hc ho' hrs
  rw [regVal_setAcc, ← hv, setAcc_setAcc] at hload
  have hmar : ((s.regPut 3 a).setAcc v).mar = a := reference_mar_regPut hs ha
  have hstore := reference_storeToMemory (s := (s.regPut 3 a).setAcc v) hc
    (hv ▸ reference_regVal_le hc _)
  rw [hmar] at hstore
  rw [microRun_cons (setMemoryAddress_setAcc hs.1 ha), microRun_cons hload, microRun_cons hstore]
  rfl

theorem exec_stm_unknown (h : Stands (.stm b rs) s) (hrs : 8 ≤ rs.toNat) :
    FaultsWith (exec (.stm b rs) s) .unknownRegister := by
  have haddr : s.operandByte 1 = .ok b.toNat := stands_operandByte h 1 (by simp [encode])
  have hsrc : s.operandByte 2 = .ok rs.toNat := stands_operandByte h 2 (by simp [encode])
  exact exec_faultsWith (pre := [.loadImmediate 1, .setMemoryAddress, .loadFromRegister 2]) h rfl rfl
    ((microRun_cons (microOf_loadImmediate_of haddr)).trans
      (microRun_storeAt_unknown h.1 hsrc (byte_le b) hrs))

theorem exec_stm (h : Stands (.stm b rs) s) (hrs : rs.toNat < 8)
    (hv : v = (s.regPut 3 b.toNat).regVal rs.toNat) :
    EndsAt (exec (.stm b rs) s) (((s.regPut 3 b.toNat).setAcc v).memPut b.toNat 1 v) 5 (s.pc + 3) := by
  have haddr : s.operandByte 1 = .ok b.toNat := stands_operandByte h 1 (by simp [encode])
  have hsrc : s.operandByte 2 = .ok rs.toNat := stands_operandByte h 2 (by simp [encode])
  refine exec_endsAt_step
    (pre := [.loadImmediate 1, .setMemoryAddress, .loadFromRegister 2, .storeToMemory]) h rfl rfl
    ((microRun_cons (microOf_loadImmediate_of haddr)).trans
      (microRun_storeAt h.1 hsrc (byte_le b) hrs hv)) ?_
  rw [pc_memPut, pc_setAcc, reference_pc_regPut_ne (stands_cfg h) (by decide)]
  rfl

theorem exec_stx_unknown_address (h : Stands (.stx b rs) s) (hb : 8 ≤ b.toNat) :
    FaultsWith (exec (.stx b rs) s) .unknownRegister :=
  exec_faultsWith (pre := [.loadFromRegister 1]) h rfl rfl
    (microRun_cons_error (reference_loadFromRegister_unknown (stands_cfg h)
      (stands_operandByte h 1 (by simp [encode])) hb))

theorem exec_stx_unknown_source (h : Stands (.stx b rs) s) (hb : b.toNat < 8) (hrs : 8 ≤ rs.toNat) :
    FaultsWith (exec (.stx b rs) s) .unknownRegister := by
  have haddr : s.operandByte 1 = .ok b.toNat := stands_operandByte h 1 (by simp [encode])
  have hsrc : s.operandByte 2 = .ok rs.toNat := stands_operandByte h 2 (by simp [encode])
  exact exec_faultsWith (pre := [.loadFromRegister 1, .setMemoryAddress, .loadFromRegister 2]) h rfl rfl
    ((microRun_cons (reference_loadFromRegister (stands_cfg h) haddr hb)).trans
      (microRun_storeAt_unknown h.1 hsrc (reference_regVal_le (stands_cfg h) _) hrs))

theorem exec_stx {a : Nat} (h : Stands (.stx b rs) s) (hb : b.toNat < 8) (hrs : rs.toNat < 8)
    (ha : a = s.regVal b.toNat) (hv : v = (s.regPut 3 a).regVal rs.toNat) :
    EndsAt (exec (.stx b rs) s) (((s.regPut 3 a).setAcc v).memPut a 1 v) 5 (s.pc + 3) := by
  have haddr : s.operandByte 1 = .ok b.toNat := stands_operandByte h 1 (by simp [encode])
  have hsrc : s.operandByte 2 = .ok rs.toNat := stands_operandByte h 2 (by simp [encode])
  have hload := reference_loadFromRegister (stands_cfg h) haddr hb
  rw [← ha] at hload
  refine exec_endsAt_step
    (pre := [.loadFromRegister 1, .setMemoryAddress, .loadFromRegister 2, .storeToMemory]) h rfl rfl
    ((microRun_cons hload).trans
      (microRun_storeAt h.1 hsrc (ha ▸ reference_regVal_le (stands_cfg h) _) hrs hv)) ?_
  rw [pc_memPut, pc_setAcc, reference_pc_regPut_ne (stands_cfg h) (by decide)]
  rfl

/-! ### ADD, SUB and CMP (45_refisa_data.md R137 to R139) -/

theorem exec_add (h : Stands .add s) :
    EndsAt (exec .add s) (s.setAcc (s.regA + s.regB)) 1 (s.pc + 1) :=
  exec_endsAt (pre := [.add]) h rfl rfl (microRun_cons (reference_add (stands_cfg h))) rfl

theorem exec_sub_underflow (h : Stands .sub s) (hlt : s.regA < s.regB) :
    FaultsWith (exec .sub s) .subUnderflow :=
  exec_faultsWith (pre := [.sub]) h rfl rfl
    (microRun_cons_error (reference_sub_underflow (stands_cfg h) hlt))

theorem exec_sub (h : Stands .sub s) (hle : s.regB ≤ s.regA) :
    EndsAt (exec .sub s) (s.setAcc (s.regA - s.regB)) 1 (s.pc + 1) :=
  exec_endsAt (pre := [.sub]) h rfl rfl (microRun_cons (reference_sub (stands_cfg h) hle)) rfl

theorem exec_cmp (h : Stands .cmp s) :
    EndsAt (exec .cmp s)
      (s.regPut 4 (if s.regA = s.regB then 1 else if s.regB < s.regA then 2 else 0)) 1 (s.pc + 1) :=
  exec_endsAt (pre := [.compare]) h rfl rfl (microRun_cons (reference_compare (stands_cfg h)))
    (congrArg (· + 1) (reference_pc_regPut_ne (stands_cfg h) (by decide)))

/-! ### PUSH, PSHI and PSHR (45_refisa_data.md R140 to R142) -/

theorem exec_push_underflow (h : Stands .push s) (hsp : s.sp = 0) :
    FaultsWith (exec .push s) .subUnderflow :=
  exec_faultsWith (pre := [.pushToStack]) h rfl rfl
    (microRun_cons_error (reference_pushToStack_underflow (stands_cfg h) hsp))

theorem exec_push_wide (h : Stands .push s) (hsp : 0 < s.sp) (hv : 255 < s.acc) :
    FaultsWith (exec .push s) .valueTooWide :=
  exec_faultsWith (pre := [.pushToStack]) h rfl rfl
    (microRun_cons_error (reference_pushToStack_wide (stands_cfg h) hsp hv))

theorem exec_push (h : Stands .push s) (hsp : 0 < s.sp) (hv : s.acc ≤ 255) :
    EndsAt (exec .push s) (pushed s) 1 (s.pc + 1) :=
  exec_endsAt (pre := [.pushToStack]) h rfl rfl
    (microRun_cons (reference_pushToStack (stands_cfg h) hsp hv))
    (congrArg (· + 1) (pc_pushed (stands_cfg h)))

theorem exec_pshi_underflow (h : Stands (.pshi b) s) (hsp : s.sp = 0) :
    FaultsWith (exec (.pshi b) s) .subUnderflow := by
  have himm : s.operandByte 1 = .ok b.toNat := stands_operandByte h 1 (by simp [encode])
  exact exec_faultsWith (pre := [.loadImmediate 1, .pushToStack]) h rfl rfl
    ((microRun_cons (microOf_loadImmediate_of himm)).trans
      (microRun_cons_error (reference_pushToStack_underflow (s := s.setAcc b.toNat) (stands_cfg h) hsp)))

theorem exec_pshi (h : Stands (.pshi b) s) (hsp : 0 < s.sp) :
    EndsAt (exec (.pshi b) s) (pushed (s.setAcc b.toNat)) 3 (s.pc + 2) := by
  have himm : s.operandByte 1 = .ok b.toNat := stands_operandByte h 1 (by simp [encode])
  exact exec_endsAt_step (pre := [.loadImmediate 1, .pushToStack]) h rfl rfl
    ((microRun_cons (microOf_loadImmediate_of himm)).trans (microRun_cons
      (reference_pushToStack (s := s.setAcc b.toNat) (stands_cfg h) hsp (byte_le b))))
    (congrArg (· + 2) (pc_pushed (s := s.setAcc b.toNat) (stands_cfg h)))

theorem exec_pshr_unknown (h : Stands (.pshr b) s) (hb : 8 ≤ b.toNat) :
    FaultsWith (exec (.pshr b) s) .unknownRegister :=
  exec_faultsWith (pre := [.loadFromRegister 1]) h rfl rfl
    (microRun_cons_error (reference_loadFromRegister_unknown (stands_cfg h)
      (stands_operandByte h 1 (by simp [encode])) hb))

theorem exec_pshr_underflow (h : Stands (.pshr b) s) (hb : b.toNat < 8) (hsp : s.sp = 0) :
    FaultsWith (exec (.pshr b) s) .subUnderflow := by
  have hsrc : s.operandByte 1 = .ok b.toNat := stands_operandByte h 1 (by simp [encode])
  exact exec_faultsWith (pre := [.loadFromRegister 1, .pushToStack]) h rfl rfl
    ((microRun_cons (reference_loadFromRegister (stands_cfg h) hsrc hb)).trans (microRun_cons_error
      (reference_pushToStack_underflow (s := s.setAcc (s.regVal b.toNat)) (stands_cfg h) hsp)))

theorem exec_pshr (h : Stands (.pshr b) s) (hb : b.toNat < 8) (hsp : 0 < s.sp)
    (hv : v = s.regVal b.toNat) :
    EndsAt (exec (.pshr b) s) (pushed (s.setAcc v)) 3 (s.pc + 2) := by
  have hsrc : s.operandByte 1 = .ok b.toNat := stands_operandByte h 1 (by simp [encode])
  have hload := reference_loadFromRegister (stands_cfg h) hsrc hb
  rw [← hv] at hload
  exact exec_endsAt_step (pre := [.loadFromRegister 1, .pushToStack]) h rfl rfl
    ((microRun_cons hload).trans (microRun_cons (reference_pushToStack (s := s.setAcc v)
      (stands_cfg h) hsp (hv ▸ reference_regVal_le (stands_cfg h) _))))
    (congrArg (· + 2) (pc_pushed (s := s.setAcc v) (stands_cfg h)))

/-! ### POP and POPR (45_refisa_data.md R143, R144) -/

theorem exec_pop_wide (h : Stands .pop s) (hsp : s.sp = 255) :
    FaultsWith (exec .pop s) .valueTooWide :=
  exec_faultsWith (pre := [.popFromStack]) h rfl rfl
    (microRun_cons_error (reference_popFromStack_wide (stands_cfg h) hsp))

theorem exec_pop (h : Stands .pop s) (hsp : s.sp < 255) :
    EndsAt (exec .pop s) (popped s) 1 (s.pc + 1) :=
  exec_endsAt (pre := [.popFromStack]) h rfl rfl
    (microRun_cons (reference_popFromStack (stands_cfg h) hsp))
    (congrArg (· + 1) (pc_popped (stands_cfg h)))

theorem exec_popr_wide (h : Stands (.popr rd) s) (hsp : s.sp = 255) :
    FaultsWith (exec (.popr rd) s) .valueTooWide :=
  exec_faultsWith (pre := [.popFromStack]) h rfl rfl
    (microRun_cons_error (reference_popFromStack_wide (stands_cfg h) hsp))

/-- The operand byte of POPR after the pop (20_memory.md R54). -/
theorem operandByte_popped (h : Stands (.popr rd) s) :
    (popped s).operandByte 1 = .ok (if s.sp = s.pc + 1 then 0 else rd.toNat) := by
  obtain ⟨-, hc, -, hwf, -, -, -, hlen, hbytes, -⟩ := stands_facts h
  have hpc : (popped s).pc = s.pc := pc_popped hc
  have hrd : s.memByte (s.pc + 1) = rd := hbytes 1 (by simp [encode])
  have hin : s.pc + (1 : Byte).toNat ≤ 255 := Nat.le_of_lt_succ hlen
  rw [reference_operandByte (popped_inReference h.1).1 (by rwa [hpc]), hpc]
  refine congrArg Except.ok ((congrArg BitVec.toNat (memByte_popped hwf (s.pc + 1))).trans ?_)
  rw [hrd]
  split <;> rfl

theorem exec_popr {id : Nat} (h : Stands (.popr rd) s) (hsp : s.sp < 255)
    (hid : id = if s.sp = s.pc + 1 then 0 else rd.toNat) (hv : v = (s.memByte s.sp).toNat) :
    (8 ≤ id → FaultsWith (exec (.popr rd) s) .unknownRegister) ∧
      (id < 8 → EndsAt (exec (.popr rd) s) ((popped s).regPut id v) 3
        ((if id = 0 then v else s.pc) + 2)) := by
  have hacc : (popped s).acc = v := (regPut_acc ..).trans hv.symm
  have hstore : microRun [.storeToRegister 1] (popped s) = (popped s).regWrite id v := by
    rw [microRun_one, ← hacc, hid]
    exact bind_of_ok (operandByte_popped h)
  have hends := exec_regWrite_endsAt (pre := [.popFromStack, .storeToRegister 1]) h rfl rfl
    ((microRun_cons (reference_popFromStack (stands_cfg h) hsp)).trans hstore)
    (popped_inReference h.1) (hv ▸ byte_le _)
  rwa [pc_popped (stands_cfg h)] at hends

end

/-! ### The statements -/

/-- Settles O41: STR is the register write that is left once its operand byte is read. -/
theorem ldiLdrStr : Obligations.LdiLdrStr := by
  refine fun s b => ⟨exec_ldi, fun h => ⟨exec_ldr_unknown h, fun hb => (exec_ldr h hb).1,
    fun hb => (exec_ldr h hb).2⟩, fun h => ⟨exec_str_unknown h, exec_str_wide h,
    fun hb hv p hp => ?_⟩⟩
  rw [hp]
  exact exec_str h hb hv

/-- Settles O42: a source that is not configured raises before the destination is looked at. -/
theorem mviMov : Obligations.MviMov := by
  refine fun s rd b => ⟨fun h => ⟨(exec_mvi h).1, fun hrd p hp => ?_⟩,
    fun h => ⟨fun hor => ?_, fun hrd hb v p hv hp => ?_⟩⟩
  · rw [hp]
    exact (exec_mvi h).2 hrd
  · rcases Nat.lt_or_ge b.toNat 8 with hb | hb
    · exact (exec_mov h hb rfl).1 (hor.resolve_right hb.not_ge)
    · exact exec_mov_unknown_source h hb
  · rw [hp]
    exact (exec_mov h hb hv).2 hrd

/-- Settles O43: both are the same run once the address is in the accumulator. -/
theorem ldmLdx : Obligations.LdmLdx := by
  refine fun s rd b => ⟨fun h => ⟨(exec_ldm h rfl).1, fun hrd v p hv hp => ?_⟩,
    fun h => ⟨fun hor => ?_, fun hrd hb a v p ha hv hp => ?_⟩⟩
  · rw [hp]
    exact (exec_ldm h hv).2 hrd
  · rcases Nat.lt_or_ge b.toNat 8 with hb | hb
    · exact (exec_ldx h hb rfl rfl).1 (hor.resolve_right hb.not_ge)
    · exact exec_ldx_unknown_source h hb
  · rw [hp]
    exact (exec_ldx h hb ha hv).2 hrd

/-- Settles O44: both are the same run once the address is in the accumulator. -/
theorem stmStx : Obligations.StmStx := by
  refine fun s b rs => ⟨fun h => ⟨exec_stm_unknown h, fun hrs v => exec_stm h hrs⟩,
    fun h => ⟨fun hor => ?_, fun hb hrs a v ha hv => exec_stx h hb hrs ha hv⟩⟩
  rcases Nat.lt_or_ge b.toNat 8 with hb | hb
  · exact exec_stx_unknown_source h hb (hor.resolve_left hb.not_ge)
  · exact exec_stx_unknown_address h hb

/-- Settles O45: one micro-operation and the retire tick each. -/
theorem addSubCmp : Obligations.AddSubCmp := by
  refine fun s => ⟨fun h => (exec_add h).succ_pc, fun h => ⟨exec_sub_underflow h, fun hle => ?_,
    fun hle => ?_⟩, fun h => (exec_cmp h).succ_pc⟩
  · exact (exec_sub h hle).succ_pc.1
  · exact (exec_sub h hle).succ_pc.2

/-- Settles O46: a push of what the load before it left in the accumulator. -/
theorem pushInstructions : Obligations.PushInstructions :=
  fun _ _ => ⟨fun h => ⟨exec_push_underflow h, exec_push_wide h,
      fun hsp hv => (exec_push h hsp hv).succ_pc⟩,
    fun h => ⟨exec_pshi_underflow h, exec_pshi h⟩,
    fun h => ⟨exec_pshr_unknown h, exec_pshr_underflow h, fun hb hsp _ => exec_pshr h hb hsp⟩⟩

/-- Settles O47: POPR reads its operand byte after the pop. -/
theorem popInstructions : Obligations.PopInstructions := by
  refine fun s rd => ⟨fun h => ⟨exec_pop_wide h, fun hsp => (exec_pop h hsp).succ_pc⟩,
    fun h => ⟨exec_popr_wide h, fun id v p hid hv hp hsp => ?_⟩⟩
  obtain ⟨hunknown, hends⟩ := exec_popr h hsp hid hv
  rw [← hp] at hends
  obtain rfl := hv
  exact ⟨hunknown, fun hi => (hends hi).1, fun hi => (hends hi).2⟩

end Sys2Proof.Machine
end

section
/-! SUPPORT. The context save of the call-style jumps (46_refisa_control.md R155), up to the return address it
computes: two pushes, then `pc + 2` through `reg_a` and `reg_b`, then `mar`. -/

namespace Sys2Proof.Machine

open Sys2Proof

section
variable {s : State}

/-- The micro-operations that push the base pointer and the flags. -/
def ctxPushes : List MicroOp :=
  [.loadFromRegisterInternal 2, .pushToStack, .loadFromRegisterInternal 4, .pushToStack]

/-- The micro-operations that compute the return address. -/
def ctxReturnAddress : List MicroOp :=
  [.loadFromRegisterInternal 0, .storeToRegisterInternal 5, .loadImmediateInternal 2,
    .storeToRegisterInternal 6, .add]

/-- The state after the two pushes. -/
def ctxPushed (s : State) : State :=
  pushed ((pushed (s.setAcc (s.regVal 2))).setAcc (s.regVal 4))

/-- The state after the return address is computed. -/
def ctxAddressed (s : State) : State :=
  (((ctxPushed s).regPut 5 s.pc).regPut 6 2).setAcc (s.pc + 2)

theorem microRun_pushRegister {id : Byte} {j : Nat} (hj : id.toNat = j)
    (hc : s.cfg = referenceConfig) (hi : j < 8) (hsp : 0 < s.sp) :
    microRun [.loadFromRegisterInternal id, .pushToStack] s =
      .ok (pushed (s.setAcc (s.regVal j))) := by
  subst hj
  rw [microRun_cons (reference_loadFromRegisterInternal hc hi)]
  exact microRun_cons (reference_pushToStack (s := s.setAcc (s.regVal id.toNat)) hc hsp
    (reference_regVal_le hc _))

theorem microRun_pushRegister_underflow {id : Byte} (hc : s.cfg = referenceConfig)
    (hi : id.toNat < 8) (hsp : s.sp = 0) :
    microRun [.loadFromRegisterInternal id, .pushToStack] s = .error .subUnderflow := by
  rw [microRun_cons (reference_loadFromRegisterInternal hc hi)]
  exact microRun_cons_error
    (reference_pushToStack_underflow (s := s.setAcc (s.regVal id.toNat)) hc hsp)

theorem microRun_ctxPushes (hs : InReference s) (hsp : 2 ≤ s.sp) :
    microRun ctxPushes s = .ok (ctxPushed s) := by
  have hfirst := microRun_pushRegister (id := 2) (j := 2) rfl hs.1 (by decide) (by omega)
  have hs' := pushed_inReference (InReference.setAcc hs (s.regVal 2))
  have hsp' : (pushed (s.setAcc (s.regVal 2))).sp = s.sp - 1 :=
    sp_pushed (InReference.setAcc hs (s.regVal 2))
  have hsecond := microRun_pushRegister (id := 4) (j := 4) rfl hs'.1 (by decide) (by omega)
  have hflags : (pushed (s.setAcc (s.regVal 2))).regVal 4 = s.regVal 4 :=
    regVal_pushed (s := s.setAcc (s.regVal 2)) hs.1 (by decide)
  refine (microRun_append (pre := [.loadFromRegisterInternal 2, .pushToStack]) hfirst).trans
    (hsecond.trans ?_)
  exact congrArg (fun v => Except.ok (pushed ((pushed (s.setAcc (s.regVal 2))).setAcc v))) hflags

/-- Both frame slots have to lie in memory. -/
theorem microRun_ctxPushes_underflow (hs : InReference s) (hsp : s.sp < 2) :
    microRun ctxPushes s = .error .subUnderflow := by
  rcases Nat.eq_zero_or_pos s.sp with h0 | h1
  · exact microRun_append_error (pre := [.loadFromRegisterInternal 2, .pushToStack])
      (microRun_pushRegister_underflow hs.1 (by decide) h0)
  · have hs' := pushed_inReference (InReference.setAcc hs (s.regVal 2))
    have hsp' : (pushed (s.setAcc (s.regVal 2))).sp = s.sp - 1 :=
      sp_pushed (InReference.setAcc hs (s.regVal 2))
    exact (microRun_append (pre := [.loadFromRegisterInternal 2, .pushToStack])
      (microRun_pushRegister (j := 2) rfl hs.1 (by decide) h1)).trans
      (microRun_pushRegister_underflow hs'.1 (by decide) (by omega))

theorem ctxPushed_inReference (hs : InReference s) : InReference (ctxPushed s) :=
  pushed_inReference (InReference.setAcc (pushed_inReference (InReference.setAcc hs _)) _)

theorem sp_ctxPushed (hs : InReference s) :
    (ctxPushed s).sp = (pushed (s.setAcc (s.regVal 2))).sp - 1 :=
  sp_pushed (s := (pushed (s.setAcc (s.regVal 2))).setAcc (s.regVal 4))
    (pushed_inReference (InReference.setAcc hs (s.regVal 2)))

/-- The flags stand in the slot pushed last. -/
theorem memByte_ctxPushed (hs : InReference s) :
    ((ctxPushed s).memByte (ctxPushed s).sp).toNat = s.regVal 4 := by
  obtain ⟨-, -, hwf⟩ := pushed_inReference (InReference.setAcc hs (s.regVal 2))
  rw [sp_ctxPushed hs]
  exact memByte_pushed (s := (pushed (s.setAcc (s.regVal 2))).setAcc (s.regVal 4)) hwf
    (reference_regVal_le hs.1 4)

theorem pc_ctxPushed (hs : InReference s) : (ctxPushed s).pc = s.pc := by
  have hs' := pushed_inReference (InReference.setAcc hs (s.regVal 2))
  exact (pc_pushed (s := (pushed (s.setAcc (s.regVal 2))).setAcc (s.regVal 4)) hs'.1).trans
    (pc_pushed (s := s.setAcc (s.regVal 2)) hs.1)

/-- The return address is the sum of the program counter, in `reg_a`, and 2, in `reg_b`. -/
theorem microRun_ctxReturnAddress (hs : InReference s) :
    microRun ctxReturnAddress s =
      .ok (((s.regPut 5 s.pc).regPut 6 2).setAcc (s.pc + 2)) := by
  have hpc := reference_pc_le hs.1
  have h5 := InReference.regPut hs 5 s.pc
  have h6 := InReference.regPut h5 6 2
  have ha : ((s.regPut 5 s.pc).regPut 6 2).regA = s.pc := by
    rw [State.regA, h6.1, referenceConfig_regAId, reference_regVal_regPut_ne h5.1 (by decide),
      reference_regVal_regPut hs (by decide) hpc, if_pos rfl]
  have hb : ((s.regPut 5 s.pc).regPut 6 2).regB = 2 := by
    rw [State.regB, h6.1, referenceConfig_regBId, reference_regVal_regPut h5 (by decide) (by decide),
      if_pos rfl]
  have hload : microOf (.loadFromRegisterInternal 0) s = .ok (s.setAcc s.pc) := by
    rw [reference_pc hs.1]
    exact reference_loadFromRegisterInternal hs.1 (by decide)
  have hstore : microOf (.storeToRegisterInternal 5) (s.setAcc s.pc) =
      .ok ((s.regPut 5 s.pc).setAcc s.pc) :=
    (reference_storeToRegisterInternal (s := s.setAcc s.pc) hs.1 (by decide) hpc).trans
      (congrArg Except.ok (setAcc_regPut s s.pc 5 s.pc))
  have hliteral : microOf (.loadImmediateInternal 2) ((s.regPut 5 s.pc).setAcc s.pc) =
      .ok ((s.regPut 5 s.pc).setAcc 2) := rfl
  have hstore' : microOf (.storeToRegisterInternal 6) ((s.regPut 5 s.pc).setAcc 2) =
      .ok (((s.regPut 5 s.pc).regPut 6 2).setAcc 2) :=
    (reference_storeToRegisterInternal (s := (s.regPut 5 s.pc).setAcc 2) h5.1 (by decide)
      (show 2 ≤ 255 by decide)).trans (congrArg Except.ok (setAcc_regPut (s.regPut 5 s.pc) 2 6 2))
  have hadd : microOf .add (((s.regPut 5 s.pc).regPut 6 2).setAcc 2) =
      .ok (((s.regPut 5 s.pc).regPut 6 2).setAcc (s.pc + 2)) := by
    refine (reference_add (s := ((s.regPut 5 s.pc).regPut 6 2).setAcc 2) h6.1).trans ?_
    refine congrArg (fun v => Except.ok (((s.regPut 5 s.pc).regPut 6 2).setAcc v)) ?_
    exact congrArg₂ (· + ·) ha hb
  rw [ctxReturnAddress, microRun_cons hload, microRun_cons hstore, microRun_cons hliteral,
    microRun_cons hstore', microRun_cons hadd, microRun_nil]

theorem microRun_ctxAddressed (hs : InReference s) (hsp : 2 ≤ s.sp) :
    microRun (ctxPushes ++ ctxReturnAddress) s = .ok (ctxAddressed s) := by
  rw [microRun_append (microRun_ctxPushes hs hsp),
    microRun_ctxReturnAddress (ctxPushed_inReference hs), pc_ctxPushed hs, ctxAddressed]

theorem ctxAddressed_inReference (hs : InReference s) : InReference (ctxAddressed s) :=
  InReference.setAcc (InReference.regPut (InReference.regPut (ctxPushed_inReference hs) _ _) _ _) _

/-- The state after the return address is in `mar`, with the flags still on the stack. -/
def ctxSaved (s : State) : State := (ctxAddressed s).regPut 3 (s.pc + 2)

theorem microRun_ctxSaved (hs : InReference s) (hsp : 2 ≤ s.sp) (hpc : s.pc + 2 ≤ 255) :
    microRun (ctxPushes ++ ctxReturnAddress ++ [.setMemoryAddress]) s = .ok (ctxSaved s) := by
  rw [microRun_append (microRun_ctxAddressed hs hsp)]
  exact microRun_cons
    (reference_setMemoryAddress (s := ctxAddressed s) (ctxAddressed_inReference hs).1 hpc)

/-- The return address has to fit `mar`. -/
theorem microRun_ctx_wide (hs : InReference s) (hsp : 2 ≤ s.sp) (hpc : 255 < s.pc + 2) :
    microRun (ctxPushes ++ ctxReturnAddress ++ [.setMemoryAddress]) s = .error .valueTooWide := by
  rw [microRun_append (microRun_ctxAddressed hs hsp)]
  exact microRun_cons_error
    (reference_setMemoryAddress_wide (s := ctxAddressed s) (ctxAddressed_inReference hs).1 hpc)

theorem ctxSaved_inReference (hs : InReference s) : InReference (ctxSaved s) :=
  InReference.regPut (ctxAddressed_inReference hs) 3 (s.pc + 2)

theorem sp_ctxSaved (hs : InReference s) : (ctxSaved s).sp = (ctxPushed s).sp := by
  have h := ctxPushed_inReference hs
  rw [ctxSaved, reference_sp_regPut_ne (ctxAddressed_inReference hs).1 (by decide), ctxAddressed,
    sp_setAcc, reference_sp_regPut_ne (InReference.regPut h _ _).1 (by decide),
    reference_sp_regPut_ne h.1 (by decide)]

/-- The pop takes the flags off the stack as they were pushed, and they go back into `flags`. -/
theorem microRun_restoreFlags (hs : InReference s) (hsp : 2 ≤ s.sp) (hpc : s.pc + 2 ≤ 255) :
    microRun (ctxPushes ++ ctxReturnAddress ++ [.setMemoryAddress] ++
      [.popFromStack, .storeToRegisterInternal 4]) s =
      .ok ((popped (ctxSaved s)).regPut 4 (s.regVal 4)) := by
  have hm := ctxSaved_inReference hs
  have hslot : (ctxSaved s).memByte (ctxSaved s).sp = (ctxPushed s).memByte (ctxPushed s).sp := by
    rw [sp_ctxSaved hs, ctxSaved, memByte_regPut, ctxAddressed, memByte_setAcc, memByte_regPut,
      memByte_regPut]
  have hacc : (popped (ctxSaved s)).acc = s.regVal 4 := by
    rw [acc_popped, hslot, memByte_ctxPushed hs]
  have hlt : (ctxSaved s).sp < 255 := by
    have hle := reference_sp_le hs.1
    rw [sp_ctxSaved hs, sp_ctxPushed hs, sp_pushed (InReference.setAcc hs _), sp_setAcc]
    omega
  rw [microRun_append (microRun_ctxSaved hs hsp hpc), microRun_cons (reference_popFromStack hm.1 hlt),
    ← hacc]
  exact microRun_cons (reference_storeToRegisterInternal (popped_inReference hm).1 (by decide)
    (hacc ▸ reference_regVal_le hs.1 4))

end

end Sys2Proof.Machine
end

section
/-! SUPPORT. The frames of the thirty instructions (45_refisa_data.md R125, 70_reset_and_hazards.md R199,
20_memory.md R47). Where every register an instruction writes is named by its micro-operations alone, and every slot
it stores to lies at a known distance from `sp`, the frame is read off the micro-operation list; else it is read off
the state the instruction's own rule gives. -/

namespace Sys2Proof.Machine

open Sys2Proof

section
variable {s t : State} {i : Instr} {u : MicroOp} {us : List MicroOp} {b rd rs ra : Byte}
  {n p a x j v : Nat} {c : FatalCause} {o : Host.Outcome State Fault Refusal}

/-! ### What the micro-operations of one instruction keep -/

/-- How a run that completes goes on after its first micro-operation. -/
theorem runMicroOps_cons_next (h : runMicroOps (u :: us) s = .next t) :
    ∃ w, Effect s u w ∧ (t = stepped w ∨ runMicroOps us (stepped w) = .next t) := by
  rw [runMicroOps] at h
  cases hrun : runMicroOp u s with
  | next m =>
    obtain ⟨w, he, rfl⟩ := runMicroOp_next hrun
    simp only [hrun] at h
    refine ⟨w, he, ?_⟩
    split at h
    · injection h with h
      exact .inl h.symm
    · exact .inr h
  | fault f => rw [hrun] at h; cases h
  | refused r => rw [hrun] at h; cases h

/-- What every micro-operation of the list and the retire tick keep, the run of the list keeps. -/
theorem runMicroOps_keeps_of_mem {P : State → Prop}
    (hmicro : ∀ u ∈ us, ∀ m w, P m → Effect m u w → P (stepped w))
    (hretire : ∀ m, P m → P ((m.regPut m.cfg.pcId (m.pc + 1)).setCurrentOpcode none))
    (hs : P s) (h : runMicroOps us s = .next t) : P t := by
  induction us generalizing s with
  | nil =>
    obtain ⟨-, -, rfl⟩ := retireTick_next h
    exact hretire s hs
  | cons u us ih =>
    obtain ⟨hu, hus⟩ := List.forall_mem_cons.1 hmicro
    obtain ⟨w, he, rfl | hrest⟩ := runMicroOps_cons_next h
    · exact hu s w hs he
    · exact ih hus (hu s w hs he) hrest

theorem stands_keeps {P : State → Prop} (h : Stands i s)
    (hmicro : ∀ u ∈ referenceMicroOps i, ∀ m w, P m → Effect m u w → P (stepped w))
    (hretire : ∀ m, P m → P ((m.regPut m.cfg.pcId (m.pc + 1)).setCurrentOpcode none))
    (hs : P (running ((encode i).headD 0) 0 s)) (ht : exec i s = .next t) : P t :=
  runMicroOps_keeps_of_mem hmicro hretire hs ((exec_stands h).symm.trans ht)

/-! ### Configuration, storage, latch and cursor -/

theorem stands_fatal (h : Stands i s) (ht : exec i s = .next t) : t.fatal = none :=
  stands_keeps (P := fun m => m.fatal = none) h (fun _ _ _ _ hm he => he.fatal_eq.trans hm)
    (fun m hm => (regPut_fatal m _ _).trans hm) ((condition_idle_iff s).1 h.2.1).1 ht

/-- Of the thirty instructions only HLT has a Halt. -/
theorem halt_not_mem_referenceMicroOps (hi : i.isReference = true) (hne : i ≠ .hlt) :
    (referenceMicroOps i).all (· != .halt) = true := by
  cases i
  case hlt => exact absurd rfl hne
  all_goals cases hi <;> rfl

theorem stands_ends_idle (hi : i.isReference = true) (h : Stands i s) (ht : exec i s = .next t)
    (hne : i ≠ .hlt) : t.halted = false ∧ t.currentOpcode = none := by
  have hmem := List.all_eq_true.1 (halt_not_mem_referenceMicroOps hi hne)
  have hhalted : t.halted = false :=
    stands_keeps (P := fun m => m.halted = false) h
      (fun u hu _ _ hm he => (he.halted_eq (by simpa using hmem u hu)).trans hm)
      (fun m hm => (regPut_halted m _ _).trans hm) (show s.halted = false from stands_not_halted h) ht
  obtain ⟨j, m, hlast⟩ := exists_lastTick h.2.1 ((step_stands h).trans ht)
  have hends := mt (executing_iff_runEnds (stands_fatal h ht)).2 hlast.not_executing
  exact ⟨hhalted, by simpa [State.runEnds, hhalted] using hends⟩

/-! ### The accumulator -/

theorem stands_acc (h : Stands i s) (ht : exec i s = .next t) (hk : keepsAcc i = true) :
    t.acc = s.acc := by
  have hsets : (referenceMicroOps i).all (fun u => !u.setsAcc) = true := by
    cases i <;> cases hk <;> rfl
  refine stands_keeps (P := fun m => m.acc = s.acc) h (fun u hu _ _ hm he => ?_)
    (fun m hm => (regPut_acc m _ _).trans hm) rfl ht
  exact (he.acc_eq (by simpa using List.all_eq_true.1 hsets u hu)).trans hm

/-! ### Registers that the micro-operations name -/

/-- The register a micro-operation writes is named by the micro-operation alone, and is one of `regs`, in the
reference configuration. -/
def namesOneOf (regs : List Nat) (u : MicroOp) : Bool :=
  match u with
  | .storeToRegister _ => false
  | _ => (microWrittenReg u State.reset).all regs.contains

theorem microWrittenReg_of_namesOneOf {regs : List Nat} (hc : s.cfg = referenceConfig)
    (hu : namesOneOf regs u = true) (hx : microWrittenReg u s = some x) : x ∈ regs := by
  have hreset : microWrittenReg u State.reset = some x := by
    rw [← hx]
    cases u
    case storeToRegister => cases hu
    all_goals simp [microWrittenReg, hc, State.reset]
  have hall : (microWrittenReg u State.reset).all regs.contains = true := by
    cases u
    case storeToRegister => cases hu
    all_goals exact hu
  simpa [hreset] using hall

/-- Every instruction may write the program counter. -/
theorem zero_mem_writtenRegs (i : Instr) : 0 ∈ writtenRegs i := by
  cases i <;> exact List.mem_cons_self

/-- Micro-operations that name the registers they write keep every other one. -/
theorem runMicroOps_regVal_of_named {regs : List Nat} {op : Byte} (hc : s.cfg = referenceConfig)
    (hnames : us.all (namesOneOf regs) = true) (h0 : 0 ∈ regs) (hx : x ∉ regs)
    (h : runMicroOps us (running op n s) = .next t) : t.regVal x = s.regVal x := by
  have hkeep := runMicroOps_keeps_of_mem (s := running op n s) (t := t)
    (P := fun m => m.cfg = referenceConfig ∧ m.regVal x = s.regVal x) ?_ ?_ ⟨hc, rfl⟩ h
  · exact hkeep.2
  · rintro u hu m w ⟨hmc, hm⟩ he
    refine ⟨he.cfg_eq.trans hmc, (he.regVal_eq (reference_noOverlap hmc) fun hw => hx ?_).trans hm⟩
    exact microWrittenReg_of_namesOneOf hmc (List.all_eq_true.1 hnames u hu) hw
  · rintro m ⟨hmc, hm⟩
    refine ⟨(regPut_cfg ..).trans hmc, (reference_regVal_regPut_ne hmc ?_).trans hm⟩
    rw [hmc]
    rintro rfl
    exact hx h0

theorem stands_regVal_of_named {regs : List Nat} (h : Stands i s) (ht : exec i s = .next t)
    (hnames : (referenceMicroOps i).all (namesOneOf regs) = true) (h0 : 0 ∈ regs) (hx : x ∉ regs) :
    t.regVal x = s.regVal x :=
  runMicroOps_regVal_of_named (stands_cfg h) hnames h0 hx ((exec_stands h).symm.trans ht)

/-! ### CALL gives the flags back (46_refisa_control.md R155) -/

theorem call_flags (h : Stands (.call b) s) (ht : exec (.call b) s = .next t) :
    t.regVal 4 = s.regVal 4 := by
  rcases Nat.lt_or_ge s.sp 2 with hsp | hsp
  · exact absurd ht (not_next_of_faultsWith (exec_faultsWith (pre := ctxPushes) h rfl rfl
      (microRun_ctxPushes_underflow h.1 hsp)))
  rcases Nat.lt_or_ge 255 (s.pc + 2) with hpc | hpc
  · exact absurd ht (not_next_of_faultsWith (exec_faultsWith
      (pre := ctxPushes ++ ctxReturnAddress ++ [.setMemoryAddress]) h rfl rfl
      (microRun_ctx_wide h.1 hsp hpc)))
  have hm := microRun_restoreFlags h.1 hsp hpc
  have hrest := (exec_of_microRun h (post := [.loadFromRegisterInternal 3, .pushToStack,
    .loadImmediate 1, .jump]) rfl rfl hm).symm.trans ht
  calc t.regVal 4 = ((popped (ctxSaved s)).regPut 4 (s.regVal 4)).regVal 4 :=
        runMicroOps_regVal_of_named (regs := [0, 1]) (microRun_inReference h.1 hm).1 rfl
          (by decide) (by decide) hrest
    _ = s.regVal 4 := by
        rw [reference_regVal_regPut (popped_inReference (ctxSaved_inReference h.1)) (by decide)
          (reference_regVal_le (stands_cfg h) 4), if_pos rfl]

/-! ### The instructions that write a register their operand names -/

theorem regVal_finish (hc : s.cfg = referenceConfig) (hx : x ≠ 0) :
    (finish s n p).regVal x = s.regVal x := by
  rw [finish, hc, referenceConfig_pcId]
  exact reference_regVal_regPut_ne hc hx.symm

@[simp] theorem memByte_finish : (finish s n p).memByte a = s.memByte a := memByte_regPut ..

/-- The state of a completed instruction whose one other outcome is an unknown register. -/
theorem eq_finish_of_endsAt {r : State}
    (h : (8 ≤ j → FaultsWith o c) ∧ (j < 8 → EndsAt o r n p)) (ho : o = .next t) :
    t = finish r n p := by
  obtain ⟨hunknown, hends⟩ := h
  rcases Nat.lt_or_ge j 8 with hj | hj
  · exact (hends hj).eq_finish ho
  · exact absurd ho (not_next_of_faultsWith (hunknown hj))

theorem exec_str_next (h : Stands (.str rd) s) (ht : exec (.str rd) s = .next t) :
    ∃ p, t = finish (s.regPut rd.toNat s.acc) 2 p := by
  rcases Nat.lt_or_ge 255 s.acc with hv | hv
  · exact ⟨0, eq_finish_of_endsAt (j := rd.toNat) ⟨exec_str_unknown h, fun hrd =>
      absurd ht (not_next_of_faultsWith (exec_str_wide h hrd hv))⟩ ht⟩
  · exact ⟨_, eq_finish_of_endsAt ⟨exec_str_unknown h, fun hrd => exec_str h hrd hv⟩ ht⟩

theorem exec_mov_next (h : Stands (.mov rd rs) s) (ht : exec (.mov rd rs) s = .next t) :
    ∃ v p, t = finish ((s.setAcc v).regPut rd.toNat v) 3 p := by
  rcases Nat.lt_or_ge rs.toNat 8 with hrs | hrs
  · exact ⟨_, _, eq_finish_of_endsAt (exec_mov h hrs rfl) ht⟩
  · exact absurd ht (not_next_of_faultsWith (exec_mov_unknown_source h hrs))

theorem exec_ldx_next (h : Stands (.ldx rd ra) s) (ht : exec (.ldx rd ra) s = .next t) :
    ∃ a v p, t = finish (((s.regPut 3 a).setAcc v).regPut rd.toNat v) 5 p := by
  rcases Nat.lt_or_ge ra.toNat 8 with hra | hra
  · exact ⟨_, _, _, eq_finish_of_endsAt (exec_ldx h hra rfl rfl) ht⟩
  · exact absurd ht (not_next_of_faultsWith (exec_ldx_unknown_source h hra))

theorem exec_stm_next (h : Stands (.stm b rs) s) (ht : exec (.stm b rs) s = .next t) :
    ∃ v p, t = finish (((s.regPut 3 b.toNat).setAcc v).memPut b.toNat 1 v) 5 p :=
  ⟨_, _, eq_finish_of_endsAt ⟨exec_stm_unknown h, fun hrs => exec_stm h hrs rfl⟩ ht⟩

theorem exec_stx_next (h : Stands (.stx ra rs) s) (ht : exec (.stx ra rs) s = .next t) :
    ∃ v p, t = finish (((s.regPut 3 (s.regVal ra.toNat)).setAcc v).memPut (s.regVal ra.toNat) 1 v)
      5 p := by
  rcases Nat.lt_or_ge ra.toNat 8 with hra | hra
  · exact ⟨_, _, eq_finish_of_endsAt ⟨exec_stx_unknown_source h hra,
      fun hrs => exec_stx h hra hrs rfl rfl⟩ ht⟩
  · exact absurd ht (not_next_of_faultsWith (exec_stx_unknown_address h hra))

theorem exec_popr_next (h : Stands (.popr rd) s) (ht : exec (.popr rd) s = .next t) :
    ∃ id v p, (id = 0 ∨ id = rd.toNat) ∧ t = finish ((popped s).regPut id v) 3 p := by
  rcases (reference_sp_le (stands_cfg h)).lt_or_eq with hsp | hsp
  · refine ⟨_, _, _, ?_, eq_finish_of_endsAt (exec_popr h hsp rfl rfl) ht⟩
    split
    · exact .inl rfl
    · exact .inr rfl
  · exact absurd ht (not_next_of_faultsWith (exec_popr_wide h hsp))

theorem regVal_finish_regPut (hc : s.cfg = referenceConfig) (hx : x ∉ [0, j]) :
    (finish (s.regPut j v) n p).regVal x = s.regVal x := by
  obtain ⟨hx0, hxj⟩ : x ≠ 0 ∧ x ≠ j := by simpa using hx
  exact (regVal_finish ((regPut_cfg ..).trans hc) hx0).trans (reference_regVal_regPut_ne hc hxj.symm)

theorem regVal_finish_loadAt (hs : InReference s) (hx : x ∉ [0, 3, j]) :
    (finish (((s.regPut 3 a).setAcc v).regPut j v) n p).regVal x = s.regVal x := by
  obtain ⟨hx0, hx3, hxj⟩ : x ≠ 0 ∧ x ≠ 3 ∧ x ≠ j := by simpa using hx
  calc (finish (((s.regPut 3 a).setAcc v).regPut j v) n p).regVal x
      = ((s.regPut 3 a).setAcc v).regVal x :=
        regVal_finish_regPut (InReference.regPut hs 3 a).1 (by simp [hx0, hxj])
    _ = (s.regPut 3 a).regVal x := regVal_setAcc ..
    _ = s.regVal x := reference_regVal_regPut_ne hs.1 hx3.symm

theorem regVal_finish_popped (hs : InReference s) (hx : x ∉ [0, 1, j]) {id : Nat}
    (hid : id = 0 ∨ id = j) :
    (finish ((popped s).regPut id v) n p).regVal x = s.regVal x := by
  obtain ⟨hx0, hx1, hxj⟩ : x ≠ 0 ∧ x ≠ 1 ∧ x ≠ j := by simpa using hx
  have hxid : x ≠ id := by
    rcases hid with rfl | rfl
    · exact hx0
    · exact hxj
  calc (finish ((popped s).regPut id v) n p).regVal x
      = (popped s).regVal x :=
        regVal_finish_regPut (popped_inReference hs).1 (by simp [hx0, hxid])
    _ = s.regVal x := regVal_popped hs.1 hx1

/-- Every register but those an instruction writes keeps its value. -/
theorem stands_regVal (hi : i.isReference = true) (h : Stands i s) (ht : exec i s = .next t)
    (hx : x ∉ writtenRegs i) : t.regVal x = s.regVal x := by
  have hc := stands_cfg h
  cases i
  case str rd =>
    obtain ⟨p, rfl⟩ := exec_str_next h ht
    exact regVal_finish_regPut hc hx
  case mvi rd b =>
    obtain rfl := eq_finish_of_endsAt (exec_mvi h) ht
    exact regVal_finish_regPut (s := s.setAcc b.toNat) hc hx
  case mov rd rs =>
    obtain ⟨v, p, rfl⟩ := exec_mov_next h ht
    exact regVal_finish_regPut (s := s.setAcc v) hc hx
  case ldm rd addr =>
    obtain rfl := eq_finish_of_endsAt (exec_ldm h rfl) ht
    exact regVal_finish_loadAt h.1 hx
  case ldx rd ra =>
    obtain ⟨a, v, p, rfl⟩ := exec_ldx_next h ht
    exact regVal_finish_loadAt h.1 hx
  case popr rd =>
    obtain ⟨id, v, p, hid, rfl⟩ := exec_popr_next h ht
    exact regVal_finish_popped h.1 hx hid
  case call addr =>
    by_cases hx4 : x = 4
    · rw [hx4]
      exact call_flags h ht
    · have hx' : x ∉ [0, 1, 3, 5, 6] := hx
      exact stands_regVal_of_named (regs := [0, 1, 3, 4, 5, 6]) h ht rfl (by decide)
        fun hmem => hx' (by simpa [hx4] using hmem)
  all_goals
    cases hi <;>
      exact stands_regVal_of_named h ht rfl (zero_mem_writtenRegs _) hx

/-! ### Memory -/

/-- Whether a micro-operation stores to memory does not depend on the state. -/
theorem microStoreAddress_eq_none_iff (u : MicroOp) (s t : State) :
    microStoreAddress u s = none ↔ microStoreAddress u t = none := by
  cases u <;> simp [microStoreAddress]

/-- An instruction with no micro-operation that stores to memory leaves it alone. -/
theorem stands_memByte_of_no_store (h : Stands i s) (ht : exec i s = .next t)
    (hno : (referenceMicroOps i).all (fun u => (microStoreAddress u State.reset).isNone) = true)
    (a : Nat) : t.memByte a = s.memByte a := by
  refine stands_keeps (P := fun m => m.memByte a = s.memByte a) h (fun u hu m _ hm he => ?_)
    (fun m hm => (memByte_regPut m _ _ a).trans hm) rfl ht
  have hnone : microStoreAddress u m = none :=
    (microStoreAddress_eq_none_iff u m State.reset).2
      (Option.isNone_iff_eq_none.1 (List.all_eq_true.1 hno u hu))
  exact (he.memByte_eq fun b hb => by rw [hnone] at hb; cases hb).trans hm

/-- The slot a stack micro-operation stores to when `sp` is `p`. -/
def stackSlot : MicroOp → Nat → List Nat
  | .pushToStack, p => [p - 1]
  | .popFromStack, p => [p]
  | _, _ => []

/-- The stack pointer after a micro-operation that starts with it at `p`. -/
def stackPointerAfter : MicroOp → Nat → Nat
  | .pushToStack, p => p - 1
  | .popFromStack, p => p + 1
  | _, p => p

/-- The slots that micro-operations store to from `sp` at `p` on. -/
def stackSlots : List MicroOp → Nat → List Nat
  | [], _ => []
  | u :: us, p => stackSlot u p ++ stackSlots us (stackPointerAfter u p)

/-- The micro-operation stores to memory and moves `sp` as a stack micro-operation only. -/
def usesOnlyStack : MicroOp → Bool
  | .storeToMemory => false
  | .storeToRegister _ => false
  | .storeToRegisterInternal id => id != 1
  | _ => true

theorem Effect.eq_pushed (hc : s.cfg = referenceConfig) (h : Effect s .pushToStack t) :
    t = pushed s := by
  cases h with
  | push => rw [pushed, hc, referenceConfig_dataSize, referenceConfig_spId]
  | same _ hu => simp at hu
  | load _ v hu => simp at hu
  | reg _ i v hi hv hu => simp at hu
  | jump _ hi hv hu => simp at hu

theorem Effect.eq_popped (hc : s.cfg = referenceConfig) (h : Effect s .popFromStack t) :
    t = popped s ∧ s.sp < 255 := by
  cases h with
  | pop hi ha hv =>
    have hsize : referenceConfig.regSize 1 = 1 := reference_regSize (by decide)
    rw [hc, referenceConfig_dataSize, referenceConfig_spId, hsize] at hv
    refine ⟨?_, by omega⟩
    rw [popped, hc, referenceConfig_dataSize, referenceConfig_spId, memVal_one]
  | same _ hu => simp at hu
  | load _ v hu => simp at hu
  | reg _ i v hi hv hu => simp at hu
  | jump _ hi hv hu => simp at hu

theorem Effect.sp_eq (hs : InReference s) (hu : usesOnlyStack u = true) (h : Effect s u t) :
    t.sp = stackPointerAfter u s.sp := by
  have hc : s.cfg = referenceConfig := hs.1
  have kept (hw : microWrittenReg u s ≠ some 1) : t.sp = s.sp := by
    rw [reference_sp (h.cfg_eq.trans hc), h.regVal_eq (reference_noOverlap hc) hw, reference_sp hc]
  cases u
  case pushToStack =>
    obtain rfl := h.eq_pushed hc
    exact sp_pushed hs
  case popFromStack =>
    obtain ⟨rfl, hsp⟩ := h.eq_popped hc
    exact sp_popped hs hsp
  case storeToMemory => cases hu
  case storeToRegister => cases hu
  case storeToRegisterInternal id =>
    have hid : id ≠ 1 := by simpa [usesOnlyStack] using hu
    refine kept fun hw => hid ?_
    injection hw with hw
    exact BitVec.eq_of_toNat_eq hw
  all_goals exact kept (by simp [microWrittenReg, hc])

theorem Effect.memByte_of_usesOnlyStack (hc : s.cfg = referenceConfig) (hu : usesOnlyStack u = true)
    (h : Effect s u t) (ha : a ∉ stackSlot u s.sp) : t.memByte a = s.memByte a := by
  refine h.memByte_eq fun b hb => ?_
  rw [hc, referenceConfig_dataSize]
  cases u
  case pushToStack =>
    have hne : a ≠ s.sp - 1 := by simpa [stackSlot] using ha
    rw [microStoreAddress, hc, referenceConfig_dataSize] at hb
    injection hb with hb
    omega
  case popFromStack =>
    have hne : a ≠ s.sp := by simpa [stackSlot] using ha
    injection hb with hb
    omega
  case storeToMemory => cases hu
  all_goals cases hb

/-- Micro-operations that store to memory only through the stack leave every other byte alone. -/
theorem runMicroOps_memByte_of_usesOnlyStack (hs : InReference s)
    (hus : us.all usesOnlyStack = true) (h : runMicroOps us s = .next t)
    (ha : a ∉ stackSlots us s.sp) : t.memByte a = s.memByte a := by
  induction us generalizing s with
  | nil =>
    obtain ⟨-, -, rfl⟩ := retireTick_next h
    exact memByte_regPut ..
  | cons u us ih =>
    obtain ⟨hu, hus⟩ : usesOnlyStack u = true ∧ us.all usesOnlyStack = true := by
      simpa using hus
    obtain ⟨hslot, hslots⟩ :
        a ∉ stackSlot u s.sp ∧ a ∉ stackSlots us (stackPointerAfter u s.sp) := by
      simpa [stackSlots] using ha
    obtain ⟨w, he, hend⟩ := runMicroOps_cons_next h
    have hw : w.memByte a = s.memByte a := he.memByte_of_usesOnlyStack hs.1 hu hslot
    rw [← he.sp_eq hs hu] at hslots
    rcases hend with rfl | hrest
    · exact hw
    · exact (ih (s := stepped w) (show InReference w from he.inReference hs) hus hrest hslots).trans hw

theorem stands_memByte_of_usesOnlyStack (h : Stands i s) (ht : exec i s = .next t)
    (hus : (referenceMicroOps i).all usesOnlyStack = true)
    (ha : a ∉ stackSlots (referenceMicroOps i) s.sp) : t.memByte a = s.memByte a :=
  runMicroOps_memByte_of_usesOnlyStack (s := running _ 0 s) h.1 hus ((exec_stands h).symm.trans ht) ha

/-- The context save takes the slot of the flags again for the return address. -/
theorem mem_stackSlots_ctx (h : a ∈ stackSlots microOpsCtx p) : a ∈ [p - 1, p - 2] := by
  have hmem : a ∈ [p - 1, p - 1 - 1, p - 1 - 1, p - 1 - 1 + 1 - 1] := h
  simp only [List.mem_cons, List.not_mem_nil, or_false] at hmem ⊢
  omega

/-- Every byte of memory but those an instruction stores to reads as before. -/
theorem stands_memByte (hi : i.isReference = true) (h : Stands i s) (ht : exec i s = .next t)
    (ha : a ∉ storedBytes i s) : t.memByte a = s.memByte a := by
  have hc := stands_cfg h
  cases i
  case stm b rs =>
    obtain ⟨v, p, rfl⟩ := exec_stm_next h ht
    have hne : a ≠ b.toNat := fun e => ha (List.mem_singleton.2 e)
    rw [memByte_finish, memByte_memPut_outside (by omega), memByte_setAcc, memByte_regPut]
  case stx ra rs =>
    obtain ⟨v, p, rfl⟩ := exec_stx_next h ht
    have hne : a ≠ s.regVal ra.toNat := fun e => ha (List.mem_singleton.2 e)
    rw [memByte_finish, memByte_memPut_outside (by omega), memByte_setAcc, memByte_regPut]
  case popr rd =>
    obtain ⟨id, v, p, -, rfl⟩ := exec_popr_next h ht
    have hne : s.sp ≠ a := fun e => ha (List.mem_singleton.2 e.symm)
    rw [memByte_finish, memByte_regPut, memByte_popped h.1.2.2, if_neg hne]
  case push => exact stands_memByte_of_usesOnlyStack h ht rfl ha
  case pshi => exact stands_memByte_of_usesOnlyStack h ht rfl ha
  case pshr => exact stands_memByte_of_usesOnlyStack h ht rfl ha
  case pop => exact stands_memByte_of_usesOnlyStack h ht rfl ha
  case call => exact stands_memByte_of_usesOnlyStack h ht rfl (mt mem_stackSlots_ctx ha)
  case jge => exact stands_memByte_of_usesOnlyStack h ht rfl (mt mem_stackSlots_ctx ha)
  case ret => exact stands_memByte_of_usesOnlyStack h ht rfl ha
  all_goals cases hi <;> exact stands_memByte_of_no_store h ht rfl a

end

/-! ### The statements -/

/-- Settles O54: the registers from the micro-operation list, or from the rule of an instruction whose operand
names its destination; the rest is kept by every micro-operation. -/
theorem instructionRegisterFrame : Obligations.InstructionRegisterFrame := by
  intro i s t hi h ht
  have hstep : step s = .next t := (step_stands h).trans ht
  obtain ⟨hcfg, hstorage⟩ := next_sameFixed (.inl hstep)
  refine ⟨fun r => stands_regVal hi h ht, stands_acc h ht, hcfg, hstorage, stands_fatal h ht,
    stands_ends_idle hi h ht, ?_⟩
  rintro rfl
  obtain ⟨-, hhlt⟩ := nopAndHlt s
  obtain ⟨r, hr, -, rfl, -⟩ := hhlt h
  injection ht.symm.trans hr with ht
  rw [ht, regVal_setHalted, regVal_setCurrentStep, regVal_setCurrentOpcode]

/-- Settles O55: from the stack micro-operations of the list, or from the rule of an instruction that stores at an
address. -/
theorem instructionMemoryFrame : Obligations.InstructionMemoryFrame :=
  fun _ _ _ hi h ht _ ha => stands_memByte hi h ht ha

end Sys2Proof.Machine
end

section
/-! SUPPORT. What 45_refisa_data.md and 46_refisa_control.md say of an instruction whose operand bytes run past the
end of memory: the causes of its micro-operations, in their order (R128 to R136, R141, R142, R144, R146, R148, R155
to R157). -/

namespace Sys2Proof.Machine

open Sys2Proof

section
variable {s : State} {e : Entry} {us pre post : List MicroOp} {op : Byte} {k : Nat} {c : FatalCause}

/-- A step from Idle faults where the micro-operations at the head of the entry do. -/
theorem step_faultsWith (hs : InReference s) (hi : Idle s) (hop : s.memByte s.pc = op)
    (he : lookupEntry rcsRef1 op = some e) (hus : e.microOps = pre ++ post)
    (hst : pre.all MicroOp.isStraight = true) (hr : microRun pre s = .error c) :
    FaultsWith (step s) c := by
  have hpc := reference_pc_le hs.1
  have he' : lookupEntry s.cfg.itable (s.memByte s.pc) = some e := by
    rw [hs.1, referenceConfig_itable, hop, he]
  have hfetch := fetch_of_entry (reference_pcId_lt hs.1)
    (by rw [hs.1, referenceConfig_memSize]; omega) he'
  obtain ⟨-, hh, -⟩ := (condition_idle_iff s).1 hi
  rw [step_eq, if_pos hi, runFetched_of_entry hfetch he', hus]
  exact faultsWith_runMicroOps (List.all_eq_true.1 hst) hh hr

/-! ### Entries that begin with a missing operand byte -/

/-- The first micro-operation but Compare reads the operand byte at an offset of at least `k`. -/
def readsOperandFirst (k : Nat) : List MicroOp → Bool
  | .compare :: us => readsOperandFirst k us
  | .loadImmediate o :: _ => decide (k ≤ o.toNat)
  | .loadFromRegister o :: _ => decide (k ≤ o.toNat)
  | .storeToRegister o :: _ => decide (k ≤ o.toNat)
  | _ => false

theorem microRun_of_readsOperandFirst (hs : InReference s) (hpc : 255 < s.pc + k)
    (h : readsOperandFirst k us = true) :
    ∃ pre post, us = pre ++ post ∧ pre.all MicroOp.isStraight = true ∧
      microRun pre s = .error .memRange := by
  induction us generalizing s with
  | nil => cases h
  | cons u us ih =>
    have missing {o : Byte} (ho : decide (k ≤ o.toNat) = true) :
        s.operandByte o = .error .memRange :=
      reference_operandByte_range hs.1 (by have := of_decide_eq_true ho; omega)
    cases u
    case compare =>
      have hcmp := reference_compare hs.1
      generalize (if s.regA = s.regB then 1 else if s.regB < s.regA then 2 else 0) = f at hcmp
      have hpc' : (s.regPut 4 f).pc = s.pc := reference_pc_regPut_ne hs.1 (by decide)
      obtain ⟨pre, post, rfl, hst, hr⟩ := ih (InReference.regPut hs 4 f) (by rwa [hpc']) h
      exact ⟨.compare :: pre, post, rfl, hst, (microRun_cons hcmp).trans hr⟩
    case loadImmediate o =>
      exact ⟨[.loadImmediate o], us, rfl, rfl, microRun_cons_error (bind_of_error (missing h))⟩
    case loadFromRegister o =>
      exact ⟨[.loadFromRegister o], us, rfl, rfl,
        microRun_cons_error (bind_of_error (bind_of_error (missing h)))⟩
    case storeToRegister o =>
      exact ⟨[.storeToRegister o], us, rfl, rfl, microRun_cons_error (bind_of_error (missing h))⟩
    all_goals cases h

/-- An opcode of a list whose entries all begin with a missing operand byte raises MEM_RANGE. -/
theorem step_of_readsOperandFirst {l : List Nat} (hs : InReference s) (hi : Idle s)
    (hl : ∀ n ∈ l, (lookupEntry rcsRef1 (BitVec.ofNat 8 n)).any
      (fun e => readsOperandFirst k e.microOps) = true)
    (hpc : 255 < s.pc + k) (hop : (s.memByte s.pc).toNat ∈ l) : FaultsWith (step s) .memRange := by
  have hany := hl _ hop
  rw [BitVec.ofNat_toNat, BitVec.setWidth_eq, Option.any_eq_true] at hany
  obtain ⟨e, he, hfirst⟩ := hany
  obtain ⟨pre, post, hus, hst, hr⟩ := microRun_of_readsOperandFirst hs hpc hfirst
  exact step_faultsWith hs hi rfl he hus hst hr

/-! ### STM, STX and POPR, which read a byte that is there before -/

/-- With an address in the accumulator, the store instructions go on to their second operand byte. -/
theorem microRun_storeAt_range {a : Nat} (hs : InReference s) (hpc : s.pc = 254) (ha : a ≤ 255) :
    microRun [.setMemoryAddress, .loadFromRegister 2] (s.setAcc a) = .error .memRange := by
  have hmissing : (s.regPut 3 a).operandByte 2 = .error .memRange :=
    (operandByte_regPut hs.1 (by decide)).trans
      (reference_operandByte_range hs.1 (by rw [hpc]; decide))
  rw [microRun_cons (setMemoryAddress_setAcc hs.1 ha)]
  exact microRun_cons_error (bind_of_error (bind_of_error hmissing))

theorem operandByte_one_of_pc (hs : InReference s) (hpc : s.pc = 254) :
    s.operandByte 1 = .ok (s.memByte 255).toNat := by
  have h := reference_operandByte (o := 1) hs.1 (by rw [hpc]; decide)
  rwa [hpc] at h

theorem step_stm_truncated (hs : InReference s) (hi : Idle s) (hpc : s.pc = 254)
    (hop : s.memByte 254 = 0x21) : FaultsWith (step s) .memRange :=
  step_faultsWith (e := ⟨microOpsStm, 2⟩)
    (pre := [.loadImmediate 1, .setMemoryAddress, .loadFromRegister 2]) hs hi (hpc ▸ hop) rfl rfl rfl
    ((microRun_cons (microOf_loadImmediate_of (operandByte_one_of_pc hs hpc))).trans
      (microRun_storeAt_range hs hpc (byte_le _)))

theorem step_stx_unknown (hs : InReference s) (hi : Idle s) (hpc : s.pc = 254)
    (hop : s.memByte 254 = 0x23) (hb : 8 ≤ (s.memByte 255).toNat) :
    FaultsWith (step s) .unknownRegister :=
  step_faultsWith (e := ⟨microOpsStx, 2⟩) (pre := [.loadFromRegister 1]) hs hi (hpc ▸ hop) rfl rfl rfl
    (microRun_cons_error (reference_loadFromRegister_unknown hs.1 (operandByte_one_of_pc hs hpc) hb))

theorem step_stx_truncated (hs : InReference s) (hi : Idle s) (hpc : s.pc = 254)
    (hop : s.memByte 254 = 0x23) (hb : (s.memByte 255).toNat < 8) : FaultsWith (step s) .memRange :=
  step_faultsWith (e := ⟨microOpsStx, 2⟩)
    (pre := [.loadFromRegister 1, .setMemoryAddress, .loadFromRegister 2]) hs hi (hpc ▸ hop)
    rfl rfl rfl
    ((microRun_cons (reference_loadFromRegister hs.1 (operandByte_one_of_pc hs hpc) hb)).trans
      (microRun_storeAt_range hs hpc (reference_regVal_le hs.1 _)))

theorem step_popr_wide (hs : InReference s) (hi : Idle s) (hpc : s.pc = 255)
    (hop : s.memByte 255 = 0x44) (hsp : s.sp = 255) : FaultsWith (step s) .valueTooWide :=
  step_faultsWith (e := ⟨microOpsPopr, 1⟩) (pre := [.popFromStack]) hs hi (hpc ▸ hop) rfl rfl rfl
    (microRun_cons_error (reference_popFromStack_wide hs.1 hsp))

theorem step_popr_truncated (hs : InReference s) (hi : Idle s) (hpc : s.pc = 255)
    (hop : s.memByte 255 = 0x44) (hsp : s.sp < 255) : FaultsWith (step s) .memRange := by
  have hmissing : (popped s).operandByte 1 = .error .memRange :=
    reference_operandByte_range (popped_inReference hs).1 (by rw [pc_popped hs.1, hpc]; decide)
  exact step_faultsWith (e := ⟨microOpsPopr, 1⟩) (pre := [.popFromStack, .storeToRegister 1]) hs hi
    (hpc ▸ hop) rfl rfl rfl
    ((microRun_cons (reference_popFromStack hs.1 hsp)).trans
      (microRun_cons_error (bind_of_error hmissing)))

/-! ### CALL and JGE, which save the context before (46_refisa_control.md R155) -/

/-- JGE saves the context after its Compare, which moves neither the program counter nor `sp`. -/
theorem step_jge_faultsWith (hs : InReference s) (hi : Idle s) (hop : s.memByte s.pc = 0x57)
    (hus : microOpsCtx = pre ++ post) (hst : pre.all MicroOp.isStraight = true)
    (hr : ∀ m, InReference m → m.pc = s.pc → m.sp = s.sp → microRun pre m = .error c) :
    FaultsWith (step s) c := by
  refine step_faultsWith (e := ⟨microOpsJge, 1⟩) (pre := .compare :: pre)
    (post := post ++ [.loadImmediate 1, .jumpIfFlag 0x00 0x02, .stepProgramMemory 1]) hs hi hop rfl
    ?_ hst ((microRun_cons (reference_compare hs.1)).trans (hr _ (InReference.regPut hs _ _)
      (reference_pc_regPut_ne hs.1 (by decide)) (reference_sp_regPut_ne hs.1 (by decide))))
  simp [microOpsJge, hus]

theorem step_call_faultsWith (hs : InReference s) (hi : Idle s) (hop : s.memByte s.pc = 0x60)
    (hus : microOpsCtx = pre ++ post) (hst : pre.all MicroOp.isStraight = true)
    (hr : microRun pre s = .error c) : FaultsWith (step s) c :=
  step_faultsWith (e := ⟨microOpsCall, 1⟩) (post := post ++ [.loadImmediate 1, .jump]) hs hi hop rfl
    (by simp [microOpsCall, hus]) hst hr

/-- What the context save raises, both call-style jumps raise. -/
theorem step_ctx_faultsWith (hs : InReference s) (hi : Idle s)
    (hop : s.memByte s.pc = 0x57 ∨ s.memByte s.pc = 0x60) (hus : microOpsCtx = pre ++ post)
    (hst : pre.all MicroOp.isStraight = true)
    (hr : ∀ m, InReference m → m.pc = s.pc → m.sp = s.sp → microRun pre m = .error c) :
    FaultsWith (step s) c := by
  rcases hop with hop | hop
  · exact step_jge_faultsWith hs hi hop hus hst hr
  · exact step_call_faultsWith hs hi hop hus hst (hr s hs rfl rfl)

end

/-! ### The statement -/

/-- Settles O57: the first micro-operation that raises. -/
theorem truncatedInstructionFaults : Obligations.TruncatedInstructionFaults := by
  refine fun s hs hi => ⟨fun hpc hop => ?_, fun hpc hop => ?_, fun hpc hop =>
    ⟨step_stx_unknown hs hi hpc hop, step_stx_truncated hs hi hpc hop⟩, fun hpc hop =>
    ⟨step_popr_wide hs hi hpc hop, step_popr_truncated hs hi hpc hop⟩, fun hpc hop => ?_⟩
  · rw [← hpc] at hop
    exact step_of_readsOperandFirst (k := 1) hs hi (by decide) (by omega) hop
  · by_cases hstm : s.memByte 254 = 0x21
    · exact step_stm_truncated hs hi hpc hstm
    · have hne : (s.memByte 254).toNat ≠ 0x21 := fun h => hstm (BitVec.eq_of_toNat_eq h)
      have hop' : (s.memByte s.pc).toNat ∈ [0x13, 0x14, 0x20, 0x22] := by
        rw [hpc]
        simpa [hne] using hop
      exact step_of_readsOperandFirst (k := 2) hs hi (by decide) (by omega) hop'
  · rw [← hpc] at hop
    refine ⟨fun hsp => ?_, fun hsp => ?_⟩
    · exact step_ctx_faultsWith (pre := ctxPushes) hs hi hop rfl rfl fun m hm _ hmsp =>
        microRun_ctxPushes_underflow hm (by rwa [hmsp])
    · exact step_ctx_faultsWith (pre := ctxPushes ++ ctxReturnAddress ++ [.setMemoryAddress])
        hs hi hop rfl rfl fun m hm hmpc hmsp => microRun_ctx_wide hm (by rwa [hmsp]) (by omega)

end Sys2Proof.Machine
end

section
/-! SUPPORT. What 46_refisa_control.md says of JMP, JPA and the six plain conditional jumps (R146 to R154): a jump
that is taken ends its instruction at the accumulator, and one that is not taken goes on to the fall-through. -/

namespace Sys2Proof.Machine

open Sys2Proof

section
variable {s t : State} {i : Instr} {u : MicroOp} {us pre post : List MicroOp} {op k b m : Byte}
  {n : Nat}

/-! ### The jump family in the middle of an instruction (43_microops_control.md R105 to R108) -/

/-- A jump that is taken is Jump. -/
theorem microOf_of_taken (hf : s.cfg.flagsId < s.cfg.regs.length) (ht : u.taken s = true) :
    microOf u s = microJump s := by
  cases u with
  | jump => rfl
  | jumpIfFlag t m => exact (microOf_jumpIfFlag_eq hf).trans (if_pos ht)
  | jumpIfNotFlag t m =>
    have hc : flagCond s.flags t m = false := by simpa [MicroOp.taken] using ht
    rw [microOf_jumpIfNotFlag_eq hf, if_neg (ne_true_of_eq_false hc)]
  | _ => cases ht

/-- One that is not taken changes nothing. -/
theorem microOf_of_not_taken (hf : s.cfg.flagsId < s.cfg.regs.length) (hj : u.isJump = true)
    (ht : u.taken s = false) : microOf u s = .ok s := by
  cases u with
  | jump => cases ht
  | jumpIfFlag t m => exact (microOf_jumpIfFlag_eq hf).trans (if_neg (ne_true_of_eq_false ht))
  | jumpIfNotFlag t m =>
    have hc : flagCond s.flags t m = true := by simpa [MicroOp.taken] using ht
    rw [microOf_jumpIfNotFlag_eq hf, if_pos hc]
  | _ => cases hj

/-- Whether a jump is taken does not depend on the cursor. -/
theorem taken_running (u : MicroOp) : u.taken (running op n s) = u.taken s := by
  cases u <;> rfl

theorem reference_flagsId_lt (hc : s.cfg = referenceConfig) : s.cfg.flagsId < s.cfg.regs.length := by
  rw [hc]
  decide

/-- A taken jump apart from the cursor: a write of the program counter. -/
theorem microOf_running_of_taken (hc : s.cfg = referenceConfig) (ht : u.taken s = true) :
    microOf u (running op n s) =
      (fun t => (running op n t).setCurrentOpcode none) <$> s.regWrite 0 s.acc := by
  have hjump : microOf u (running op n s) = microJump (running op n s) :=
    microOf_of_taken (s := running op n s) (reference_flagsId_lt hc) ((taken_running u).trans ht)
  rw [hjump, microJump, running_cfg, running_acc, regWrite_running, hc, referenceConfig_pcId]
  cases s.regWrite 0 s.acc <;> rfl

/-- A taken jump ends the instruction at the accumulator, with no retire tick (44_sequencer.md R116). -/
theorem runMicroOps_of_taken (hc : s.cfg = referenceConfig) (ht : u.taken s = true)
    (hv : s.acc ≤ 255) :
    runMicroOps (u :: us) (running op n s) = .next (finish s (n + 1) s.acc) := by
  have hjump : microOf u (running op n s) =
      .ok ((running op n (s.regPut 0 s.acc)).setCurrentOpcode none) := by
    rw [microOf_running_of_taken hc ht, reference_regWrite hc (by decide) hv]
    rfl
  rw [runMicroOps_cons_ends hjump (by simp [State.runEnds]), finish, hc]
  rfl

/-- An accumulator that does not fit the program counter. -/
theorem faultsWith_of_taken (hc : s.cfg = referenceConfig) (ht : u.taken s = true)
    (hv : 255 < s.acc) : FaultsWith (runMicroOps (u :: us) (running op n s)) .valueTooWide := by
  have hjump : microOf u (running op n s) = .error .valueTooWide := by
    rw [microOf_running_of_taken hc ht, reference_regWrite_wide hc (by decide) hv]
    rfl
  rw [runMicroOps_cons_error hjump]
  rfl

/-- A jump that is not taken hands on to the rest of the instruction. -/
theorem runMicroOps_of_not_taken (hc : s.cfg = referenceConfig) (hh : s.halted = false)
    (hj : u.isJump = true) (ht : u.taken s = false) :
    runMicroOps (u :: us) (running op n s) = runMicroOps us (running op (n + 1) s) := by
  have hskip : microOf u (running op n s) = .ok (running op n s) :=
    microOf_of_not_taken (reference_flagsId_lt hc) hj ((taken_running u).trans ht)
  have hends : (running op n s).runEnds = false := by simp [State.runEnds, running, hh]
  exact runMicroOps_cons hskip hends

/-! ### An instruction with a jump (44_sequencer.md R115, R116) -/

theorem exec_of_taken (h : Stands i s) (hus : referenceMicroOps i = pre ++ u :: post)
    (hst : pre.all MicroOp.isStraight = true) (hr : microRun pre s = .ok t)
    (ht : u.taken t = true) (hv : t.acc ≤ 255) :
    exec i s = .next (finish t (pre.length + 1) t.acc) := by
  rw [exec_of_microRun h hus hst hr]
  exact runMicroOps_of_taken (microRun_inReference h.1 hr).1 ht hv

theorem exec_of_not_taken (h : Stands i s)
    (hus : referenceMicroOps i = pre ++ [u, .stepProgramMemory k])
    (hst : pre.all MicroOp.isStraight = true) (hr : microRun pre s = .ok t)
    (hj : u.isJump = true) (ht : u.taken t = false) :
    EndsAt (exec i s) t (pre.length + 2) (t.pc + k.toNat + 1) := by
  have hs := microRun_inReference h.1 hr
  have hh := microRun_halted (List.all_eq_true.1 hst) (stands_not_halted h) hr
  rw [exec_of_microRun h hus hst hr, runMicroOps_of_not_taken hs.1 hh hj ht]
  exact stepProgramMemory_retire_endsAt hs hh

/-! ### JMP and JPA (46_refisa_control.md R146, R147) -/

theorem exec_jmp (h : Stands (.jmp b) s) :
    exec (.jmp b) s = .next (finish (s.setAcc b.toNat) 2 b.toNat) :=
  exec_of_taken (pre := [.loadImmediate 1]) (u := .jump) h rfl rfl
    (microRun_cons (microOf_loadImmediate_of (stands_operandByte h 1 (by simp [encode])))) rfl
    (byte_le b)

theorem exec_jpa (h : Stands .jpa s) (hv : s.acc ≤ 255) :
    exec .jpa s = .next (finish s 1 s.acc) :=
  exec_of_taken (pre := []) (u := .jump) h rfl rfl rfl rfl hv

theorem exec_jpa_wide (h : Stands .jpa s) (hv : 255 < s.acc) :
    FaultsWith (exec .jpa s) .valueTooWide := by
  rw [exec_stands h]
  exact faultsWith_of_taken (u := .jump) (us := []) (stands_cfg h) rfl hv

/-! ### The flags Compare leaves, and the jumps on them (46_refisa_control.md R148) -/

/-- The value Compare writes to `flags` for two operands (41_microops_alu.md R98). -/
def compareValue (x y : Nat) : Nat := if x = y then 1 else if y < x then 2 else 0

theorem compareValue_le (x y : Nat) : compareValue x y ≤ 255 := by
  unfold compareValue
  split_ifs <;> decide

theorem reference_compare_value (hc : s.cfg = referenceConfig) :
    microOf .compare s = .ok (s.regPut 4 (compareValue s.regA s.regB)) :=
  reference_compare hc

theorem compareValue_of_lt {x y : Nat} (h : x < y) : compareValue x y = 0 := by
  rw [compareValue, if_neg h.ne, if_neg h.not_gt]

theorem compareValue_self (x : Nat) : compareValue x x = 1 := if_pos rfl

theorem compareValue_of_gt {x y : Nat} (h : y < x) : compareValue x y = 2 := by
  rw [compareValue, if_neg h.ne', if_pos h]

theorem flags_compared (hs : InReference s) (a : Nat) :
    ((s.regPut 4 (compareValue s.regA s.regB)).setAcc a).flags = compareValue s.regA s.regB := by
  rw [State.flags, State.setAcc_cfg, regPut_cfg, hs.1, referenceConfig_flagsId, regVal_setAcc,
    reference_regVal_regPut hs (by decide) (compareValue_le ..), if_pos rfl]

/-- The jump micro-operation of a plain conditional jump. -/
def plainJump : Instr → MicroOp
  | .jeq _ => .jumpIfFlag 0x01 0x02
  | .jne _ => .jumpIfFlag 0x00 0x01
  | .jgt _ => .jumpIfFlag 0x02 0x01
  | .jlt _ => .jumpIfFlag 0x00 0x03
  | .jle _ => .jumpIfFlag 0x00 0x02
  | _ => .jumpIfNotFlag 0x00 0x03

/-- The six plain conditional jumps. -/
abbrev IsPlainJump (i : Instr) (b : Byte) : Prop :=
  i = .jeq b ∨ i = .jne b ∨ i = .jgt b ∨ i = .jlt b ∨ i = .jle b ∨ i = .jnl b

theorem referenceMicroOps_plainJump (hi : IsPlainJump i b) :
    referenceMicroOps i = [.compare, .loadImmediate 1] ++ [plainJump i, .stepProgramMemory 1] := by
  rcases hi with rfl | rfl | rfl | rfl | rfl | rfl <;> rfl

theorem encode_plainJump (hi : IsPlainJump i b) : ∃ op, encode i = [op, b] := by
  rcases hi with rfl | rfl | rfl | rfl | rfl | rfl <;> exact ⟨_, rfl⟩

theorem plainJump_isJump (i : Instr) : (plainJump i).isJump = true := by
  cases i <;> rfl

/-- Each mask pair is the relation its instruction is named after (46_refisa_control.md R149 to R154). -/
theorem plainJump_taken (hi : IsPlainJump i b) {x y : Nat} (hf : t.flags = compareValue x y) :
    (plainJump i).taken t = jumpFires i x y := by
  rcases Nat.lt_trichotomy x y with h | rfl | h
  · rw [compareValue_of_lt h] at hf
    rcases hi with rfl | rfl | rfl | rfl | rfl | rfl <;>
      simp [plainJump, MicroOp.taken, flagCond, jumpFires, hf, h, h.ne, h.le, h.not_ge]
  · rw [compareValue_self] at hf
    rcases hi with rfl | rfl | rfl | rfl | rfl | rfl <;>
      simp [plainJump, MicroOp.taken, flagCond, jumpFires, hf]
  · rw [compareValue_of_gt h] at hf
    rcases hi with rfl | rfl | rfl | rfl | rfl | rfl <;>
      simp [plainJump, MicroOp.taken, flagCond, jumpFires, hf, h, h.ne', h.le, h.not_ge]

/-- The state a plain conditional jump tests: Compare's flags, and the operand byte in the accumulator. -/
def comparedAt (s : State) (b : Byte) : State :=
  (s.regPut 4 (compareValue s.regA s.regB)).setAcc b.toNat

theorem microRun_comparedAt (h : Stands i s) (hi : IsPlainJump i b) :
    microRun [.compare, .loadImmediate 1] s = .ok (comparedAt s b) := by
  obtain ⟨op, he⟩ := encode_plainJump hi
  have ho : s.operandByte 1 = .ok b.toNat := by
    rw [stands_operandByte h 1 (by simp [he]), he]
    rfl
  have ho' : (s.regPut 4 (compareValue s.regA s.regB)).operandByte 1 = .ok b.toNat :=
    (operandByte_regPut (stands_cfg h) (by decide)).trans ho
  rw [microRun_cons (reference_compare_value (stands_cfg h))]
  exact microRun_cons (microOf_loadImmediate_of ho')

theorem exec_plainJump_fires (h : Stands i s) (hi : IsPlainJump i b)
    (hf : jumpFires i s.regA s.regB = true) :
    exec i s = .next (finish (comparedAt s b) 3 b.toNat) :=
  exec_of_taken (pre := [.compare, .loadImmediate 1]) h (referenceMicroOps_plainJump hi) rfl
    (microRun_comparedAt h hi) ((plainJump_taken hi (flags_compared h.1 b.toNat)).trans hf)
    (byte_le b)

theorem exec_plainJump_falls_through (h : Stands i s) (hi : IsPlainJump i b)
    (hf : jumpFires i s.regA s.regB = false) :
    EndsAt (exec i s) (comparedAt s b) 4 (s.pc + 2) := by
  have hends := exec_of_not_taken (pre := [.compare, .loadImmediate 1]) h
    (referenceMicroOps_plainJump hi) rfl (microRun_comparedAt h hi) (plainJump_isJump i)
    ((plainJump_taken hi (flags_compared h.1 b.toNat)).trans hf)
  rwa [comparedAt, pc_setAcc, reference_pc_regPut_ne (stands_cfg h) (by decide)] at hends

end

/-! ### The statements -/

/-- Settles O48: a Jump, in JMP after the load of its target. -/
theorem jmpJpa : Obligations.JmpJpa :=
  fun _ _ => ⟨exec_jmp, fun h => ⟨exec_jpa h, exec_jpa_wide h⟩⟩

/-- Settles O49: the mask pair of each jump is its relation on the flags that Compare leaves. -/
theorem plainConditionalJumps : Obligations.PlainConditionalJumps := by
  rintro s b i hi h t rfl
  exact ⟨exec_plainJump_fires h hi, exec_plainJump_falls_through h hi⟩

end Sys2Proof.Machine
end

section
/-! SUPPORT. States of the reference configuration that read alike are equal (10_state.md R14, 20_memory.md R40),
and what reads after a push and after a pop: the way to the whole next states of the call-style instructions. -/

namespace Sys2Proof.Machine

open Sys2Proof

section
variable {s t : State} {a b v j : Nat}

/-! ### Equal readings -/

theorem reference_rf_ext (hs : InReference s) (ht : InReference t)
    (hreg : ∀ i, s.regVal i = t.regVal i) : s.rf = t.rf := by
  obtain ⟨hcs, hls, -⟩ := hs
  obtain ⟨hct, hlt, -⟩ := ht
  refine List.ext_getElem (hls.trans hlt.symm) fun i hi hi' => BitVec.eq_of_toNat_eq ?_
  have h := hreg i
  rw [reference_regVal hcs (by omega), reference_regVal hct (by omega)] at h
  simpa [hi, hi'] using h

/-- Two states of the reference configuration whose registers, memory bytes and other elements read alike. -/
theorem InReference.ext (hs : InReference s) (ht : InReference t)
    (hreg : ∀ i, s.regVal i = t.regVal i) (hmem : ∀ a, s.memByte a = t.memByte a)
    (hacc : s.acc = t.acc)
    (hrest : s.storage = t.storage ∧ s.currentOpcode = t.currentOpcode ∧
      s.currentStep = t.currentStep ∧ s.halted = t.halted ∧ s.fatal = t.fatal) : s = t := by
  obtain ⟨hstorage, hopcode, hstep, hhalted, hfatal⟩ := hrest
  exact State.ext_fields (hs.1.trans ht.1.symm) (Memory.ext_of_read hs.2.2 ht.2.2 hmem) hstorage
    (reference_rf_ext hs ht hreg) hacc hopcode hstep hhalted hfatal

/-! ### Memory updates -/

theorem InReference.memPut (hs : InReference s) (a n v : Nat) : InReference (s.memPut a n v) :=
  ⟨hs.1, hs.2.1, Memory.writeBytes_wf a _ hs.2.2⟩

theorem InReference.memClear (hs : InReference s) (a n : Nat) : InReference (s.memClear a n) :=
  ⟨hs.1, hs.2.1, Memory.zeroBytes_wf a n hs.2.2⟩

theorem memPut_regPut (s : State) (i v a n w : Nat) :
    (s.regPut i v).memPut a n w = (s.memPut a n w).regPut i v := by
  unfold State.regPut
  rw [memPut_cfg]
  cases s.cfg.regs[i]? <;> rfl

/-- What a byte reads after a byte is stored. -/
theorem memByte_memPut_byte (hwf : Memory.wf s.mem = true) (b : Nat) :
    (s.memPut a 1 v).memByte b = if b = a then BitVec.ofNat 8 v else s.memByte b := by
  split
  next h => rw [h, memByte_memPut_one hwf]
  next h => exact memByte_memPut_outside (by omega)

/-- What a byte reads after bytes are zero-filled. -/
theorem memByte_memClear {n : Nat} (hwf : Memory.wf s.mem = true) (b : Nat) :
    (s.memClear a n).memByte b = if a ≤ b ∧ b < a + n then 0 else s.memByte b := by
  split
  next h => exact memByte_memClear_inside hwf h
  next h => exact memByte_memClear_outside (by omega)

/-! ### Reading after a push and after a pop (42_microops_stack.md R101, R102) -/

theorem reference_regVal_pushed (hs : InReference s) (j : Nat) :
    (pushed s).regVal j = if j = 1 then s.sp - 1 else s.regVal j :=
  reference_regVal_regPut (InReference.memPut hs (s.sp - 1) 1 s.acc) (by decide)
    ((Nat.sub_le _ _).trans (reference_sp_le hs.1)) j

theorem reference_memByte_pushed (hs : InReference s) (b : Nat) :
    (pushed s).memByte b = if b = s.sp - 1 then BitVec.ofNat 8 s.acc else s.memByte b := by
  rw [pushed, memByte_regPut, memByte_memPut_byte hs.2.2]

theorem reference_regVal_popped (hs : InReference s) (hsp : s.sp < 255) (j : Nat) :
    (popped s).regVal j = if j = 1 then s.sp + 1 else s.regVal j :=
  reference_regVal_regPut
    (InReference.memClear (InReference.setAcc hs (s.memByte s.sp).toNat) s.sp 1) (by decide) hsp j

end

end Sys2Proof.Machine
end

section
/-! SUPPORT. What 46_refisa_control.md says of CALL and JGE (R155 to R157): the context save as one rule, after which
both read their operand byte and jump. -/

namespace Sys2Proof.Machine

open Sys2Proof

section
variable {s : State} {b : Byte}

/-! ### The context save (46_refisa_control.md R155) -/

/-- Memory with the base pointer and the return address on the stack. -/
def framePushed (s : State) : State :=
  (s.memPut (s.sp - 1) 1 (s.regVal 2)).memPut (s.sp - 2) 1 (s.pc + 2)

/-- The frame on the stack, and the registers that the context save clobbers. -/
def contextSaved (s : State) : State :=
  ((((framePushed s).regPut 1 (s.sp - 2)).regPut 5 s.pc).regPut 6 2).regPut 3 (s.pc + 2)

/-- The state in which the flags are back and the return address is still to be pushed. -/
def flagsRestored (s : State) : State := (popped (ctxSaved s)).regPut 4 (s.regVal 4)

theorem framePushed_inReference (hs : InReference s) : InReference (framePushed s) :=
  InReference.memPut (InReference.memPut hs _ _ _) _ _ _

theorem contextSaved_inReference (hs : InReference s) : InReference (contextSaved s) :=
  InReference.regPut (InReference.regPut (InReference.regPut (InReference.regPut
    (framePushed_inReference hs) _ _) _ _) _ _) _ _

theorem memByte_framePushed (hs : InReference s) (a : Nat) :
    (framePushed s).memByte a =
      if a = s.sp - 2 then BitVec.ofNat 8 (s.pc + 2)
      else if a = s.sp - 1 then BitVec.ofNat 8 (s.regVal 2) else s.memByte a := by
  rw [framePushed, memByte_memPut_byte (InReference.memPut hs _ _ _).2.2,
    memByte_memPut_byte hs.2.2]

theorem memByte_contextSaved (s : State) (a : Nat) :
    (contextSaved s).memByte a = (framePushed s).memByte a := by
  simp [contextSaved]

theorem regVal_contextSaved (hs : InReference s) (hpc : s.pc + 2 ≤ 255) (j : Nat) :
    (contextSaved s).regVal j =
      if j = 3 then s.pc + 2 else if j = 6 then 2 else if j = 5 then s.pc
      else if j = 1 then s.sp - 2 else s.regVal j := by
  have hsp := reference_sp_le hs.1
  have h0 := framePushed_inReference hs
  have h1 := InReference.regPut h0 1 (s.sp - 2)
  have h5 := InReference.regPut h1 5 s.pc
  have h6 := InReference.regPut h5 6 2
  rw [contextSaved, reference_regVal_regPut h6 (by decide) hpc,
    reference_regVal_regPut h5 (by decide) (by decide),
    reference_regVal_regPut h1 (by decide) (by omega),
    reference_regVal_regPut h0 (by decide) (by omega)]
  rfl

theorem pc_contextSaved (hs : InReference s) (hpc : s.pc + 2 ≤ 255) :
    (contextSaved s).pc = s.pc := by
  rw [reference_pc (contextSaved_inReference hs).1, regVal_contextSaved hs hpc, reference_pc hs.1]
  rfl

/-! What each stage of the save reads, from the two pushes to the flags given back. -/

theorem regVal_ctxPushed (hs : InReference s) (j : Nat) :
    (ctxPushed s).regVal j = if j = 1 then s.sp - 2 else s.regVal j := by
  have hs' := pushed_inReference (InReference.setAcc hs (s.regVal 2))
  have hsp : (pushed (s.setAcc (s.regVal 2))).sp = s.sp - 1 :=
    sp_pushed (InReference.setAcc hs (s.regVal 2))
  rw [ctxPushed, reference_regVal_pushed (InReference.setAcc hs' _), sp_setAcc, hsp, regVal_setAcc,
    reference_regVal_pushed (InReference.setAcc hs _), regVal_setAcc]
  split_ifs <;> rfl

theorem memByte_ctxPushed_of_ne (hs : InReference s) {a : Nat} (ha : a ≠ s.sp - 2) :
    (ctxPushed s).memByte a =
      if a = s.sp - 1 then BitVec.ofNat 8 (s.regVal 2) else s.memByte a := by
  have hs' := pushed_inReference (InReference.setAcc hs (s.regVal 2))
  have hsp : (pushed (s.setAcc (s.regVal 2))).sp = s.sp - 1 :=
    sp_pushed (InReference.setAcc hs (s.regVal 2))
  rw [ctxPushed, reference_memByte_pushed (InReference.setAcc hs' _), sp_setAcc, hsp,
    if_neg (show a ≠ s.sp - 1 - 1 from ha), memByte_setAcc,
    reference_memByte_pushed (InReference.setAcc hs _)]
  rfl

theorem regVal_ctxSaved (hs : InReference s) (hpc : s.pc + 2 ≤ 255) (j : Nat) :
    (ctxSaved s).regVal j =
      if j = 3 then s.pc + 2 else if j = 6 then 2 else if j = 5 then s.pc
      else (ctxPushed s).regVal j := by
  have h0 := ctxPushed_inReference hs
  have h5 := InReference.regPut h0 5 s.pc
  rw [ctxSaved, reference_regVal_regPut (ctxAddressed_inReference hs) (by decide) hpc, ctxAddressed,
    regVal_setAcc, reference_regVal_regPut h5 (by decide) (by decide),
    reference_regVal_regPut h0 (by decide) (by omega)]

theorem memByte_ctxSaved (s : State) (a : Nat) :
    (ctxSaved s).memByte a = (ctxPushed s).memByte a := by
  simp [ctxSaved, ctxAddressed]

theorem sp_ctxSaved_eq (hs : InReference s) : (ctxSaved s).sp = s.sp - 2 := by
  rw [sp_ctxSaved hs, reference_sp (ctxPushed_inReference hs).1, regVal_ctxPushed hs, if_pos rfl]

theorem flagsRestored_inReference (hs : InReference s) : InReference (flagsRestored s) :=
  InReference.regPut (popped_inReference (ctxSaved_inReference hs)) 4 (s.regVal 4)

theorem regVal_flagsRestored (hs : InReference s) (hsp : 2 ≤ s.sp) (j : Nat) :
    (flagsRestored s).regVal j =
      if j = 4 then s.regVal 4 else if j = 1 then s.sp - 1 else (ctxSaved s).regVal j := by
  have hm := ctxSaved_inReference hs
  have hle := reference_sp_le hs.1
  have hlt : (ctxSaved s).sp < 255 := by
    rw [sp_ctxSaved_eq hs]
    omega
  rw [flagsRestored, reference_regVal_regPut (popped_inReference hm) (by decide)
    (reference_regVal_le hs.1 4), reference_regVal_popped hm hlt, sp_ctxSaved_eq hs,
    show s.sp - 2 + 1 = s.sp - 1 by omega]

theorem sp_flagsRestored (hs : InReference s) (hsp : 2 ≤ s.sp) :
    (flagsRestored s).sp = s.sp - 1 := by
  rw [reference_sp (flagsRestored_inReference hs).1, regVal_flagsRestored hs hsp]
  rfl

theorem memByte_flagsRestored_of_ne (hs : InReference s) {a : Nat} (ha : a ≠ s.sp - 2) :
    (flagsRestored s).memByte a =
      if a = s.sp - 1 then BitVec.ofNat 8 (s.regVal 2) else s.memByte a := by
  rw [flagsRestored, memByte_regPut, memByte_popped (ctxSaved_inReference hs).2.2,
    sp_ctxSaved_eq hs, if_neg ha.symm, memByte_ctxSaved, memByte_ctxPushed_of_ne hs ha]

/-- The last push puts the return address in the slot that the flags had. -/
theorem pushed_flagsRestored (hs : InReference s) (hsp : 2 ≤ s.sp) (hpc : s.pc + 2 ≤ 255) :
    pushed ((flagsRestored s).setAcc (s.pc + 2)) = (contextSaved s).setAcc (s.pc + 2) := by
  have hr := InReference.setAcc (flagsRestored_inReference hs) (s.pc + 2)
  have hpush : ((flagsRestored s).setAcc (s.pc + 2)).sp = s.sp - 1 :=
    (sp_setAcc ..).trans (sp_flagsRestored hs hsp)
  refine InReference.ext (pushed_inReference hr) (InReference.setAcc (contextSaved_inReference hs) _)
    (fun j => ?_) (fun a => ?_) (by simp [pushed])
    (by simp [pushed, flagsRestored, popped, ctxSaved, ctxAddressed, ctxPushed, contextSaved,
      framePushed])
  · rw [reference_regVal_pushed hr, hpush, regVal_setAcc, regVal_setAcc,
      regVal_flagsRestored hs hsp, regVal_ctxSaved hs hpc, regVal_ctxPushed hs,
      regVal_contextSaved hs hpc]
    grind
  · rw [reference_memByte_pushed hr, hpush, memByte_setAcc, memByte_setAcc, memByte_contextSaved,
      memByte_framePushed hs, show s.sp - 1 - 1 = s.sp - 2 by omega]
    split
    next => rfl
    next ha => exact memByte_flagsRestored_of_ne hs ha

theorem microRun_ctx (hs : InReference s) (hsp : 2 ≤ s.sp) (hpc : s.pc + 2 ≤ 255) :
    microRun microOpsCtx s = .ok ((contextSaved s).setAcc (s.pc + 2)) := by
  have hr := flagsRestored_inReference hs
  have hmar : (flagsRestored s).regVal 3 = s.pc + 2 := by
    rw [regVal_flagsRestored hs hsp, regVal_ctxSaved hs hpc]
    rfl
  have hpos : 0 < (flagsRestored s).sp := by
    rw [sp_flagsRestored hs hsp]
    omega
  have hlast := microRun_pushRegister (id := 3) (j := 3) rfl hr.1 (by decide) hpos
  rw [hmar, pushed_flagsRestored hs hsp hpc] at hlast
  have hctx : microOpsCtx = ctxPushes ++ ctxReturnAddress ++ [.setMemoryAddress] ++
      [.popFromStack, .storeToRegisterInternal 4] ++ [.loadFromRegisterInternal 3, .pushToStack] := rfl
  rw [hctx, microRun_append (microRun_restoreFlags hs hsp hpc)]
  exact hlast

/-! ### The operand byte after the save (20_memory.md R54) -/

/-- The operand byte as it stands once the frame is pushed. -/
def callTarget (s : State) : Nat := ((framePushed s).memByte (s.pc + 1)).toNat

theorem microOf_loadImmediate_setAcc {o : Byte} {v : Nat} (h : s.operandByte o = .ok v) (w : Nat) :
    microOf (.loadImmediate o) (s.setAcc w) = .ok (s.setAcc v) :=
  microOf_loadImmediate_of (s := s.setAcc w) h

theorem operandByte_contextSaved (hs : InReference s) (hpc : s.pc + 2 ≤ 255) :
    (contextSaved s).operandByte 1 = .ok (callTarget s) := by
  have hin : (contextSaved s).pc + (1 : Byte).toNat ≤ 255 := by
    rw [pc_contextSaved hs hpc]
    exact Nat.le_of_succ_le hpc
  rw [reference_operandByte (contextSaved_inReference hs).1 hin, pc_contextSaved hs hpc,
    memByte_contextSaved]
  rfl

theorem microRun_ctx_target (hs : InReference s) (hsp : 2 ≤ s.sp) (hpc : s.pc + 2 ≤ 255) :
    microRun (microOpsCtx ++ [.loadImmediate 1]) s =
      .ok ((contextSaved s).setAcc (callTarget s)) := by
  rw [microRun_append (microRun_ctx hs hsp hpc)]
  exact microRun_cons (microOf_loadImmediate_setAcc (operandByte_contextSaved hs hpc) _)

theorem stands_memByte_operand {i : Instr} {op : Byte} (h : Stands i s) (he : encode i = [op, b]) :
    s.memByte (s.pc + 1) = b := by
  obtain ⟨-, -, -, -, -, -, -, -, hbytes, -⟩ := stands_facts h
  rw [hbytes 1 (by simp [he]), he]
  rfl

/-- The frame overwrites the operand byte where it reaches it only. -/
theorem callTarget_of_frame_elsewhere (hs : InReference s) (hsp : 2 ≤ s.sp)
    (hb : s.memByte (s.pc + 1) = b) (h2 : s.sp ≠ s.pc + 2) (h3 : s.sp ≠ s.pc + 3) :
    callTarget s = b.toNat := by
  rw [callTarget, memByte_framePushed hs, if_neg (by omega), if_neg (by omega), hb]

/-! ### CALL (46_refisa_control.md R156) -/

theorem exec_call_underflow (h : Stands (.call b) s) (hsp : s.sp < 2) :
    FaultsWith (exec (.call b) s) .subUnderflow :=
  exec_faultsWith (pre := ctxPushes) h rfl rfl (microRun_ctxPushes_underflow h.1 hsp)

theorem exec_call_wide (h : Stands (.call b) s) (hsp : 2 ≤ s.sp) (hpc : 255 < s.pc + 2) :
    FaultsWith (exec (.call b) s) .valueTooWide :=
  exec_faultsWith (pre := ctxPushes ++ ctxReturnAddress ++ [.setMemoryAddress]) h rfl rfl
    (microRun_ctx_wide h.1 hsp hpc)

theorem exec_call (h : Stands (.call b) s) (hsp : 2 ≤ s.sp) (hpc : s.pc + 2 ≤ 255) :
    exec (.call b) s =
      .next (finish ((contextSaved s).setAcc (callTarget s)) 16 (callTarget s)) :=
  exec_of_taken (pre := microOpsCtx ++ [.loadImmediate 1]) (u := .jump) h rfl rfl
    (microRun_ctx_target h.1 hsp hpc) rfl (byte_le _)

/-! ### JGE (46_refisa_control.md R157) -/

/-- The state after the Compare of JGE. -/
def compared (s : State) : State := s.regPut 4 (compareValue s.regA s.regB)

theorem compared_inReference (hs : InReference s) : InReference (compared s) :=
  InReference.regPut hs _ _

theorem pc_compared (hs : InReference s) : (compared s).pc = s.pc :=
  reference_pc_regPut_ne hs.1 (by decide)

theorem sp_compared (hs : InReference s) : (compared s).sp = s.sp :=
  reference_sp_regPut_ne hs.1 (by decide)

/-- Compare writes neither what the frame saves nor where it stands. -/
theorem framePushed_compared (hs : InReference s) :
    framePushed (compared s) = (framePushed s).regPut 4 (compareValue s.regA s.regB) := by
  have hbp : (compared s).regVal 2 = s.regVal 2 := reference_regVal_regPut_ne hs.1 (by decide)
  rw [framePushed, pc_compared hs, sp_compared hs, hbp, compared, memPut_regPut, memPut_regPut,
    framePushed]

theorem callTarget_compared (hs : InReference s) : callTarget (compared s) = callTarget s := by
  rw [callTarget, framePushed_compared hs, pc_compared hs, memByte_regPut, callTarget]

theorem flags_contextSaved_compared (hs : InReference s) (hpc : s.pc + 2 ≤ 255) (v : Nat) :
    ((contextSaved (compared s)).setAcc v).flags = compareValue s.regA s.regB := by
  have hm := compared_inReference hs
  have hset : ((contextSaved (compared s)).setAcc v).cfg = referenceConfig :=
    (contextSaved_inReference hm).1
  rw [State.flags, hset, referenceConfig_flagsId, regVal_setAcc,
    regVal_contextSaved hm ((pc_compared hs).symm ▸ hpc), compared,
    reference_regVal_regPut hs (by decide) (compareValue_le ..)]
  rfl

theorem exec_jge_underflow (h : Stands (.jge b) s) (hsp : s.sp < 2) :
    FaultsWith (exec (.jge b) s) .subUnderflow :=
  exec_faultsWith (pre := .compare :: ctxPushes) h rfl rfl
    ((microRun_cons (reference_compare_value h.1.1)).trans
      (microRun_ctxPushes_underflow (compared_inReference h.1) ((sp_compared h.1).symm ▸ hsp)))

theorem exec_jge_wide (h : Stands (.jge b) s) (hsp : 2 ≤ s.sp) (hpc : 255 < s.pc + 2) :
    FaultsWith (exec (.jge b) s) .valueTooWide :=
  exec_faultsWith (pre := .compare :: (ctxPushes ++ ctxReturnAddress ++ [.setMemoryAddress])) h rfl rfl
    ((microRun_cons (reference_compare_value h.1.1)).trans
      (microRun_ctx_wide (compared_inReference h.1) ((sp_compared h.1).symm ▸ hsp)
        ((pc_compared h.1).symm ▸ hpc)))

/-- The state in which JGE tests the flags. -/
def jgeTested (s : State) : State := (contextSaved (compared s)).setAcc (callTarget s)

theorem microRun_jgeTested (hs : InReference s) (hsp : 2 ≤ s.sp) (hpc : s.pc + 2 ≤ 255) :
    microRun (.compare :: (microOpsCtx ++ [.loadImmediate 1])) s = .ok (jgeTested s) := by
  rw [jgeTested, microRun_cons (reference_compare_value hs.1), ← callTarget_compared hs]
  exact microRun_ctx_target (compared_inReference hs) ((sp_compared hs).symm ▸ hsp)
    ((pc_compared hs).symm ▸ hpc)

/-- JGE keeps the mask pair of JLE (the spec's decision D16). -/
theorem jgeTested_taken (hs : InReference s) (hpc : s.pc + 2 ≤ 255) :
    (MicroOp.jumpIfFlag 0x00 0x02).taken (jgeTested s) = decide (s.regA ≤ s.regB) :=
  plainJump_taken (i := .jle 0) (b := 0) (by simp [IsPlainJump]) (flags_contextSaved_compared hs hpc _)

theorem exec_jge_fires (h : Stands (.jge b) s) (hsp : 2 ≤ s.sp) (hpc : s.pc + 2 ≤ 255)
    (hle : s.regA ≤ s.regB) :
    exec (.jge b) s = .next (finish (jgeTested s) 17 (callTarget s)) := by
  have htaken := (jgeTested_taken h.1 hpc).trans (decide_eq_true hle)
  have hacc : (jgeTested s).acc ≤ 255 := byte_le _
  exact exec_of_taken (pre := .compare :: (microOpsCtx ++ [.loadImmediate 1])) h rfl rfl
    (microRun_jgeTested h.1 hsp hpc) htaken hacc

theorem exec_jge_falls_through (h : Stands (.jge b) s) (hsp : 2 ≤ s.sp) (hpc : s.pc + 2 ≤ 255)
    (hlt : s.regB < s.regA) :
    exec (.jge b) s = .next (finish (jgeTested s) 18 (s.pc + 2)) := by
  have hskip := (jgeTested_taken h.1 hpc).trans (decide_eq_false hlt.not_ge)
  have hends := exec_of_not_taken (pre := .compare :: (microOpsCtx ++ [.loadImmediate 1])) h rfl rfl
    (microRun_jgeTested h.1 hsp hpc) rfl hskip
  rw [jgeTested, pc_setAcc, pc_contextSaved (compared_inReference h.1)
    ((pc_compared h.1).symm ▸ hpc), pc_compared h.1] at hends
  exact hends.1 hpc

theorem jgeTested_eq (hs : InReference s) :
    jgeTested s = ((((((framePushed s).regPut 4 (compareValue s.regA s.regB)).regPut 1
      (s.sp - 2)).regPut 5 s.pc).regPut 6 2).regPut 3 (s.pc + 2)).setAcc (callTarget s) := by
  rw [jgeTested, contextSaved, framePushed_compared hs, pc_compared hs, sp_compared hs]

end

/-! ### The statements -/

/-- Settles O50: the context save, the operand byte as it then stands, and Jump. -/
theorem callInstruction : Obligations.CallInstruction := by
  refine fun s b h => ⟨exec_call_underflow h, exec_call_wide h, fun hsp hpc => ?_⟩
  rintro m t target rfl rfl rfl
  exact ⟨exec_call h hsp hpc, callTarget_of_frame_elsewhere h.1 hsp (stands_memByte_operand h rfl)⟩

/-- Settles O51: CALL's save after a Compare, whose flags it keeps for the jump. -/
theorem jgeInstruction : Obligations.JgeInstruction := by
  refine fun s b h => ⟨exec_jge_underflow h, exec_jge_wide h, fun hsp hpc => ?_⟩
  rintro m t target rfl rfl rfl
  have hfires := exec_jge_fires h hsp hpc
  have hfalls := exec_jge_falls_through h hsp hpc
  rw [jgeTested_eq h.1] at hfires hfalls
  exact ⟨hfires, hfalls, callTarget_of_frame_elsewhere h.1 hsp (stands_memByte_operand h rfl)⟩

end Sys2Proof.Machine
end

section
/-! SUPPORT. What 46_refisa_control.md says of RET (R158), and of the RET that matches a CALL (R159). -/

namespace Sys2Proof.Machine

open Sys2Proof

section
variable {s t : State} {b : Byte}

/-! ### RET (46_refisa_control.md R158) -/

/-- The state after the first pop, with the return address in `acc` and `mar`. -/
def addressPopped (s : State) : State := (popped s).regPut 3 (s.memByte s.sp).toNat

/-- The state before the Jump of RET: the frame zeroed and off the stack, the base pointer given back, the return
address in `mar` and `acc`. -/
def framePopped (s : State) : State :=
  ((((s.memClear s.sp 2).regPut 1 (s.sp + 2)).regPut 3 (s.memByte s.sp).toNat).regPut 2
    (s.memByte (s.sp + 1)).toNat).setAcc (s.memByte s.sp).toNat

theorem addressPopped_inReference (hs : InReference s) : InReference (addressPopped s) :=
  InReference.regPut (popped_inReference hs) _ _

theorem framePopped_inReference (hs : InReference s) : InReference (framePopped s) :=
  InReference.setAcc (InReference.regPut (InReference.regPut (InReference.regPut
    (InReference.memClear hs _ _) _ _) _ _) _ _) _

theorem regVal_addressPopped (hs : InReference s) (hsp : s.sp < 255) (j : Nat) :
    (addressPopped s).regVal j =
      if j = 3 then (s.memByte s.sp).toNat else if j = 1 then s.sp + 1 else s.regVal j := by
  rw [addressPopped, reference_regVal_regPut (popped_inReference hs) (by decide) (byte_le _),
    reference_regVal_popped hs hsp]

theorem sp_addressPopped (hs : InReference s) (hsp : s.sp < 255) :
    (addressPopped s).sp = s.sp + 1 := by
  rw [reference_sp (addressPopped_inReference hs).1, regVal_addressPopped hs hsp]
  rfl

theorem memByte_addressPopped (hs : InReference s) (a : Nat) :
    (addressPopped s).memByte a = if s.sp = a then 0 else s.memByte a := by
  rw [addressPopped, memByte_regPut, memByte_popped hs.2.2]

theorem regVal_framePopped (hs : InReference s) (hsp : s.sp + 2 ≤ 255) (j : Nat) :
    (framePopped s).regVal j =
      if j = 2 then (s.memByte (s.sp + 1)).toNat else if j = 3 then (s.memByte s.sp).toNat
      else if j = 1 then s.sp + 2 else s.regVal j := by
  have h0 := InReference.memClear hs s.sp 2
  have h1 := InReference.regPut h0 1 (s.sp + 2)
  have h3 := InReference.regPut h1 3 (s.memByte s.sp).toNat
  rw [framePopped, regVal_setAcc, reference_regVal_regPut h3 (by decide) (byte_le _),
    reference_regVal_regPut h1 (by decide) (byte_le _),
    reference_regVal_regPut h0 (by decide) hsp, regVal_memClear]

theorem memByte_framePopped (hs : InReference s) (a : Nat) :
    (framePopped s).memByte a = if s.sp ≤ a ∧ a < s.sp + 2 then 0 else s.memByte a := by
  rw [framePopped, memByte_setAcc, memByte_regPut, memByte_regPut, memByte_regPut,
    memByte_memClear hs.2.2]

/-- The two pops of one slot each are the zero-fill of the frame. -/
theorem popped_addressPopped (hs : InReference s) (hsp : s.sp + 2 ≤ 255) :
    ((popped (addressPopped s)).regPut 2 (s.memByte (s.sp + 1)).toNat).setAcc
      (s.memByte s.sp).toNat = framePopped s := by
  have ha := addressPopped_inReference hs
  have hp := popped_inReference ha
  have hsp' : (addressPopped s).sp = s.sp + 1 := sp_addressPopped hs (by omega)
  refine InReference.ext (InReference.setAcc (InReference.regPut hp _ _) _)
    (framePopped_inReference hs) (fun j => ?_) (fun a => ?_) rfl
    (by simp [popped, addressPopped, framePopped])
  · rw [regVal_setAcc, reference_regVal_regPut hp (by decide) (byte_le _),
      reference_regVal_popped ha (by omega), hsp', regVal_addressPopped hs (by omega),
      regVal_framePopped hs hsp]
    grind
  · rw [memByte_setAcc, memByte_regPut, memByte_popped ha.2.2, hsp', memByte_addressPopped hs,
      memByte_framePopped hs]
    grind

/-- The first pop, and its byte into `mar`. -/
theorem microRun_addressPopped (hs : InReference s) (hsp : s.sp < 255) :
    microRun [.popFromStack, .setMemoryAddress] s = .ok (addressPopped s) := by
  have hmar := reference_setMemoryAddress (s := popped s) (popped_inReference hs).1
    (acc_popped s ▸ byte_le _)
  rw [acc_popped] at hmar
  rw [microRun_cons (reference_popFromStack hs.1 hsp)]
  exact microRun_cons hmar

theorem microRun_framePopped (hs : InReference s) (hsp : s.sp + 2 ≤ 255) :
    microRun ([.popFromStack, .setMemoryAddress] ++
      [.popFromStack, .storeToRegisterInternal 2, .loadFromRegisterInternal 3]) s =
      .ok (framePopped s) := by
  have ha := addressPopped_inReference hs
  have hp := popped_inReference ha
  have hsp' : (addressPopped s).sp = s.sp + 1 := sp_addressPopped hs (by omega)
  have hacc : (popped (addressPopped s)).acc = (s.memByte (s.sp + 1)).toNat := by
    rw [acc_popped, hsp', memByte_addressPopped hs, if_neg (by omega)]
  have hstore : microOf (.storeToRegisterInternal 2) (popped (addressPopped s)) =
      .ok ((popped (addressPopped s)).regPut 2 (s.memByte (s.sp + 1)).toNat) := by
    rw [← hacc]
    exact reference_storeToRegisterInternal hp.1 (by decide) (hacc ▸ byte_le _)
  have hmar : ((popped (addressPopped s)).regPut 2 (s.memByte (s.sp + 1)).toNat).regVal 3 =
      (s.memByte s.sp).toNat := by
    rw [reference_regVal_regPut_ne hp.1 (by decide), regVal_popped ha.1 (by decide),
      regVal_addressPopped hs (by omega), if_pos rfl]
  rw [microRun_append (microRun_addressPopped hs (by omega)),
    microRun_cons (reference_popFromStack ha.1 (by omega)), microRun_cons hstore,
    ← popped_addressPopped hs hsp, ← hmar]
  exact microRun_cons (reference_loadFromRegisterInternal (InReference.regPut hp _ _).1 (by decide))

/-- The stack pointer past both slots has to fit `sp`. -/
theorem microRun_pops_wide (hs : InReference s) (hsp : 255 < s.sp + 2) :
    microRun [.popFromStack, .setMemoryAddress, .popFromStack] s = .error .valueTooWide := by
  rcases (reference_sp_le hs.1).lt_or_eq with hlt | heq
  · have hsp' : (addressPopped s).sp = s.sp + 1 := sp_addressPopped hs hlt
    exact (microRun_append (pre := [.popFromStack, .setMemoryAddress])
      (microRun_addressPopped hs hlt)).trans (microRun_cons_error
        (reference_popFromStack_wide (addressPopped_inReference hs).1 (by omega)))
  · exact microRun_cons_error (reference_popFromStack_wide hs.1 heq)

theorem exec_ret_wide (h : Stands .ret s) (hsp : 255 < s.sp + 2) :
    FaultsWith (exec .ret s) .valueTooWide :=
  exec_faultsWith (pre := [.popFromStack, .setMemoryAddress, .popFromStack]) h rfl rfl
    (microRun_pops_wide h.1 hsp)

theorem exec_ret (h : Stands .ret s) (hsp : s.sp + 2 ≤ 255) :
    exec .ret s = .next (finish (framePopped s) 6 (s.memByte s.sp).toNat) :=
  exec_of_taken (pre := [.popFromStack, .setMemoryAddress] ++
    [.popFromStack, .storeToRegisterInternal 2, .loadFromRegisterInternal 3]) (u := .jump) h rfl rfl
    (microRun_framePopped h.1 hsp) rfl (byte_le _)

/-! ### RET after CALL (46_refisa_control.md R159) -/

theorem pc_finish {n p : Nat} (hs : InReference s) (hp : p ≤ 255) : (finish s n p).pc = p := by
  have hpc : (finish s n p).pc = (s.regPut s.cfg.pcId p).pc := rfl
  rw [hpc, hs.1, referenceConfig_pcId, reference_pc_regPut hs (by decide) hp, if_pos rfl]

theorem sp_finish {n p : Nat} (hc : s.cfg = referenceConfig) : (finish s n p).sp = s.sp := by
  have hf : (finish s n p).cfg = referenceConfig := (regPut_cfg ..).trans hc
  rw [reference_sp hf, regVal_finish hc (by decide), reference_sp hc]

/-- A call that completes had room for its frame, and a return address that fits. -/
theorem exec_call_next (h : Stands (.call b) s) (ht : exec (.call b) s = .next t) :
    2 ≤ s.sp ∧ s.pc + 2 ≤ 255 ∧
      t = finish ((contextSaved s).setAcc (callTarget s)) 16 (callTarget s) := by
  rcases Nat.lt_or_ge s.sp 2 with hsp | hsp
  · exact absurd ht (not_next_of_faultsWith (exec_call_underflow h hsp))
  rcases Nat.lt_or_ge 255 (s.pc + 2) with hpc | hpc
  · exact absurd ht (not_next_of_faultsWith (exec_call_wide h hsp hpc))
  · refine ⟨hsp, hpc, ?_⟩
    injection ht.symm.trans (exec_call h hsp hpc)

/-- What a call leaves on the stack: the return address, and above it the base pointer. -/
theorem call_frame (h : Stands (.call b) s) (ht : exec (.call b) s = .next t) :
    t.sp + 2 = s.sp ∧ (t.memByte t.sp).toNat = s.pc + 2 ∧
      (t.memByte (t.sp + 1)).toNat = s.regVal 2 := by
  obtain ⟨hsp, hpc, rfl⟩ := exec_call_next h ht
  have hc : ((contextSaved s).setAcc (callTarget s)).cfg = referenceConfig :=
    (contextSaved_inReference h.1).1
  have hbp := reference_regVal_le h.1.1 2
  have hsp' : (finish ((contextSaved s).setAcc (callTarget s)) 16 (callTarget s)).sp = s.sp - 2 := by
    rw [sp_finish hc, sp_setAcc, reference_sp (contextSaved_inReference h.1).1,
      regVal_contextSaved h.1 hpc]
    rfl
  rw [hsp', memByte_finish, memByte_finish, memByte_setAcc, memByte_setAcc, memByte_contextSaved,
    memByte_contextSaved, memByte_framePushed h.1, memByte_framePushed h.1, if_pos rfl,
    if_neg (by omega), if_pos (by omega), BitVec.toNat_ofNat, BitVec.toNat_ofNat]
  omega

/-- What a return that completes leaves. -/
theorem ret_result (h : Stands .ret s) (hsp : s.sp + 2 ≤ 255) :
    ∃ t, exec .ret s = .next t ∧ Idle t ∧ t.pc = (s.memByte s.sp).toNat ∧ t.sp = s.sp + 2 ∧
      t.regVal 2 = (s.memByte (s.sp + 1)).toNat ∧
      (∀ a, t.memByte a = if s.sp ≤ a ∧ a < s.sp + 2 then 0 else s.memByte a) ∧
      (∀ j, 4 ≤ j → t.regVal j = s.regVal j) := by
  have hs := framePopped_inReference h.1
  have ht := exec_ret h hsp
  have hreg {j : Nat} (hj : j ≠ 0) := regVal_finish (n := 6) (p := (s.memByte s.sp).toNat) hs.1 hj
  refine ⟨_, ht, ?_, pc_finish hs (byte_le _), ?_, ?_, fun a => ?_, fun j hj => ?_⟩
  · obtain ⟨hhalted, hopcode⟩ := stands_ends_idle rfl h ht (by decide)
    exact (condition_idle_iff _).2 ⟨stands_fatal h ht, hhalted, hopcode⟩
  · rw [sp_finish hs.1, reference_sp hs.1, regVal_framePopped h.1 hsp]
    rfl
  · rw [hreg (by decide), regVal_framePopped h.1 hsp, if_pos rfl]
  · rw [memByte_finish, memByte_framePopped h.1]
  · rw [hreg (by omega), regVal_framePopped h.1 hsp, if_neg (by omega), if_neg (by omega),
      if_neg (by omega)]

end

/-! ### The statements -/

/-- Settles O52: two pops of one byte are the zero-fill of two, and Jump goes to what `mar` kept. -/
theorem retInstruction : Obligations.RetInstruction := by
  refine fun s h => ⟨exec_ret_wide h, fun hsp => ?_⟩
  rintro r p rfl rfl
  exact exec_ret h hsp

/-- Settles O53: RET finds the return address and the base pointer where CALL put them. -/
theorem returnAfterCall : Obligations.ReturnAfterCall := by
  intro s t m b h ht hm hsp hlow hhigh
  obtain ⟨hframe, hreturn, hbase⟩ := call_frame h ht
  have hle := reference_sp_le h.1.1
  obtain ⟨u, hu, hidle, hpc, hsp', hbp, hmem, hreg⟩ := ret_result hm (by omega)
  rw [hsp] at hpc hsp' hbp hmem
  refine ⟨hframe, u, hu, hidle, ?_, ?_, ?_, ?_, ?_, fun a hne hne' => ?_, hreg⟩
  · rw [hpc, hlow, hreturn]
  · rw [hsp', hframe]
  · rw [hbp, hhigh, hbase]
  · rw [hmem, if_pos (by omega)]
  · rw [hmem, if_pos (by omega)]
  · rw [hmem, if_neg (by omega)]

end Sys2Proof.Machine
end

section
/-! SUPPORT. What 60_exceptions.md says of a fatal error: which causes each tick can raise (R162), that the latch is
final (R163), and that only a reset clears it (R165). -/

namespace Sys2Proof.Machine

open Sys2Proof

/-! ### The causes a sequence can raise -/

/-- Whatever `x` raises is a cause that `P` allows. -/
def RaisesOnly {α : Type} (P : FatalCause → Prop) (x : Raise α) : Prop :=
  ∀ c, x = .error c → P c

section
variable {α β : Type} {P : FatalCause → Prop} {s : State}

theorem raisesOnly_ok (a : α) : RaisesOnly P (.ok a) := by
  intro c h
  cases h

theorem raisesOnly_error {c : FatalCause} (hc : P c) : RaisesOnly P (.error c : Raise α) := by
  intro d h
  cases h
  exact hc

/-- A sequence raises what its parts raise. -/
theorem RaisesOnly.bind {x : Raise α} {f : α → Raise β} (hx : RaisesOnly P x)
    (hf : ∀ a, x = .ok a → RaisesOnly P (f a)) : RaisesOnly P (x >>= f) := by
  intro c h
  rcases bind_eq_error.1 h with he | ⟨a, ha, he⟩
  · exact hx c he
  · exact hf a ha c he

/-! ### The causes of the shared operations (10_state.md R16, R17, 20_memory.md R41 to R43) -/

theorem regRead_raisesOnly {i : Nat} (hu : s.cfg.regs.length ≤ i → P .unknownRegister) :
    RaisesOnly P (s.regRead i) := by
  rcases regRead_cases s i with ⟨-, e⟩ | ⟨hi, e⟩ <;> rw [e]
  · exact raisesOnly_ok _
  · exact raisesOnly_error (hu hi)

theorem regWrite_raisesOnly {i v : Nat} (hu : s.cfg.regs.length ≤ i → P .unknownRegister)
    (hw : P .valueTooWide) : RaisesOnly P (s.regWrite i v) := by
  rcases regWrite_cases s i v with ⟨-, -, e⟩ | ⟨-, -, e⟩ | ⟨hi, e⟩ <;> rw [e]
  · exact raisesOnly_ok _
  · exact raisesOnly_error hw
  · exact raisesOnly_error (hu hi)

theorem memRead_raisesOnly {a n : Nat} (hm : P .memRange) : RaisesOnly P (s.memRead a n) := by
  rcases memRead_cases s a n with ⟨-, e⟩ | ⟨-, e⟩ <;> rw [e]
  · exact raisesOnly_ok _
  · exact raisesOnly_error hm

theorem memWrite_raisesOnly {a n v : Nat} (hm : P .memRange) (hw : P .valueTooWide) :
    RaisesOnly P (s.memWrite a n v) := by
  rcases memWrite_cases s a n v with ⟨-, -, e⟩ | ⟨-, e⟩ | ⟨-, -, e⟩ <;> rw [e]
  · exact raisesOnly_ok _
  · exact raisesOnly_error hm
  · exact raisesOnly_error hw

theorem memZero_raisesOnly {a n : Nat} (hm : P .memRange) : RaisesOnly P (s.memZero a n) := by
  rcases memZero_cases s a n with ⟨-, e⟩ | ⟨-, e⟩ <;> rw [e]
  · exact raisesOnly_ok _
  · exact raisesOnly_error hm

theorem operandByte_raisesOnly {o : Byte} (hu : s.cfg.regs.length ≤ s.cfg.pcId → P .unknownRegister)
    (hm : P .memRange) : RaisesOnly P (s.operandByte o) :=
  (regRead_raisesOnly hu).bind fun _ _ => memRead_raisesOnly hm

theorem microJump_raisesOnly (hu : s.cfg.regs.length ≤ s.cfg.pcId → P .unknownRegister)
    (hw : P .valueTooWide) : RaisesOnly P (microJump s) :=
  (regWrite_raisesOnly hu hw).bind fun _ _ => raisesOnly_ok _

/-- What reads `reg_a` and `reg_b` first can raise that one of them is unknown, and what follows. -/
theorem readOperands_raisesOnly {f : Nat → Nat → Raise α} (hu : P .unknownRegister)
    (hf : s.cfg.regAId < s.cfg.regs.length → s.cfg.regBId < s.cfg.regs.length →
      RaisesOnly P (f s.regA s.regB)) :
    RaisesOnly P (do
      let a ← s.regRead s.cfg.regAId
      let b ← s.regRead s.cfg.regBId
      f a b) := by
  by_cases h : s.cfg.regs.length ≤ s.cfg.regAId ∨ s.cfg.regs.length ≤ s.cfg.regBId
  · rw [readOperands_unknown h]
    exact raisesOnly_error hu
  · obtain ⟨ha, hb⟩ := not_or.1 h
    rw [readOperands_ok (Nat.lt_of_not_le ha) (Nat.lt_of_not_le hb)]
    exact hf (Nat.lt_of_not_le ha) (Nat.lt_of_not_le hb)

/-! ### The causes of the micro-operations with more than one check (60_exceptions.md R162) -/

theorem microOf_compare_raisesOnly (hr : s.cfg.regsOk = true) (hu : P .unknownRegister)
    (hc : P .compareWidth) : RaisesOnly P (microOf .compare s) := by
  by_cases h : s.cfg.regs.length ≤ s.cfg.regAId ∨ s.cfg.regs.length ≤ s.cfg.regBId ∨
      s.cfg.regs.length ≤ s.cfg.flagsId
  · rw [microOf_compare_unknown h]
    exact raisesOnly_error hu
  · have hf : s.cfg.flagsId < s.cfg.regs.length := by omega
    rw [microOf_compare_eq (by omega) (by omega) hf, regWrite_flags hr hf, regWrite_flags hr hf]
    split_ifs
    · exact raisesOnly_error hc
    all_goals exact raisesOnly_ok _

theorem microSub_raisesOnly (hu : P .unknownRegister) (hs : P .subUnderflow) :
    RaisesOnly P (microSub s) := by
  refine readOperands_raisesOnly hu fun _ _ => ?_
  split_ifs
  · exact raisesOnly_error hs
  · exact raisesOnly_ok _

theorem microPushToStack_raisesOnly (hu : P .unknownRegister) (hs : P .subUnderflow)
    (hm : P .memRange) (hw : P .valueTooWide) : RaisesOnly P (microPushToStack s) := by
  refine (regRead_raisesOnly fun _ => hu).bind fun sp _ => ?_
  split_ifs
  · exact raisesOnly_error hs
  · exact (memWrite_raisesOnly hm hw).bind fun _ _ => regWrite_raisesOnly (fun _ => hu) hw

theorem microPopFromStack_raisesOnly (hu : P .unknownRegister) (hm : P .memRange)
    (hw : P .valueTooWide) : RaisesOnly P (microPopFromStack s) :=
  (regRead_raisesOnly fun _ => hu).bind fun _ _ => (memRead_raisesOnly hm).bind fun _ _ =>
    (memZero_raisesOnly hm).bind fun _ _ => regWrite_raisesOnly (fun _ => hu) hw

/-- A conditional jump raises what reading the flags and Jump can. -/
theorem readFlags_raisesOnly {f : Nat → Raise State} (hu : P .unknownRegister)
    (hf : ∀ v, f v = microJump s ∨ f v = .ok s) (hw : P .valueTooWide) :
    RaisesOnly P (s.regRead s.cfg.flagsId >>= f) := by
  refine (regRead_raisesOnly fun _ => hu).bind fun v _ => ?_
  rcases hf v with e | e <;> rw [e]
  · exact microJump_raisesOnly (fun _ => hu) hw
  · exact raisesOnly_ok _

end

/-! ### The table of causes (60_exceptions.md R162) -/

/-- The causes R162 lists for a micro-operation, and the one that a missing program counter adds (log 14). -/
def Listed (u : MicroOp) (s : State) (c : FatalCause) : Prop :=
  c ∈ causesOf u ∨ (s.cfg.regs.length ≤ s.cfg.pcId ∧ c = .unknownRegister)

section
variable {s t : State} {u : MicroOp} {c : FatalCause}

theorem listed_of_contains (h : (causesOf u).contains c = true) : Listed u s c :=
  .inl (by simpa using h)

theorem listed_of_pc_unknown (u : MicroOp) (h : s.cfg.regs.length ≤ s.cfg.pcId) :
    Listed u s .unknownRegister := .inr ⟨h, rfl⟩

/-- Each micro-operation raises only the causes of its row. -/
theorem microOf_raisesOnly_listed (hr : s.cfg.regsOk = true) (u : MicroOp) :
    RaisesOnly (Listed u s) (microOf u s) := by
  have hpc := listed_of_pc_unknown (s := s) u
  have hrow {c : FatalCause} (h : (causesOf u).contains c = true) : Listed u s c :=
    listed_of_contains h
  cases u with
  | noOperation => exact raisesOnly_ok _
  | halt => exact raisesOnly_ok _
  | loadImmediateInternal v => exact raisesOnly_ok _
  | loadImmediate o => exact (operandByte_raisesOnly hpc (hrow rfl)).bind fun _ _ => raisesOnly_ok _
  | loadFromMemory =>
    exact (regRead_raisesOnly fun _ => hrow rfl).bind fun _ _ =>
      (memRead_raisesOnly (hrow rfl)).bind fun _ _ => raisesOnly_ok _
  | loadFromRegister o =>
    exact ((operandByte_raisesOnly hpc (hrow rfl)).bind fun _ _ =>
      regRead_raisesOnly fun _ => hrow rfl).bind fun _ _ => raisesOnly_ok _
  | loadFromRegisterInternal id =>
    exact (regRead_raisesOnly fun _ => hrow rfl).bind fun _ _ => raisesOnly_ok _
  | setMemoryAddress => exact regWrite_raisesOnly (fun _ => hrow rfl) (hrow rfl)
  | storeToMemory =>
    exact (regRead_raisesOnly fun _ => hrow rfl).bind fun _ _ =>
      memWrite_raisesOnly (hrow rfl) (hrow rfl)
  | storeToRegister o =>
    exact (operandByte_raisesOnly hpc (hrow rfl)).bind fun _ _ =>
      regWrite_raisesOnly (fun _ => hrow rfl) (hrow rfl)
  | storeToRegisterInternal id => exact regWrite_raisesOnly (fun _ => hrow rfl) (hrow rfl)
  | stepProgramMemory n =>
    exact (regRead_raisesOnly hpc).bind fun _ _ => regWrite_raisesOnly hpc (hrow rfl)
  | add => exact readOperands_raisesOnly (hrow rfl) fun _ _ => raisesOnly_ok _
  | sub => exact microSub_raisesOnly (hrow rfl) (hrow rfl)
  | compare => exact microOf_compare_raisesOnly hr (hrow rfl) (hrow rfl)
  | pushToStack =>
    exact microPushToStack_raisesOnly (hrow rfl) (hrow rfl) (hrow rfl) (hrow rfl)
  | popFromStack => exact microPopFromStack_raisesOnly (hrow rfl) (hrow rfl) (hrow rfl)
  | jump => exact microJump_raisesOnly hpc (hrow rfl)
  | jumpIfFlag t f =>
    exact readFlags_raisesOnly (hrow rfl) (fun _ => ite_eq_or_eq ..) (hrow rfl)
  | jumpIfNotFlag t f =>
    exact readFlags_raisesOnly (hrow rfl) (fun _ => (ite_eq_or_eq ..).symm) (hrow rfl)

/-- With a program counter the fetch tick can only miss the memory or the table (44_sequencer.md R112). -/
theorem fetch_raisesOnly {P : FatalCause → Prop} (hpc : s.cfg.pcId < s.cfg.regs.length)
    (hm : P .memRange) (ho : P .unknownOpcode) : RaisesOnly P (fetch s) := by
  refine (regRead_raisesOnly fun h => absurd hpc h.not_gt).bind fun _ _ =>
    (memRead_raisesOnly hm).bind fun op _ => ?_
  cases lookupEntry s.cfg.itable (BitVec.ofNat 8 op) with
  | none => exact raisesOnly_error ho
  | some e => exact raisesOnly_ok _

/-- With a program counter the retire tick can only leave its range (44_sequencer.md R114). -/
theorem retire_raisesOnly {P : FatalCause → Prop} (hpc : s.cfg.pcId < s.cfg.regs.length)
    (hw : P .valueTooWide) : RaisesOnly P (retire s) :=
  have hu (h : s.cfg.regs.length ≤ s.cfg.pcId) : P .unknownRegister := absurd hpc h.not_gt
  (regRead_raisesOnly hu).bind fun _ _ => (regWrite_raisesOnly hu hw).bind fun _ _ => raisesOnly_ok _

/-! ### The cause of a fault outcome -/

theorem microOf_of_faultsWith (h : FaultsWith (exec u.toInstr s) c) : microOf u s = .error c := by
  rw [exec_toInstr, runMicroOp_eq, executeTick] at h
  cases e : microOf u s with
  | ok t => rw [e] at h; cases h
  | error d => rw [e] at h; injection h with h; rw [h]

theorem fetch_of_faultsWith (h : FaultsWith (fetchTick s) c) : fetch s = .error c := by
  cases e : fetch s with
  | ok t => rw [fetchTick_of_ok e] at h; cases h
  | error d => rw [fetchTick_of_error e] at h; injection h with h; rw [h]

theorem retire_of_faultsWith (h : FaultsWith (retireTick s) c) : retire s = .error c := by
  cases e : retire s with
  | ok t => rw [retireTick_of_ok e] at h; cases h
  | error d => rw [retireTick, e] at h; injection h with h; rw [h]

/-! ### No program counter (10_state.md R16, R20; log 14) -/

/-- What reads the program counter, and what writes it, raises that it is unknown. -/
theorem microOf_pc_unknown (hpc : s.cfg.regs.length ≤ s.cfg.pcId)
    (hu : u.readsPc = true ∨ u.taken s = true) : microOf u s = .error .unknownRegister := by
  rcases hu with hu | hu
  · cases u with
    | loadImmediate o => exact bind_of_error (operandByte_unknown hpc)
    | loadFromRegister o => exact bind_of_error (bind_of_error (operandByte_unknown hpc))
    | storeToRegister o => exact bind_of_error (operandByte_unknown hpc)
    | stepProgramMemory n => exact bind_of_error (regRead_unknown hpc.not_gt)
    | _ => cases hu
  · have hjump : microJump s = .error .unknownRegister :=
      bind_of_error (regWrite_unknown hpc.not_gt)
    by_cases hf : s.cfg.flagsId < s.cfg.regs.length
    · exact (microOf_of_taken hf hu).trans hjump
    · cases u with
      | jump => exact hjump
      | jumpIfFlag t f => exact bind_of_error (regRead_unknown hf)
      | jumpIfNotFlag t f => exact bind_of_error (regRead_unknown hf)
      | _ => cases hu

theorem step_pc_unknown (hs : Idle s) (hpc : s.cfg.regs.length ≤ s.cfg.pcId) :
    FaultsWith (step s) .unknownRegister := by
  rw [step_eq, if_pos hs, runFetched_of_error (fetch_unknown hpc)]
  rfl

/-! ### No refusal -/

theorem runMicroOps_not_refused (us : List MicroOp) (s : State) (r : Refusal) :
    runMicroOps us s ≠ .refused r := by
  induction us generalizing s with
  | nil =>
    rw [runMicroOps, retireTick]
    cases retire s <;> nofun
  | cons u us ih =>
    rw [runMicroOps]
    cases h : runMicroOp u s with
    | next t =>
      dsimp only
      split_ifs
      · nofun
      · exact ih t
    | fault f => nofun
    | refused q => exact absurd h (runMicroOp_not_refused u s q)

/-- Every row of the table is an instruction of RCS-REF-1 or a micro-operation (00_scope.md R2). -/
theorem isReference_or_toInstr (i : Instr) : i.isReference = true ∨ ∃ u : MicroOp, i = u.toInstr := by
  cases h : i.toMicroOp with
  | none => exact .inl (by rw [Instr.isReference, h]; rfl)
  | some u => exact .inr ⟨u, by cases i <;> cases h <;> rfl⟩

theorem exec_not_refused (i : Instr) (s : State) (r : Refusal) : exec i s ≠ .refused r := by
  rcases isReference_or_toInstr i with hi | ⟨u, rfl⟩
  · rw [exec_reference hi]
    cases latchInstruction (encode i) ((encode i).headD 0) s with
    | ok t => exact runMicroOps_not_refused _ t r
    | error c => nofun
  · rw [exec_toInstr]
    exact runMicroOp_not_refused u s r

/-! ### The latch (60_exceptions.md R163, R165) -/

theorem ticks_of_fatal (h : s.fatal ≠ none) (n : Nat) : ticks n s = .next s :=
  ticks_of_stuck (clock_of_fatal h) n

theorem step_of_fatal (h : s.fatal ≠ none) : step s = .next s := by
  have hc := (condition_fatal_iff s).2 h
  rw [step_eq, if_neg (by rw [hc]; decide), clock_of_fatal h]

theorem hostWrite_fatal {r : RegRef} {bs : List Byte} (h : s.hostWrite r bs = .ok t) :
    t.fatal = s.fatal := by
  cases hr : s.resolve r with
  | ok d =>
    by_cases hlen : bs.length = d.size
    · rw [hostWrite_of_ok hr hlen] at h
      injection h with h
      rw [← h]
      rfl
    · rw [hostWrite_of_size hr hlen] at h
      cases h
  | error e => rw [hostWrite_of_error hr] at h; cases h

@[simp] theorem setStore_fatal (s : State) (k : StoreId) (m : Memory) :
    (s.setStore k m).fatal = s.fatal := by
  cases k <;> rfl

theorem writeRange_fatal {k : StoreId} {a : Nat} {bs : List Byte}
    (h : s.writeRange k a bs = .ok t) : t.fatal = s.fatal := by
  unfold State.writeRange at h
  split at h
  · injection h with h; rw [← h, setStore_fatal]
  · cases h

theorem clearRange_fatal {k : StoreId} {a b : Nat} (h : s.clearRange k a b = .ok t) :
    t.fatal = s.fatal := by
  unfold State.clearRange at h
  split at h
  · injection h with h; rw [← h, setStore_fatal]
  · cases h

@[simp] theorem hardReset_fatal (s : State) : s.hardReset.fatal = none := construct_fatal s.cfg

/-- Every transition of a session but a reset leaves a latch that is set. -/
theorem Session.perform_fatal {a : HostAction} {h h' : Session} (hf : h.state.fatal = some c)
    (e : h.perform a = .ok h') :
    (a ≠ .reset → h'.state.fatal = some c) ∧ (a = .reset → h'.state.fatal = none) := by
  have keeps {x : HostAction} (ha : x ≠ .reset) (hk : h'.state.fatal = some c) :
      (x ≠ .reset → h'.state.fatal = some c) ∧ (x = .reset → h'.state.fatal = none) :=
    ⟨fun _ => hk, fun hx => absurd hx ha⟩
  rcases Session.perform_ok e with ⟨rfl, rfl⟩ | ⟨rfl, rfl⟩ | ⟨r, bs, t, rfl, hw, rfl⟩ |
    ⟨k, n, bs, t, rfl, hw, rfl⟩ | ⟨k, n, n', t, rfl, hw, rfl⟩ | ⟨it, rfl, -, rfl⟩ | ⟨rfl, rfl⟩
  · have hstuck : clock h.state = .next h.state := clock_of_fatal (by rw [hf]; nofun)
    exact keeps nofun (by rw [hstuck]; exact hf)
  · exact keeps nofun hf
  · exact keeps nofun ((hostWrite_fatal hw).trans hf)
  · exact keeps nofun ((writeRange_fatal hw).trans hf)
  · exact keeps nofun ((clearRange_fatal hw).trans hf)
  · exact keeps nofun hf
  · exact ⟨fun ha => absurd rfl ha, fun _ => hardReset_fatal h.state⟩

end

/-! ### The statements -/

/-- Settles O32: the causes of a sequence are those of its parts, so each row is read off its pseudocode. -/
theorem onlyListedCausesAreRaised : Obligations.OnlyListedCausesAreRaised := by
  refine ⟨fun s c hr => ⟨fun u h => ?_, fun hpc h => ?_, fun hpc h => ?_⟩,
    fun s hpc => ⟨fun u hu => ?_, ?_, ?_, fun hs => step_pc_unknown hs hpc⟩,
    fun s r i => exec_not_refused i s r⟩
  · exact microOf_raisesOnly_listed hr u c (microOf_of_faultsWith h)
  · exact fetch_raisesOnly (P := fun c => c = .memRange ∨ c = .unknownOpcode) hpc (.inl rfl)
      (.inr rfl) c (fetch_of_faultsWith h)
  · exact retire_raisesOnly (P := (· = .valueTooWide)) hpc rfl c (retire_of_faultsWith h)
  · exact exec_of_error (microOf_pc_unknown hpc hu)
  · exact faultsWith_fetchTick (fetch_unknown hpc)
  · exact faultsWith_retireTick (bind_of_error (regRead_unknown hpc.not_gt))

/-- Settles O33: the fault carries the state before it with the latch set, and such a state is stuck. -/
theorem fatalErrorIsFinal : Obligations.FatalErrorIsFinal := by
  intro s t c h
  obtain ⟨d, hd⟩ := clock_fault h
  cases hd
  have hset : (s.setFatal (some c)).fatal ≠ none := nofun
  exact ⟨rfl, (condition_fatal_iff _).2 hset, ticks_of_fatal hset⟩

/-- Settles O34: a fatal state is stuck, and no host operation but a reset touches the latch. -/
theorem onlyResetClearsTheLatch : Obligations.OnlyResetClearsTheLatch := by
  refine ⟨fun s c hf => ?_, fun a h h' c hf e => Session.perform_fatal hf e⟩
  have hset : s.fatal ≠ none := by rw [hf]; nofun
  exact ⟨ticks_of_fatal hset, step_of_fatal hset, hf,
    fun r bs t h => (hostWrite_fatal h).trans hf, fun k a bs t h => (writeRange_fatal h).trans hf,
    fun k a b t h => (clearRange_fatal h).trans hf, hardReset_fatal s⟩

end Sys2Proof.Machine
end

section
/-! SUPPORT. What 70_reset_and_hazards.md says of the ticks of each instruction (R204): the index of its last tick, by
the shape of its micro-operation list. -/

namespace Sys2Proof.Machine

open Sys2Proof

section
variable {s t m : State} {e : Entry} {i : Instr} {u : MicroOp} {pre : List MicroOp} {b k : Byte}
  {j n : Nat}

/-! ### The ticks of a step by the index of its last tick (44_sequencer.md R117) -/

/-- Every state strictly between the fetch tick and the last one is in the middle of the instruction. -/
theorem LastTick.executing_between (h : LastTick s t j m) (hn : 0 < n) (hj : n < j + 2) :
    ∃ r, ticks n s = .next r ∧ Executing r := by
  obtain ⟨k, rfl⟩ := Nat.exists_eq_succ_of_ne_zero hn.ne'
  obtain ⟨r, hticks, hx, -⟩ := beforeMicroOp_of_le h.before (by omega : k ≤ j)
  exact ⟨r, hticks, hx⟩

/-- No step is longer than a number of ticks that completes it. -/
theorem LastTick.le_of_ticks (h : LastTick s t j m) (ht : ticks (n + 2) s = .next t) : j ≤ n := by
  by_contra hlt
  obtain ⟨r, hr, hx⟩ := h.executing_between (n := n + 2) (by omega) (by omega)
  cases ht.symm.trans hr
  exact h.not_executing hx

/-- The step on the cursor tells a retire tick, which keeps it, from an execute tick, which adds 1
(44_sequencer.md R113, R114). -/
theorem LastTick.currentStep_cases (h : LastTick s t j m) (hs : Idle s)
    (he : lookupEntry s.cfg.itable (s.memByte s.pc) = some e) :
    (j = e.microOps.length ∧ t.currentStep = j) ∨
      ∃ u, e.microOps[j]? = some u ∧ u.isStraight = false ∧ t.currentStep = j + 1 := by
  obtain ⟨-, -, hstep⟩ := h.before
  rcases h.cases hs he with ⟨hj, hret⟩ | ⟨u, r, hu, heff, rfl, hlast⟩
  · obtain ⟨-, -, rfl⟩ := retireTick_next hret
    exact .inl ⟨hj, by simp [hstep]⟩
  · refine .inr ⟨u, hu, ?_, by simp [stepped, heff.currentStep_eq, hstep]⟩
    by_contra hst
    rw [Bool.not_eq_false] at hst
    rcases hlast with ht | hhalt
    · cases ht.symm.trans (MicroOp.taken_of_isStraight hst m)
    · exact MicroOp.ne_halt_of_isStraight hst hhalt

/-! ### The instruction that stands at the program counter -/

/-- From `s` to `t` it takes `n` ticks, and the engine is Executing in every state strictly between. -/
def TakesTicks (s t : State) (n : Nat) : Prop :=
  ticks n s = .next t ∧ ∀ k : Nat, 0 < k → k < n → ∃ m : State, ticks k s = .next m ∧ Executing m

theorem LastTick.takesTicks (h : LastTick s t j m) : TakesTicks s t (j + 2) :=
  ⟨h.ticks_eq, fun _ => h.executing_between⟩

/-- A completed instruction has a last tick in the entry of its micro-operations. -/
theorem stands_lastTick (h : Stands i s) (ht : exec i s = .next t) :
    ∃ e j m, e.microOps = referenceMicroOps i ∧
      lookupEntry s.cfg.itable (s.memByte s.pc) = some e ∧ LastTick s t j m := by
  obtain ⟨e, hu, he, -, -⟩ := clock_stands h
  obtain ⟨j, m, hlast⟩ := exists_lastTick h.2.1 ((step_stands h).trans ht)
  exact ⟨e, j, m, hu, he, hlast⟩

/-- Straight micro-operations: the fetch tick, one tick each, and the retire tick. -/
theorem takesTicks_of_straight (h : Stands i s) (ht : exec i s = .next t)
    (hst : (referenceMicroOps i).all MicroOp.isStraight = true) :
    TakesTicks s t ((referenceMicroOps i).length + 2) := by
  obtain ⟨e, j, m, hu, he, hlast⟩ := stands_lastTick h ht
  rw [← hu] at hst ⊢
  obtain ⟨rfl, -⟩ := hlast.retires_of_straight h.2.1 he (List.all_eq_true.1 hst)
  exact hlast.takesTicks

/-- A last Jump takes the place of the retire tick. -/
theorem takesTicks_of_jump (h : Stands i s) (ht : exec i s = .next t)
    (hus : referenceMicroOps i = pre ++ [.jump]) (hst : pre.all MicroOp.isStraight = true) :
    TakesTicks s t (pre.length + 2) := by
  obtain ⟨e, j, m, hu, he, hlast⟩ := stands_lastTick h ht
  obtain rfl := hlast.index_of_jump h.2.1 he (hu.trans hus) (List.all_eq_true.1 hst)
  exact hlast.takesTicks

/-- HLT is suspended by its first execute tick (43_microops_control.md R104). -/
theorem takesTicks_hlt (h : Stands .hlt s) (ht : exec .hlt s = .next t) : TakesTicks s t 2 := by
  obtain ⟨e, j, m, -, -, hlast⟩ := stands_lastTick h ht
  obtain ⟨r, hexec, hticks, -⟩ := (nopAndHlt s).2 h
  cases ht.symm.trans hexec
  obtain rfl := Nat.le_zero.1 (hlast.le_of_ticks hticks)
  exact hlast.takesTicks

/-- A conditional jump before one StepProgramMemory ends the instruction or leaves it the two ticks after; the step on
the cursor says which. -/
theorem takesTicks_of_conditionalJump (h : Stands i s) (ht : exec i s = .next t)
    (hus : referenceMicroOps i = pre ++ [u, .stepProgramMemory k]) :
    (t.currentStep = pre.length + 1 → TakesTicks s t (pre.length + 2)) ∧
      (t.currentStep = pre.length + 2 → TakesTicks s t (pre.length + 4)) := by
  obtain ⟨e, j, m, hu, he, hlast⟩ := stands_lastTick h ht
  rw [hus] at hu
  rcases hlast.currentStep_cases h.2.1 he with ⟨hj, hstep⟩ | ⟨v, hv, hvst, hstep⟩
  · obtain rfl : j = pre.length + 2 := by simpa [hu] using hj
    exact ⟨fun ht => by omega, fun _ => hlast.takesTicks⟩
  · refine ⟨fun ht => ?_, fun ht => ?_⟩
    · obtain rfl : j = pre.length := by omega
      exact hlast.takesTicks
    · obtain rfl : j = pre.length + 1 := by omega
      obtain rfl : MicroOp.stepProgramMemory k = v := by simpa [hu] using hv
      cases hvst

/-! ### The conditional jumps (46_refisa_control.md R148 to R154, R157) -/

theorem takesTicks_plainJump (h : Stands i s) (hi : IsPlainJump i b) (ht : exec i s = .next t) :
    TakesTicks s t (if jumpFires i s.regA s.regB then 4 else 6) := by
  obtain ⟨hends, hgoes⟩ := takesTicks_of_conditionalJump (pre := [.compare, .loadImmediate 1]) h ht
    (referenceMicroOps_plainJump hi)
  cases hf : jumpFires i s.regA s.regB with
  | true =>
    cases ht.symm.trans (exec_plainJump_fires h hi hf)
    exact hends rfl
  | false =>
    obtain rfl := (exec_plainJump_falls_through h hi hf).eq_finish ht
    exact hgoes rfl

/-- A JGE that completes had room for its frame, and a return address that fits. -/
theorem exec_jge_next (h : Stands (.jge b) s) (ht : exec (.jge b) s = .next t) :
    2 ≤ s.sp ∧ s.pc + 2 ≤ 255 := by
  rcases Nat.lt_or_ge s.sp 2 with hsp | hsp
  · exact absurd ht (not_next_of_faultsWith (exec_jge_underflow h hsp))
  rcases Nat.lt_or_ge 255 (s.pc + 2) with hpc | hpc
  · exact absurd ht (not_next_of_faultsWith (exec_jge_wide h hsp hpc))
  · exact ⟨hsp, hpc⟩

theorem takesTicks_jge (h : Stands (.jge b) s) (ht : exec (.jge b) s = .next t) :
    TakesTicks s t (if jumpFires (.jge b) s.regA s.regB then 18 else 20) := by
  obtain ⟨hends, hgoes⟩ := takesTicks_of_conditionalJump
    (pre := .compare :: (microOpsCtx ++ [.loadImmediate 1])) h ht rfl
  obtain ⟨hsp, hpc⟩ := exec_jge_next h ht
  cases hf : jumpFires (.jge b) s.regA s.regB with
  | true =>
    cases ht.symm.trans (exec_jge_fires h hsp hpc (of_decide_eq_true hf))
    exact hends rfl
  | false =>
    have hlt := Nat.lt_of_not_le (of_decide_eq_false hf)
    cases ht.symm.trans (exec_jge_falls_through h hsp hpc hlt)
    exact hgoes rfl

/-! ### The table of ticks (70_reset_and_hazards.md R204) -/

/-- Each instruction takes the ticks of its row: HLT, the jumps that always end it, the conditional jumps, and the
instructions of straight micro-operations. -/
theorem takesTicks_tickCount (hi : i.isReference = true) (h : Stands i s)
    (ht : exec i s = .next t) : TakesTicks s t (tickCount i s) := by
  cases i with
  | hlt => exact takesTicks_hlt h ht
  | jmp b => exact takesTicks_of_jump (pre := [.loadImmediate 1]) h ht rfl rfl
  | jpa => exact takesTicks_of_jump (pre := []) h ht rfl rfl
  | call b => exact takesTicks_of_jump (pre := microOpsCtx ++ [.loadImmediate 1]) h ht rfl rfl
  | ret =>
    exact takesTicks_of_jump (pre := [.popFromStack, .setMemoryAddress, .popFromStack,
      .storeToRegisterInternal 2, .loadFromRegisterInternal 3]) h ht rfl rfl
  | jge b => exact takesTicks_jge h ht
  | jeq b | jne b | jgt b | jlt b | jle b | jnl b =>
    exact takesTicks_plainJump (b := b) h (by simp [IsPlainJump]) ht
  | nop | ldi | ldr | str | mvi | mov | ldm | stm | ldx | stx | add | sub | cmp | push | pshi | pshr
  | pop | popr => exact takesTicks_of_straight h ht rfl
  | _ => cases hi

end

/-! ### The statements -/

/-- Settles O56: the last tick is the retire tick, or the execute tick of the jump taken or of Halt. -/
theorem ticksOfEachInstruction : Obligations.TicksOfEachInstruction :=
  fun _ _ _ hi h ht => takesTicks_tickCount hi h ht

end Sys2Proof.Machine
end
